-- ==== Sys2Proof/Word.lean ====
section
/-! DEFINITION. The two bit-vector widths of the engine: registers are 32 bits wide (00_scope.md R9,
`REG_W`), buffer memory is byte-addressed (20_memory.md R100). -/

namespace Sys2Proof

/-- A register's contents (00_scope.md R9: `REG_W` is 32). -/
abbrev Word := BitVec 32

/-- One byte of buffer memory (20_memory.md R100). -/
abbrev Byte := BitVec 8

end Sys2Proof
end

