-- ==== Sys2Proof/Config.lean ====
section
/-! DEFINITION. The fixed parameters of 00_scope.md R9 and the free values of 20_memory.md R108.

The OPEN parameters ENGINE_BASE, MEM_ACCESSIBLE and ENGINES are arguments of the model (R10): they are
plain data of `Machine.State` (`platform`, `peers`), so that every claim about all states holds for all
their values. -/

namespace Sys2Proof.Config

/-- DESIGN CHOICE (safe): the unspecified words of 60_exceptions.md R613 and 70_reset_and_hazards.md
R711, one for each draw; nothing constrains them (20_memory.md R108, log entry 3). -/
opaque freeWord : Nat → Word

/-- DESIGN CHOICE (safe): the unspecified bytes of 20_memory.md R107, 40_bitpack.md R224 and
10_state.md R79, one for each draw and address; nothing constrains them (20_memory.md R108, log
entry 3). -/
opaque freeByte : Nat → Nat → Byte

/-- Buffer memory has the addresses `0 .. 2^32-1` (00_scope.md R9 `ADDR_W`, 20_memory.md R100). -/
def addrSpace : Nat := 2 ^ 32

/-- A session's capacity or length is below `2^29` bytes (00_scope.md R9, 10_state.md R73). -/
def sessionLimit : Nat := 2 ^ 29

/-- The identification constant "CQT1" (10_state.md R52). -/
def idValue : Word := 0x43515431#32

/-- The register block's size in bytes: offsets 0x00 to 0xFC (10_state.md R50). -/
def blockSize : Nat := 0x100

end Sys2Proof.Config
end

