-- ==== Sys2Proof/Machine/State.lean ====
section
/-! DEFINITION. The state of the machine as plain data: the engine tuple of 10_state.md R78, the other
engines (60_exceptions.md R637), buffer memory (20_memory.md R100), the OPEN parameters (00_scope.md
R9) and the inputs still to come. -/

namespace Sys2Proof.Machine

/-- The 22 error causes of 60_exceptions.md R603. -/
inductive ErrorCode where
  | illegalOp | reservedField | badWidth | badElemSize | badLevel | noSession | rangeWrap | srcShort
  | overlap | dstTooSmall | dstOverflow | truncated | badVarint | badHeader | badWidthField
  | badBlockType | badStoredLen | badHuffmanTable | badCode | badOffset | lengthMismatch | busFault
  deriving DecidableEq, Repr

/-- CMD and the parameter registers (10_state.md R55 to R61); also what START captures (30_encoding.md
R170). -/
structure Params where
  cmd : Word
  srcAddr : Word
  srcLen : Word
  dstAddr : Word
  dstCap : Word
  count : Word
  value : Word
  valueHi : Word
  deriving DecidableEq, Repr

/-- The STATUS bits (10_state.md R54). -/
structure Status where
  busy : Bool
  done : Bool
  err : Bool
  recovered : Bool
  ignored : Bool
  deriving DecidableEq, Repr

/-- RESULT_LEN, RESULT_COUNT, RESULT_VAL, RESULT_VAL_HI and SRC_USED (10_state.md R62 to R65). -/
structure Results where
  len : Word
  count : Word
  val : Word
  valHi : Word
  used : Word
  deriving DecidableEq, Repr

/-- The bit-writer session (10_state.md R70). `bits` is in stream order. -/
structure BitWriter where
  active : Bool
  base : Word
  cap : Nat
  bitpos : Nat
  bits : List Bool
  settled : Nat
  deriving DecidableEq, Repr

/-- The bit-reader session (10_state.md R71). -/
structure BitReader where
  active : Bool
  base : Word
  len : Nat
  bitpos : Nat
  deriving DecidableEq, Repr

/-- The current run of an RLE decoder (10_state.md R72). -/
inductive RleRun where
  /-- No current run. -/
  | none
  /-- `remaining` values of `value` are left. -/
  | rep (remaining value : Nat)
  /-- `remaining` values are left; the data starts at byte `dataOff`; the next value is number `index`. -/
  | packed (remaining dataOff index : Nat)
  deriving DecidableEq, Repr

/-- The RLE-decoder session (10_state.md R72). -/
structure RleSession where
  active : Bool
  base : Word
  len : Nat
  w : Nat
  pos : Nat
  run : RleRun
  deriving DecidableEq, Repr

/-- One engine: the tuple of 10_state.md R78. -/
structure Engine where
  irqEn : Bool
  regs : Params
  latched : Option Params
  status : Status
  results : Results
  error : Word
  bw : BitWriter
  br : BitReader
  rle : RleSession
  deriving DecidableEq, Repr

/-- The addresses `lo .. hi-1`, whose bytes are the unspecified values drawn under `tag` (20_memory.md
R108). -/
structure Hole where
  lo : Nat
  hi : Nat
  tag : Nat
  deriving DecidableEq, Repr

/-- Buffer memory (20_memory.md R100). An address inside a hole reads as that hole's free byte; any
other address reads as its cell, and as 0 where no cell lists it. -/
structure Memory where
  cells : List Host.Cell
  holes : List Hole
  deriving DecidableEq, Repr

/-- A byte range `base .. base+len-1` (20_memory.md R104). -/
structure Extent where
  base : Nat
  len : Nat
  deriving DecidableEq, Repr

/-- The OPEN parameters of the platform (00_scope.md R9, R10). MEM_ACCESSIBLE holds at an address
exactly when no `blocked` range (from, to, the end not included) contains it. No step changes them. -/
structure Platform where
  engineBase : Nat
  blocked : List (Nat × Nat)
  deriving DecidableEq, Repr

/-- What the world outside the engine does in one step (00_scope.md R17; 60_exceptions.md R636, R637). -/
inductive Event where
  /-- The host does nothing, and the engine gets the step (30_encoding.md R191, `WAIT`). -/
  | engineTurn
  /-- The host turns to the engine at place `k` of `peers` (60_exceptions.md R637). -/
  | select (k : Nat)
  /-- The host writes `width` bytes at register address `addr` (10_state.md R51). -/
  | regWrite (addr width : Nat) (v : Word)
  /-- The host reads `width` bytes at register address `addr` (10_state.md R51). -/
  | regRead (addr width : Nat)
  /-- The host stores bytes to buffer memory (20_memory.md R130). -/
  | memStore (addr : Nat) (bytes : List Byte)
  /-- The host loads one byte of buffer memory (20_memory.md R130). -/
  | memLoad (addr : Nat)
  /-- The platform applies the reset input (70_reset_and_hazards.md R700). -/
  | resetPin
  deriving DecidableEq, Repr

/-- The whole machine. `engine` is the engine the host addresses. -/
structure State where
  /-- The addressed engine (10_state.md R78). -/
  engine : Engine
  /-- The other engines: `ENGINES` is one more than their number (00_scope.md R9). -/
  peers : List Engine
  /-- Buffer memory, shared by all agents (10_state.md R78). -/
  mem : Memory
  /-- ENGINE_BASE and MEM_ACCESSIBLE (00_scope.md R9). -/
  platform : Platform
  /-- The model's own: the actions of host and platform still to come, oldest first (log entry 2). -/
  inbox : List Event
  /-- The model's own: candidate outputs of the next compress commands (log entry 6). -/
  members : List (List Byte)
  /-- The model's own: how many free values were drawn (log entry 3). -/
  draws : Nat
  /-- The model's own: what the host's last read returned (log entry 7). -/
  hostData : Option Word
  deriving DecidableEq, Repr

/-- Why the machine stops with a fault. -/
inductive Fault where
  /-- Raised by a host load or store at an address at or above `2^32`, which does not exist
  (20_memory.md R100). Safe: the model stops. -/
  | noSuchAddress (addr : Nat)
  /-- Raised when the host turns to an engine that does not exist (60_exceptions.md R637). Safe: the
  model stops. -/
  | noSuchEngine (k : Nat)
  deriving DecidableEq, Repr

/-- Why the machine gives an input no meaning. -/
inductive Refusal where
  /-- An instruction without a meaning; no arm of this model raises it. Safe. -/
  | notModelled (mnemonic : String)
  /-- Raised by a register access that is not an aligned 32-bit access inside the block, which the
  spec puts outside the model (10_state.md R51). Safe: the model stops. -/
  | registerAccess (addr width : Nat)
  /-- Raised by a host that breaks the duty of this row of 70_reset_and_hazards.md R712, for which the
  model has no transition (20_memory.md R131). Unsafe by the spec's own word: a proof about the model
  says nothing about a host that breaks a duty. -/
  | hostDuty (row : Nat)
  deriving DecidableEq, Repr

/-- CMD and the parameter registers after reset (10_state.md R79). -/
def Params.reset : Params := ⟨0, 0, 0, 0, 0, 0, 0, 0⟩

/-- STATUS after reset (10_state.md R79). -/
def Status.reset : Status := ⟨false, false, false, false, false⟩

/-- The result registers after reset, and what START writes (10_state.md R79, 30_encoding.md R170). -/
def Results.zero : Results := ⟨0, 0, 0, 0, 0⟩

/-- An engine after reset (10_state.md R79, 70_reset_and_hazards.md R700). -/
def Engine.reset : Engine where
  irqEn := false
  regs := .reset
  latched := none
  status := .reset
  results := .zero
  error := 0
  bw := ⟨false, 0, 0, 0, [], 0⟩
  br := ⟨false, 0, 0, 0⟩
  rle := ⟨false, 0, 0, 0, 0, .none⟩

/-- The machine after reset (10_state.md R79). Buffer memory is unspecified everywhere: one hole of draw
0, nothing listed (log entry 3). The platform (log entry 4), the absence of other engines (log entry 5)
and the model's own fields (log entries 2, 3, 6, 7) are DESIGN CHOICES. -/
def State.reset : State where
  engine := .reset
  peers := []
  mem := ⟨[], [⟨0, Config.addrSpace, 0⟩]⟩
  platform := ⟨0, []⟩
  inbox := []
  members := []
  draws := 1
  hostData := none

end Sys2Proof.Machine
end

