-- ==== Sys2Proof/Machine/Bits.lean ====
section
/-! DEFINITION. The shared data formats of 20_memory.md: little-endian bytes (R101, R102), the
least-significant-bit-first stream (R121), bit-packing (R122, 40_bitpack.md R201), varints (R123, R124)
and zig-zag (R125). All are functions on byte lists and natural numbers. -/

namespace Sys2Proof.Machine

/-- The byte with the value `n mod 256`. -/
def byteOf (n : Nat) : Byte := BitVec.ofNat 8 n

/-- The `n` low bytes of `v`, least significant first (20_memory.md R101, R102). -/
def leBytes : Nat → Nat → List Byte
  | 0, _ => []
  | n + 1, v => byteOf v :: leBytes n (v / 256)

/-- The number whose little-endian bytes these are (20_memory.md R101). -/
def leValue : List Byte → Nat
  | [] => 0
  | b :: bs => b.toNat + 256 * leValue bs

/-- The first `n` little-endian elements of `e` bytes each (20_memory.md R102). -/
def leElems (e : Nat) : Nat → List Byte → List Nat
  | 0, _ => []
  | n + 1, bs => leValue (bs.take e) :: leElems e n (bs.drop e)

/-- Division rounded up (00_scope.md R12). -/
def ceilDiv (a b : Nat) : Nat := (a + b - 1) / b

/-- The bit length of a number (00_scope.md R12). -/
def bitLen (u : Nat) : Nat := if u = 0 then 0 else Nat.log2 u + 1

/-- Bit `k` of a bit stream (20_memory.md R121); a bit past the bytes is 0. -/
def bitAt (bs : List Byte) (k : Nat) : Bool := (bs.getD (k / 8) 0).getLsbD (k % 8)

/-- The `n` bits at stream position `p`, the first in bit 0 (20_memory.md R121). -/
def getBits (bs : List Byte) (p : Nat) : Nat → Nat
  | 0 => 0
  | n + 1 => (bitAt bs p).toNat + 2 * getBits bs (p + 1) n

/-- The low `n` bits of `v`, bit 0 first (20_memory.md R121). -/
def bitsOf : Nat → Nat → List Bool
  | 0, _ => []
  | n + 1, v => (v % 2 == 1) :: bitsOf n (v / 2)

/-- The number whose bit `j` is entry `j`. -/
def natOfBits : List Bool → Nat
  | [] => 0
  | b :: bs => b.toNat + 2 * natOfBits bs

/-- The first `n` bytes of a bit sequence, filled with 0 bits at its end (20_memory.md R121, R122). -/
def bytesOfBits : Nat → List Bool → List Byte
  | 0, _ => []
  | n + 1, bits => byteOf (natOfBits (bits.take 8)) :: bytesOfBits n (bits.drop 8)

/-- `pack_bits` (40_bitpack.md R201, 20_memory.md R122): each value cut to `w` bits, pad bits 0. -/
def packBits (w : Nat) (vs : List Nat) : List Byte :=
  bytesOfBits (ceilDiv (vs.length * w) 8) (vs.flatMap (bitsOf w))

/-- `unpack_bits` from stream position `p` on (40_bitpack.md R201, 20_memory.md R122). -/
def unpackBitsAt (bs : List Byte) (w : Nat) : Nat → Nat → List Nat
  | _, 0 => []
  | p, n + 1 => getBits bs p w :: unpackBitsAt bs w (p + w) n

/-- `unpack_bits` (40_bitpack.md R201): value `i` is the `w` bits at position `i*w`. -/
def unpackBits (bs : List Byte) (n w : Nat) : List Nat := unpackBitsAt bs w 0 n

/-- The shortest varint of `u` in at most `fuel + 1` bytes (20_memory.md R123). -/
def varintFrom : Nat → Nat → List Byte
  | 0, u => [byteOf u]
  | fuel + 1, u => if u < 128 then [byteOf u] else byteOf (128 + u % 128) :: varintFrom fuel (u / 128)

/-- The shortest varint of `u` (20_memory.md R123). Ten bytes hold every `u` below `2^64`. -/
def varint (u : Nat) : List Byte := varintFrom 9 u

/-- The loop of 20_memory.md R124: `left` bytes may still be read, `scale` is `128^k`. -/
def readVarintFrom (V : Nat) (inp : List Byte) : Nat → Nat → Nat → Nat → Except ErrorCode (Nat × Nat)
  | 0, _, _, _ => .error .badVarint
  | left + 1, scale, u, p =>
    match inp[p]? with
    | none => .error .truncated
    | some b =>
      let u' := u + b.toNat % 128 * scale
      if b.toNat < 128 then
        if 2 ^ V ≤ u' then .error .badVarint else .ok (u', p + 1)
      else readVarintFrom V inp left (scale * 128) u' (p + 1)

/-- The varint of width `V` at offset `p`: its value and the offset after it (20_memory.md R124). -/
def readVarint (V : Nat) (inp : List Byte) (p : Nat) : Except ErrorCode (Nat × Nat) :=
  readVarintFrom V inp (ceilDiv V 7) 1 0 p

/-- `signed_W` (00_scope.md R12). -/
def signedOf (W u : Nat) : Int := if u < 2 ^ (W - 1) then u else (u : Int) - 2 ^ W

/-- `unsigned_W` (00_scope.md R12). -/
def unsignedOf (W : Nat) (s : Int) : Nat := (s % 2 ^ W).toNat

/-- Zig-zag encoding of the `W`-bit pattern `u` (20_memory.md R125). -/
def zigzag (W u : Nat) : Nat :=
  (2 * u % 2 ^ W) ^^^ (if u < 2 ^ (W - 1) then 0 else 2 ^ W - 1)

/-- Zig-zag decoding to a `W`-bit pattern (20_memory.md R125). -/
def unzigzag (W u : Nat) : Nat := (u / 2) ^^^ (if u % 2 = 0 then 0 else 2 ^ W - 1)

end Sys2Proof.Machine
end

