-- ==== Sys2Proof/Machine/Flags.lean ====
section
/-! DEFINITION. The flag registers: STATUS, ERROR, SESSION and the interrupt output (10_state.md R54,
R66 to R68; 60_exceptions.md R602, R603, R610, R611, R620). The engine has no arithmetic flags
(10_state.md R76). -/

namespace Sys2Proof.Machine

/-- The error kinds of 60_exceptions.md R601: ARGUMENT 1, CAPACITY 2, MALFORMED 3, BUS 4. -/
def ErrorCode.kind : ErrorCode → Nat
  | .illegalOp | .reservedField | .badWidth | .badElemSize | .badLevel | .noSession | .rangeWrap
  | .srcShort | .overlap => 1
  | .dstTooSmall | .dstOverflow => 2
  | .truncated | .badVarint | .badHeader | .badWidthField | .badBlockType | .badStoredLen
  | .badHuffmanTable | .badCode | .badOffset | .lengthMismatch => 3
  | .busFault => 4

/-- The codes of 60_exceptions.md R603. -/
def ErrorCode.code : ErrorCode → Nat
  | .illegalOp => 1
  | .reservedField => 2
  | .badWidth => 3
  | .badElemSize => 4
  | .badLevel => 5
  | .noSession => 6
  | .rangeWrap => 7
  | .srcShort => 8
  | .overlap => 9
  | .dstTooSmall => 1
  | .dstOverflow => 2
  | .truncated => 1
  | .badVarint => 2
  | .badHeader => 3
  | .badWidthField => 4
  | .badBlockType => 5
  | .badStoredLen => 6
  | .badHuffmanTable => 7
  | .badCode => 8
  | .badOffset => 9
  | .lengthMismatch => 10
  | .busFault => 1

/-- The ERROR register's value, `KIND + 256*CODE` (60_exceptions.md R602). -/
def ErrorCode.value (e : ErrorCode) : Word := BitVec.ofNat 32 (e.kind + 256 * e.code)

/-- Whether the error leaves the destination extent unspecified: CAPACITY / DST_OVERFLOW or any
MALFORMED error (20_memory.md R107). -/
def ErrorCode.spoilsDst (e : ErrorCode) : Bool := e.kind == 3 || e == .dstOverflow

/-- A word with the given bits at positions 0 upward (00_scope.md R11). -/
def wordOfFlags : List Bool → Nat
  | [] => 0
  | b :: bs => b.toNat + 2 * wordOfFlags bs

/-- STATUS as the host reads it (10_state.md R54). -/
def Status.word (t : Status) : Word :=
  BitVec.ofNat 32 (wordOfFlags [t.busy, t.done, t.err, t.recovered, t.ignored])

/-- A host write to STATUS while idle: a 1 clears DONE, ERR, RECOVERED or IGNORED; BUSY and the reserved
bits ignore it (10_state.md R54). -/
def Status.writeOneToClear (t : Status) (v : Word) : Status :=
  { t with
    done := t.done && !v.getLsbD 1
    err := t.err && !v.getLsbD 2
    recovered := t.recovered && !v.getLsbD 3
    ignored := t.ignored && !v.getLsbD 4 }

/-- START: BUSY rises, DONE and ERR fall; RECOVERED and IGNORED stay (10_state.md R54, 30_encoding.md
R170). -/
def Status.start (t : Status) : Status := { t with busy := true, done := false, err := false }

/-- Completion: BUSY falls, DONE rises, ERR says whether an error was raised (60_exceptions.md R610). -/
def Status.complete (t : Status) (err : Bool) : Status := { t with busy := false, done := true, err := err }

/-- SESSION as the host reads it (10_state.md R68). -/
def Engine.sessionWord (e : Engine) : Word :=
  BitVec.ofNat 32 (wordOfFlags [e.bw.active, e.br.active, e.rle.active])

/-- BW_BITPOS (10_state.md R67). -/
def Engine.bwBitpos (e : Engine) : Word := if e.bw.active then BitVec.ofNat 32 e.bw.bitpos else 0

/-- BR_BITPOS (10_state.md R67). -/
def Engine.brBitpos (e : Engine) : Word := if e.br.active then BitVec.ofNat 32 e.br.bitpos else 0

/-- The interrupt output, `STATUS.DONE and CTRL.IRQ_EN` (60_exceptions.md R620). -/
def Engine.irq (e : Engine) : Bool := e.status.done && e.irqEn

end Sys2Proof.Machine
end

