-- ==== Sys2Proof/Syntax.lean ====
section
/-! DEFINITION. The 34 commands of 30_encoding.md R155, one constructor per row of the opcode table. A
constructor carries the raw field A (8 bits) or L (4 bits) the command uses (R152, R153); the legal
ranges are checked by the machine (R158), not by the decoder. -/

namespace Sys2Proof

/-- A command of the engine. -/
inductive Instr where
  /-- PACK8: OP 0x01, A = w 0..32 (40_bitpack.md R210). -/
  | pack8 (w : BitVec 8)
  /-- UNPACK8: OP 0x02, A = w 0..32 (40_bitpack.md R211). -/
  | unpack8 (w : BitVec 8)
  /-- PACK_BULK: OP 0x03, A = w 0..32 (40_bitpack.md R212). -/
  | packBulk (w : BitVec 8)
  /-- UNPACK_BULK: OP 0x04, A = w 0..32 (40_bitpack.md R213). -/
  | unpackBulk (w : BitVec 8)
  /-- BW_INIT: OP 0x08 (40_bitpack.md R220). -/
  | bwInit
  /-- BW_PUT_BIT: OP 0x09 (40_bitpack.md R221). -/
  | bwPutBit
  /-- BW_PUT: OP 0x0A, A = n 0..32 (40_bitpack.md R222). -/
  | bwPut (n : BitVec 8)
  /-- BW_PUT64: OP 0x0B, A = n 0..64 (40_bitpack.md R223). -/
  | bwPut64 (n : BitVec 8)
  /-- BW_FLUSH: OP 0x0C (40_bitpack.md R225). -/
  | bwFlush
  /-- BR_INIT: OP 0x10 (40_bitpack.md R230). -/
  | brInit
  /-- BR_GET_BIT: OP 0x11 (40_bitpack.md R233). -/
  | brGetBit
  /-- BR_GET: OP 0x12, A = n 0..32 (40_bitpack.md R234). -/
  | brGet (n : BitVec 8)
  /-- BR_GET64: OP 0x13, A = n 0..64 (40_bitpack.md R235). -/
  | brGet64 (n : BitVec 8)
  /-- RLE_ENC: OP 0x20, A = w 0..32 (41_rle.md R270). -/
  | rleEnc (w : BitVec 8)
  /-- RLE_DEC_INIT: OP 0x21, A = w 0..32 (41_rle.md R280). -/
  | rleDecInit (w : BitVec 8)
  /-- RLE_DEC_GET: OP 0x22 (41_rle.md R284). -/
  | rleDecGet
  /-- RLE_DEC_BATCH: OP 0x23 (41_rle.md R285). -/
  | rleDecBatch
  /-- RLE_DEC_SKIP: OP 0x24 (41_rle.md R286). -/
  | rleDecSkip
  /-- RLE_DEC_LEVELS16: OP 0x25, A = w 0..16 (41_rle.md R287). -/
  | rleDecLevels16 (w : BitVec 8)
  /-- DELTA_ENC_I32: OP 0x30 (42_delta.md R330). -/
  | deltaEncI32
  /-- DELTA_ENC_I64: OP 0x31 (42_delta.md R331). -/
  | deltaEncI64
  /-- DELTA_DEC_I32: OP 0x32 (42_delta.md R340). -/
  | deltaDecI32
  /-- DELTA_DEC_I64: OP 0x33 (42_delta.md R341). -/
  | deltaDecI64
  /-- BSS_ENC: OP 0x38, A = S 1..255 (43_transpose.md R372). -/
  | bssEnc (s : BitVec 8)
  /-- BSS_DEC: OP 0x39, A = S 1..255 (43_transpose.md R373). -/
  | bssDec (s : BitVec 8)
  /-- DEFLATE_COMPRESS: OP 0x40, L = level 0..9 (44_deflate.md R460). -/
  | deflateCompress (level : BitVec 4)
  /-- DEFLATE_DECOMPRESS: OP 0x41 (44_deflate.md R430). -/
  | deflateDecompress
  /-- DEFLATE_BOUND: OP 0x42 (44_deflate.md R462). -/
  | deflateBound
  /-- LZ4_COMPRESS: OP 0x44, L = ignored 0..15 (45_lz4.md R500). -/
  | lz4Compress (level : BitVec 4)
  /-- LZ4_DECOMPRESS: OP 0x45 (45_lz4.md R510). -/
  | lz4Decompress
  /-- LZ4_BOUND: OP 0x46 (45_lz4.md R502). -/
  | lz4Bound
  /-- SNAPPY_COMPRESS: OP 0x48, L = ignored 0..15 (46_snappy.md R550). -/
  | snappyCompress (level : BitVec 4)
  /-- SNAPPY_DECOMPRESS: OP 0x49 (46_snappy.md R560). -/
  | snappyDecompress
  /-- SNAPPY_BOUND: OP 0x4A (46_snappy.md R552). -/
  | snappyBound
  deriving DecidableEq, Repr

end Sys2Proof
end

