-- ==== Sys2Proof/WellFormed.lean ====
section
/-! DEFINITION. Which commands have every used field in its legal range (30_encoding.md R155, R158). -/

namespace Sys2Proof

/-- The used field is in the legal range of 30_encoding.md R155. -/
def Instr.wellFormed : Instr → Bool
  | .pack8 w => w.toNat ≤ 32
  | .unpack8 w => w.toNat ≤ 32
  | .packBulk w => w.toNat ≤ 32
  | .unpackBulk w => w.toNat ≤ 32
  | .bwInit => true
  | .bwPutBit => true
  | .bwPut n => n.toNat ≤ 32
  | .bwPut64 n => n.toNat ≤ 64
  | .bwFlush => true
  | .brInit => true
  | .brGetBit => true
  | .brGet n => n.toNat ≤ 32
  | .brGet64 n => n.toNat ≤ 64
  | .rleEnc w => w.toNat ≤ 32
  | .rleDecInit w => w.toNat ≤ 32
  | .rleDecGet => true
  | .rleDecBatch => true
  | .rleDecSkip => true
  | .rleDecLevels16 w => w.toNat ≤ 16
  | .deltaEncI32 => true
  | .deltaEncI64 => true
  | .deltaDecI32 => true
  | .deltaDecI64 => true
  | .bssEnc s => 1 ≤ s.toNat
  | .bssDec s => 1 ≤ s.toNat
  | .deflateCompress level => level.toNat ≤ 9
  | .deflateDecompress => true
  | .deflateBound => true
  | .lz4Compress _ => true
  | .lz4Decompress => true
  | .lz4Bound => true
  | .snappyCompress _ => true
  | .snappyDecompress => true
  | .snappyBound => true

end Sys2Proof
end

