-- ==== Sys2Proof/Decode.lean ====
section
/-! DEFINITION. The command word (30_encoding.md R150): decoding, steps 1 and 2 of the checks phase
(R156, R157, R170), and encoding (R192). -/

namespace Sys2Proof

/-- Why a command word stands for no command. -/
inductive DecodeError where
  /-- OP is not in the opcode map (30_encoding.md R156). -/
  | illegalOp
  /-- RSV, or a field the opcode does not use, is not 0 (30_encoding.md R157). -/
  | reservedField
  deriving DecidableEq, Repr

/-- OP, bits 7:0 (30_encoding.md R150). -/
def fieldOp (cmd : Word) : BitVec 8 := cmd.extractLsb' 0 8

/-- A, bits 15:8 (30_encoding.md R150, R152). -/
def fieldA (cmd : Word) : BitVec 8 := cmd.extractLsb' 8 8

/-- L, bits 19:16 (30_encoding.md R150, R153). -/
def fieldL (cmd : Word) : BitVec 4 := cmd.extractLsb' 16 4

/-- RSV, bits 31:20 (30_encoding.md R150). -/
def fieldRsv (cmd : Word) : BitVec 12 := cmd.extractLsb' 20 12

/-- An opcode that uses neither A nor L: both, and RSV, must be 0 (30_encoding.md R157). -/
def useNone (cmd : Word) (i : Instr) : Except DecodeError Instr :=
  if fieldRsv cmd = 0 ∧ fieldA cmd = 0 ∧ fieldL cmd = 0 then .ok i else .error .reservedField

/-- An opcode that uses A: L and RSV must be 0 (30_encoding.md R157). -/
def useA (cmd : Word) (i : Instr) : Except DecodeError Instr :=
  if fieldRsv cmd = 0 ∧ fieldL cmd = 0 then .ok i else .error .reservedField

/-- An opcode that uses L: A and RSV must be 0 (30_encoding.md R157). -/
def useL (cmd : Word) (i : Instr) : Except DecodeError Instr :=
  if fieldRsv cmd = 0 ∧ fieldA cmd = 0 then .ok i else .error .reservedField

/-- The command a word stands for: the opcode map of 30_encoding.md R155, then the reserved fields of
R157. Every other OP is illegal (R156). -/
def decode (cmd : Word) : Except DecodeError Instr :=
  match (fieldOp cmd).toNat with
  | 0x01 => useA cmd (.pack8 (fieldA cmd))
  | 0x02 => useA cmd (.unpack8 (fieldA cmd))
  | 0x03 => useA cmd (.packBulk (fieldA cmd))
  | 0x04 => useA cmd (.unpackBulk (fieldA cmd))
  | 0x08 => useNone cmd .bwInit
  | 0x09 => useNone cmd .bwPutBit
  | 0x0A => useA cmd (.bwPut (fieldA cmd))
  | 0x0B => useA cmd (.bwPut64 (fieldA cmd))
  | 0x0C => useNone cmd .bwFlush
  | 0x10 => useNone cmd .brInit
  | 0x11 => useNone cmd .brGetBit
  | 0x12 => useA cmd (.brGet (fieldA cmd))
  | 0x13 => useA cmd (.brGet64 (fieldA cmd))
  | 0x20 => useA cmd (.rleEnc (fieldA cmd))
  | 0x21 => useA cmd (.rleDecInit (fieldA cmd))
  | 0x22 => useNone cmd .rleDecGet
  | 0x23 => useNone cmd .rleDecBatch
  | 0x24 => useNone cmd .rleDecSkip
  | 0x25 => useA cmd (.rleDecLevels16 (fieldA cmd))
  | 0x30 => useNone cmd .deltaEncI32
  | 0x31 => useNone cmd .deltaEncI64
  | 0x32 => useNone cmd .deltaDecI32
  | 0x33 => useNone cmd .deltaDecI64
  | 0x38 => useA cmd (.bssEnc (fieldA cmd))
  | 0x39 => useA cmd (.bssDec (fieldA cmd))
  | 0x40 => useL cmd (.deflateCompress (fieldL cmd))
  | 0x41 => useNone cmd .deflateDecompress
  | 0x42 => useNone cmd .deflateBound
  | 0x44 => useL cmd (.lz4Compress (fieldL cmd))
  | 0x45 => useNone cmd .lz4Decompress
  | 0x46 => useNone cmd .lz4Bound
  | 0x48 => useL cmd (.snappyCompress (fieldL cmd))
  | 0x49 => useNone cmd .snappyDecompress
  | 0x4A => useNone cmd .snappyBound
  | _ => .error .illegalOp

/-- The word with the fields RSV = 0, L, A and OP (30_encoding.md R150, R192). -/
def assemble (op a : BitVec 8) (l : BitVec 4) : Word := 0#12 ++ l ++ a ++ op

/-- The word of a command: `OP + 256*A + 65536*L` (30_encoding.md R192). -/
def encode : Instr → Word
  | .pack8 w => assemble 0x01 w 0
  | .unpack8 w => assemble 0x02 w 0
  | .packBulk w => assemble 0x03 w 0
  | .unpackBulk w => assemble 0x04 w 0
  | .bwInit => assemble 0x08 0 0
  | .bwPutBit => assemble 0x09 0 0
  | .bwPut n => assemble 0x0A n 0
  | .bwPut64 n => assemble 0x0B n 0
  | .bwFlush => assemble 0x0C 0 0
  | .brInit => assemble 0x10 0 0
  | .brGetBit => assemble 0x11 0 0
  | .brGet n => assemble 0x12 n 0
  | .brGet64 n => assemble 0x13 n 0
  | .rleEnc w => assemble 0x20 w 0
  | .rleDecInit w => assemble 0x21 w 0
  | .rleDecGet => assemble 0x22 0 0
  | .rleDecBatch => assemble 0x23 0 0
  | .rleDecSkip => assemble 0x24 0 0
  | .rleDecLevels16 w => assemble 0x25 w 0
  | .deltaEncI32 => assemble 0x30 0 0
  | .deltaEncI64 => assemble 0x31 0 0
  | .deltaDecI32 => assemble 0x32 0 0
  | .deltaDecI64 => assemble 0x33 0 0
  | .bssEnc s => assemble 0x38 s 0
  | .bssDec s => assemble 0x39 s 0
  | .deflateCompress level => assemble 0x40 0 level
  | .deflateDecompress => assemble 0x41 0 0
  | .deflateBound => assemble 0x42 0 0
  | .lz4Compress level => assemble 0x44 0 level
  | .lz4Decompress => assemble 0x45 0 0
  | .lz4Bound => assemble 0x46 0 0
  | .snappyCompress level => assemble 0x48 0 level
  | .snappyDecompress => assemble 0x49 0 0
  | .snappyBound => assemble 0x4A 0 0

/-- The command of a table row's bits: the CMD register is one 32-bit word (30_encoding.md R151), so the
bits above `nbits` are 0 and a longer row is none. -/
def decodeTableWord (nbits w : Nat) : Option Instr :=
  if nbits ≤ 32 then
    match decode (BitVec.ofNat 32 (w % 2 ^ nbits)) with
    | .ok i => some i
    | .error _ => none
  else none

end Sys2Proof
end

