-- ==== Sys2Proof/Machine/Operands.lean ====
section
/-! DEFINITION. The operands of a command: the captured registers (30_encoding.md R154, R170), the legal
ranges of A and L (R158), and the extents (20_memory.md R104, 30_encoding.md R160). -/

namespace Sys2Proof.Machine

/-- The registers a running command reads: those captured at START (30_encoding.md R170). On an engine
that is not running a command they are the registers themselves (log entry 11). -/
def Engine.operands (e : Engine) : Params := e.latched.getD e.regs

/-- The captured registers of the addressed engine (30_encoding.md R170). -/
def State.operands (s : State) : Params := s.engine.operands

/-- `[SRC_ADDR, SRC_ADDR + SRC_LEN)` (20_memory.md R104). -/
def Params.src (p : Params) : Extent := ⟨p.srcAddr.toNat, p.srcLen.toNat⟩

/-- `[DST_ADDR, DST_ADDR + DST_CAP)` (20_memory.md R104). -/
def Params.dst (p : Params) : Extent := ⟨p.dstAddr.toNat, p.dstCap.toNat⟩

/-- `VALUE64` (30_encoding.md R154). -/
def Params.value64 (p : Params) : Nat := p.valueHi.toNat * 2 ^ 32 + p.value.toNat

/-- The bit writer's extent `[base, base + cap)` (20_memory.md R104). -/
def BitWriter.extent (x : BitWriter) : Extent := ⟨x.base.toNat, x.cap⟩

/-- The bytes of the bit writer's extent that are not settled (40_bitpack.md R224). -/
def BitWriter.unsettled (x : BitWriter) : Extent := ⟨x.base.toNat + x.settled, x.cap - x.settled⟩

/-- The bit reader's extent `[base, base + len)` (20_memory.md R104). -/
def BitReader.extent (x : BitReader) : Extent := ⟨x.base.toNat, x.len⟩

/-- The RLE decoder's extent `[base, base + len)` (20_memory.md R104). -/
def RleSession.extent (x : RleSession) : Extent := ⟨x.base.toNat, x.len⟩

/-- Whether address `a` lies in the extent. -/
def Extent.contains (x : Extent) (a : Nat) : Bool := decide (x.base ≤ a) && decide (a < x.base + x.len)

/-- An extent is well-formed when it ends at or below `2^32` (20_memory.md R105). -/
def Extent.inSpace (x : Extent) : Bool := decide (x.base + x.len ≤ Config.addrSpace)

/-- Two extents overlap when both are non-empty and they share an address (20_memory.md R105). -/
def Extent.overlaps (x y : Extent) : Bool :=
  decide (0 < x.len) && decide (0 < y.len) && decide (x.base < y.base + y.len) && decide (y.base < x.base + x.len)

/-- MEM_ACCESSIBLE (00_scope.md R9, 20_memory.md R100). -/
def Platform.accessible (p : Platform) (a : Nat) : Bool :=
  p.blocked.all fun r => !(decide (r.1 ≤ a) && decide (a < r.2))

/-- Every byte of the extent is MEM_ACCESSIBLE (20_memory.md R105): no blocked range meets it. -/
def Platform.reaches (p : Platform) (x : Extent) : Bool :=
  p.blocked.all fun r => !(x.overlaps ⟨r.1, r.2 - r.1⟩)

/-- A bit width or bit count above its limit is BAD_WIDTH (30_encoding.md R158). -/
def widthError (limit : Nat) (a : BitVec 8) : Option ErrorCode :=
  if limit < a.toNat then some .badWidth else none

/-- A byte-transpose element size of 0 is BAD_ELEM_SIZE (30_encoding.md R158). -/
def elemError (s : BitVec 8) : Option ErrorCode := if s.toNat = 0 then some .badElemSize else none

/-- A DEFLATE level above 9 is BAD_LEVEL (30_encoding.md R158). -/
def levelError (level : BitVec 4) : Option ErrorCode := if 9 < level.toNat then some .badLevel else none

/-- The source extent of a command (30_encoding.md R160, column `src`). DESIGN CHOICE (log entry 23): a
command of the bit reader or the RLE decoder whose session is not active has none, whatever an ended
session left in its record. -/
def srcExtent (e : Engine) : Instr → Option Extent
  | .pack8 _ | .unpack8 _ | .packBulk _ | .unpackBulk _ | .brInit | .rleEnc _ | .rleDecInit _
  | .rleDecLevels16 _ | .deltaEncI32 | .deltaEncI64 | .deltaDecI32 | .deltaDecI64 | .bssEnc _
  | .bssDec _ | .deflateCompress _ | .deflateDecompress | .lz4Compress _ | .lz4Decompress
  | .snappyCompress _ | .snappyDecompress => some e.operands.src
  | .brGetBit | .brGet _ | .brGet64 _ => if e.br.active then some e.br.extent else none
  | .rleDecGet | .rleDecBatch | .rleDecSkip => if e.rle.active then some e.rle.extent else none
  | .bwInit | .bwPutBit | .bwPut _ | .bwPut64 _ | .bwFlush | .deflateBound | .lz4Bound
  | .snappyBound => none

/-- The destination extent of a command (30_encoding.md R160, column `dst`). -/
def dstExtent (e : Engine) : Instr → Option Extent
  | .pack8 _ | .unpack8 _ | .packBulk _ | .unpackBulk _ | .bwInit | .rleEnc _ | .rleDecBatch
  | .rleDecLevels16 _ | .deltaEncI32 | .deltaEncI64 | .deltaDecI32 | .deltaDecI64 | .bssEnc _
  | .bssDec _ | .deflateCompress _ | .deflateDecompress | .lz4Compress _ | .lz4Decompress
  | .snappyCompress _ | .snappyDecompress => some e.operands.dst
  | .bwPutBit | .bwPut _ | .bwPut64 _ | .bwFlush => some e.bw.extent
  | .brInit | .brGetBit | .brGet _ | .brGet64 _ | .rleDecInit _ | .rleDecGet | .rleDecSkip
  | .deflateBound | .lz4Bound | .snappyBound => none

/-- What a reset during the command leaves unspecified: its destination extent, and for a bit-writer
put or flush the unsettled bytes of the session's extent (70_reset_and_hazards.md R701). -/
def cutExtent (e : Engine) : Instr → Option Extent
  | .bwPutBit | .bwPut _ | .bwPut64 _ | .bwFlush => some e.bw.unsettled
  | i => dstExtent e i

/-- The command an engine is running, where its captured word stands for one (30_encoding.md R170). -/
def Engine.running (e : Engine) : Option Instr :=
  if e.status.busy then
    match decode e.operands.cmd with
    | .ok i => some i
    | .error _ => none
  else none

/-- The source extent of the command an engine is running (20_memory.md R131). -/
def Engine.busySrc (e : Engine) : Option Extent := e.running.bind (srcExtent e)

/-- The destination extent of the command an engine is running (20_memory.md R131). -/
def Engine.busyDst (e : Engine) : Option Extent := e.running.bind (dstExtent e)

end Sys2Proof.Machine
end

