-- ==== Sys2Proof/Machine/Ops.lean ====
section
/-! DEFINITION. The shared operations: buffer memory (20_memory.md R100, R101, R107, R108), the checks
phase (30_encoding.md R170), START (R170), the two ends of a command (60_exceptions.md R602, R610) and
the reset input (70_reset_and_hazards.md R700, R701). -/

namespace Sys2Proof.Machine

/-! ### Buffer memory -/

/-- The hole that contains the address, if one does. -/
def holeAt (a : Nat) : List Hole → Option Hole
  | [] => none
  | h :: hs => if h.lo ≤ a ∧ a < h.hi then some h else holeAt a hs

/-- The byte listed for the address; an unlisted address reads as 0. -/
def cellAt (a : Nat) : List Host.Cell → Byte
  | [] => 0
  | c :: cs => if c.1 = a then c.2 else cellAt a cs

/-- One byte of buffer memory (20_memory.md R101). A byte of a hole is a free value (R108). -/
def Memory.read (m : Memory) (a : Nat) : Byte :=
  match holeAt a m.holes with
  | some h => Config.freeByte h.tag a
  | none => cellAt a m.cells

/-- Put one cell into a rising list. -/
def insertCell (c : Host.Cell) : List Host.Cell → List Host.Cell
  | [] => [c]
  | d :: ds => if c.1 < d.1 then c :: d :: ds else d :: insertCell c ds

/-- List the byte at the address; the byte an unlisted address reads as is not listed. -/
def setCell (a : Nat) (b : Byte) (cs : List Host.Cell) : List Host.Cell :=
  let rest := cs.filter fun c => c.1 != a
  if b = 0 then rest else insertCell (a, b) rest

/-- The hole over `lo .. hi-1`, or nothing where that range is empty. -/
def clipHole (lo hi tag : Nat) : List Hole := if lo < hi then [⟨lo, hi, tag⟩] else []

/-- Take the addresses `lo .. hi-1` out of every hole. -/
def punch (lo hi : Nat) : List Hole → List Hole
  | [] => []
  | h :: hs => clipHole h.lo (min h.hi lo) h.tag ++ clipHole (max h.lo hi) h.hi h.tag ++ punch lo hi hs

/-- Put one hole into a rising list. -/
def insertHole (h : Hole) : List Hole → List Hole
  | [] => [h]
  | g :: gs => if h.lo < g.lo then h :: g :: gs else g :: insertHole h gs

/-- Store one byte (20_memory.md R101). -/
def Memory.write (m : Memory) (a : Nat) (b : Byte) : Memory :=
  ⟨setCell a b m.cells, punch a (a + 1) m.holes⟩

/-- Store bytes from address `a` upward (20_memory.md R101). -/
def Memory.writeBytes (m : Memory) (a : Nat) : List Byte → Memory
  | [] => m
  | b :: bs => (m.write a b).writeBytes (a + 1) bs

/-- Make the bytes at `lo .. hi-1` unspecified: they become the free values of draw `tag` (20_memory.md
R107, R108). -/
def Memory.scramble (m : Memory) (lo hi tag : Nat) : Memory :=
  if lo < hi then
    ⟨m.cells.filter fun c => decide (c.1 < lo) || decide (hi ≤ c.1), insertHole ⟨lo, hi, tag⟩ (punch lo hi m.holes)⟩
  else m

/-- The `n` bytes from address `a` upward (00_scope.md R13, `MemBytes`). -/
def Memory.readBytes (m : Memory) (a : Nat) : Nat → List Byte
  | 0 => []
  | n + 1 => m.read a :: m.readBytes (a + 1) n

/-- The canonical form: cells strictly rising, none equal to 0, none inside a hole; holes non-empty and
rising without overlap. -/
abbrev Memory.wf (m : Memory) : Prop :=
  m.cells.Pairwise (fun c d => c.1 < d.1) ∧ (∀ c ∈ m.cells, c.2 ≠ 0) ∧
    (∀ c ∈ m.cells, ∀ h ∈ m.holes, c.1 < h.lo ∨ h.hi ≤ c.1) ∧
    (∀ h ∈ m.holes, h.lo < h.hi) ∧ m.holes.Pairwise (fun g h => g.hi ≤ h.lo)

/-- The bytes of an extent (20_memory.md R109). -/
def State.bytesOf (s : State) (x : Extent) : List Byte := s.mem.readBytes x.base x.len

/-! ### The checks phase -/

/-- What one command asks of the checks phase, steps 3 to 9 (30_encoding.md R160, R170). A part a
command does not have keeps its default, which passes. -/
structure Demand where
  /-- Step 3: the error of the used field. -/
  field : Option ErrorCode := none
  /-- Step 4: the required session is active. -/
  session : Bool := true
  /-- Steps 5 and 8: the extents the command declares. -/
  extents : List Extent := []
  /-- Step 5: the computed sizes, each of which must be below `2^32`. -/
  sizes : List Nat := []
  /-- Step 5: the session sizes, each of which must be below `2^29`. -/
  sessionSizes : List Nat := []
  /-- Step 6: SRC_LEN. -/
  srcLen : Nat := 0
  /-- Step 6: the bytes the command must read. -/
  needSrc : Nat := 0
  /-- Step 7: the source and destination extents, where it has both. -/
  pairs : List (Extent × Extent) := []
  /-- Step 9: the room there is. -/
  room : Nat := 0
  /-- Step 9: the room the output takes, where it is known before execution. -/
  needRoom : Nat := 0

/-- Steps 3 to 9 of the checks phase: the first check that fails gives the error (30_encoding.md R170,
60_exceptions.md R605). -/
def checksPhase (p : Platform) (d : Demand) : Option ErrorCode :=
  match d.field with
  | some e => some e
  | none =>
    if !d.session then some .noSession
    else if !(d.extents.all Extent.inSpace && d.sizes.all (fun n => decide (n < 2 ^ 32)) &&
        d.sessionSizes.all (fun n => decide (n < Config.sessionLimit))) then some .rangeWrap
    else if d.srcLen < d.needSrc then some .srcShort
    else if d.pairs.any (fun x => x.1.overlaps x.2) then some .overlap
    else if !(d.extents.all p.reaches) then some .busFault
    else if d.room < d.needRoom then some .dstTooSmall
    else none

/-! ### START and the two ends of a command -/

/-- START on one engine: capture the registers, raise BUSY, clear DONE, ERR, ERROR and the results
(30_encoding.md R170). -/
def Engine.start (e : Engine) (irqEn : Bool) : Engine :=
  { e with irqEn := irqEn, latched := some e.regs, status := e.status.start, error := 0, results := .zero }

/-- START on the addressed engine (30_encoding.md R170). -/
def State.start (s : State) (irqEn : Bool) : State := { s with engine := s.engine.start irqEn }

/-- The unspecified result registers of a failed command (60_exceptions.md R613): five free words. -/
def freeResults (d : Nat) : Results :=
  ⟨Config.freeWord d, Config.freeWord (d + 1), Config.freeWord (d + 2), Config.freeWord (d + 3), Config.freeWord (d + 4)⟩

/-- `done`: a command completes without error (60_exceptions.md R610). -/
def succeed (s : State) : State :=
  { s with engine := { s.engine with latched := none, status := s.engine.status.complete false } }

/-- `raise Error(KIND, CODE)`: a command ends with an error (60_exceptions.md R602, R610, R613).
ERROR takes the code's value, the results become unspecified, and so does the destination extent `dst`
where the error is one of the execute phase (20_memory.md R107). -/
def raise (e : ErrorCode) (dst : Extent) (s : State) : State :=
  { s with
    engine := { s.engine with
      latched := none
      status := s.engine.status.complete true
      error := e.value
      results := freeResults s.draws }
    mem := if e.spoilsDst then s.mem.scramble dst.base (dst.base + dst.len) s.draws else s.mem
    draws := s.draws + 5 }

/-- A command whose output is the byte stream `out`: each byte is emitted to the destination, and an
output longer than the destination is CAPACITY / DST_OVERFLOW (20_memory.md R120). On success
RESULT_LEN is the length, and the rest of the destination becomes unspecified (R107). -/
def deliver (dst : Extent) (out : List Byte) (r : Results) (s : State) : State :=
  if dst.len < out.length then raise .dstOverflow dst s
  else
    succeed { s with
      engine := { s.engine with results := { r with len := BitVec.ofNat 32 out.length } }
      mem := (s.mem.writeBytes dst.base out).scramble (dst.base + out.length) (dst.base + dst.len) s.draws
      draws := s.draws + 1 }

/-- Run one command: the checks phase, then the execute phase `body` (30_encoding.md R170, R171). An
error of the checks phase writes no memory (20_memory.md R107). -/
def runCommand (d : Demand) (s : State) (body : State → State) : Host.Outcome State Fault Refusal :=
  match checksPhase s.platform d with
  | some e => .next (raise e ⟨0, 0⟩ s)
  | none => .next (body s)

/-- The error of a command word that stands for no command (30_encoding.md R156, R157; 60_exceptions.md
R612). -/
def decodeErrorCode : DecodeError → ErrorCode
  | .illegalOp => .illegalOp
  | .reservedField => .reservedField

/-- Steps 1 and 2 of the checks phase fail (30_encoding.md R170, 60_exceptions.md R612). -/
def rejectWord (e : DecodeError) (s : State) : State := raise (decodeErrorCode e) ⟨0, 0⟩ s

/-- What the captured command word stands for (30_encoding.md R170). -/
def fetch (s : State) : Except DecodeError Instr := decode s.operands.cmd

/-! ### The reset input -/

/-- The part of an extent inside the address space. -/
def Extent.clip (x : Extent) : Extent := ⟨x.base, min x.len (Config.addrSpace - x.base)⟩

/-- Reset of the addressed engine (70_reset_and_hazards.md R700): every register and session takes its
reset value, and a running command's destination extent becomes unspecified (R701; log entry 16). Buffer
memory is not written otherwise. DESIGN CHOICE (log entry 24): where the command's source and destination
share bytes, the shared bytes become unspecified too. -/
def applyReset (s : State) : State :=
  match s.engine.running.bind (cutExtent s.engine) with
  | none => { s with engine := .reset }
  | some x =>
    { s with
      engine := .reset
      mem := s.mem.scramble x.clip.base (x.clip.base + x.clip.len) s.draws
      draws := s.draws + 1 }

end Sys2Proof.Machine
end

