-- ==== Sys2Proof/Machine/Bitpack.lean ====
section
/-! DEFINITION. The bit primitives of 40_bitpack.md: group and bulk packing, the bit writer and the bit
reader. -/

namespace Sys2Proof.Machine

/-- The checks of a one-shot command with the source extent R and the destination extent D
(30_encoding.md R160, R170): `sizes` are its computed sizes, `needSrc` and `needDst` its needs. -/
def oneShot (p : Params) (field : Option ErrorCode) (sizes : List Nat) (needSrc needDst : Nat) : Demand :=
  { field := field, extents := [p.src, p.dst], sizes := sizes, srcLen := p.srcLen.toNat, needSrc := needSrc
    pairs := [(p.src, p.dst)], room := p.dstCap.toNat, needRoom := needDst }

/-- The first `n` little-endian elements of `e` bytes in the source (20_memory.md R102). -/
def sourceElems (s : State) (p : Params) (e n : Nat) : List Nat :=
  leElems e n (s.mem.readBytes p.src.base (e * n))

/-- Results of a command that used `used` source bytes and counted `count` values (30_encoding.md R160). -/
def Results.counted (r : Results) (used count : Nat) : Results :=
  { r with used := BitVec.ofNat 32 used, count := BitVec.ofNat 32 count }

/-- Pack `n` values at width `w` (40_bitpack.md R210, R212). -/
def packValues (w n : Nat) (s : State) : State :=
  deliver s.operands.dst (packBits w (sourceElems s s.operands 4 n)) (s.engine.results.counted (4 * n) n) s

/-- Unpack `n` values at width `w` from the `m` source bytes that hold them (40_bitpack.md R211, R213). -/
def unpackValues (w n m : Nat) (s : State) : State :=
  deliver s.operands.dst
    ((unpackBits (s.mem.readBytes s.operands.src.base m) n w).flatMap (leBytes 4))
    (s.engine.results.counted m n) s

/-- PACK8 (40_bitpack.md R210). -/
def execPack8 (w : BitVec 8) (s : State) : Host.Outcome State Fault Refusal :=
  runCommand (oneShot s.operands (widthError 32 w) [] 32 w.toNat) s (packValues w.toNat 8)

/-- UNPACK8 (40_bitpack.md R211). -/
def execUnpack8 (w : BitVec 8) (s : State) : Host.Outcome State Fault Refusal :=
  runCommand (oneShot s.operands (widthError 32 w) [] w.toNat 32) s (unpackValues w.toNat 8 w.toNat)

/-- PACK_BULK (40_bitpack.md R212). -/
def execPackBulk (w : BitVec 8) (s : State) : Host.Outcome State Fault Refusal :=
  let n := s.operands.count.toNat
  runCommand (oneShot s.operands (widthError 32 w) [4 * n] (4 * n) (ceilDiv (n * w.toNat) 8)) s
    (packValues w.toNat n)

/-- UNPACK_BULK (40_bitpack.md R213). -/
def execUnpackBulk (w : BitVec 8) (s : State) : Host.Outcome State Fault Refusal :=
  let n := s.operands.count.toNat
  let m := ceilDiv (n * w.toNat) 8
  runCommand (oneShot s.operands (widthError 32 w) [4 * n] m (4 * n)) s (unpackValues w.toNat n m)

/-! ### The bit writer -/

/-- Everything of the session's extent that is not settled becomes unspecified (40_bitpack.md R224,
70_reset_and_hazards.md R713). -/
def unsettle (s : State) : State :=
  let x := s.engine.bw.unsettled
  { s with mem := s.mem.scramble x.base (x.base + x.len) s.draws, draws := s.draws + 1 }

/-- BW_INIT (40_bitpack.md R220). -/
def execBwInit (s : State) : Host.Outcome State Fault Refusal :=
  let p := s.operands
  runCommand { extents := [p.dst], sessionSizes := [p.dstCap.toNat] } s fun s =>
    succeed (unsettle { s with engine.bw := ⟨true, p.dstAddr, p.dstCap.toNat, 0, [], 0⟩ })

/-- The bit-writer session after `n` bits of `v` (40_bitpack.md R222). -/
def BitWriter.put (x : BitWriter) (n v : Nat) : BitWriter :=
  { x with bitpos := x.bitpos + n, bits := x.bits ++ bitsOf n v }

/-- Append `n` bits of `v`, or fail for want of room (40_bitpack.md R222, 90_conflicts.md C10). -/
def putBits (field : Option ErrorCode) (n v : Nat) (s : State) : Host.Outcome State Fault Refusal :=
  let x := s.engine.bw
  runCommand { field := field, session := x.active, room := 8 * x.cap, needRoom := x.bitpos + n } s fun s =>
    succeed (unsettle { s with engine.bw := x.put n v })

/-- BW_PUT_BIT (40_bitpack.md R221). -/
def execBwPutBit (s : State) : Host.Outcome State Fault Refusal :=
  putBits none 1 s.operands.value.toNat s

/-- BW_PUT (40_bitpack.md R222). -/
def execBwPut (n : BitVec 8) (s : State) : Host.Outcome State Fault Refusal :=
  putBits (widthError 32 n) n.toNat s.operands.value.toNat s

/-- BW_PUT64 (40_bitpack.md R223). -/
def execBwPut64 (n : BitVec 8) (s : State) : Host.Outcome State Fault Refusal :=
  putBits (widthError 64 n) n.toNat s.operands.value64 s

/-- The session padded with 0 bits to a byte boundary, all of it settled (40_bitpack.md R225). -/
def BitWriter.flushed (x : BitWriter) : BitWriter :=
  let pad := (8 - x.bitpos % 8) % 8
  { x with bitpos := x.bitpos + pad, bits := x.bits ++ List.replicate pad false, settled := (x.bitpos + pad) / 8 }

/-- The bytes a flush writes: the stream's bytes from the old `settled` on (40_bitpack.md R225). -/
def BitWriter.flushBytes (x : BitWriter) : List Byte :=
  bytesOfBits (x.flushed.settled - x.settled) (x.flushed.bits.drop (8 * x.settled))

/-- BW_FLUSH (40_bitpack.md R225): it writes only the bytes from the old `settled` to the new one
(70_reset_and_hazards.md R715). -/
def execBwFlush (s : State) : Host.Outcome State Fault Refusal :=
  let x := s.engine.bw
  runCommand { session := x.active } s fun s =>
    succeed { s with
      engine.bw := x.flushed
      engine.results.len := BitVec.ofNat 32 x.flushed.settled
      mem := s.mem.writeBytes (x.base.toNat + x.settled) x.flushBytes }

/-! ### The bit reader -/

/-- BR_INIT (40_bitpack.md R230). -/
def execBrInit (s : State) : Host.Outcome State Fault Refusal :=
  let p := s.operands
  runCommand { extents := [p.src], sessionSizes := [p.srcLen.toNat] } s fun s =>
    succeed { s with engine.br := ⟨true, p.srcAddr, p.srcLen.toNat, 0⟩ }

/-- How many of `n` wanted bits the reader can still deliver (40_bitpack.md R231, R232). -/
def BitReader.deliverable (x : BitReader) (n : Nat) : Nat := min n (8 * x.len - x.bitpos)

/-- `br_read(n)` (40_bitpack.md R231). -/
def readBitsBody (n : Nat) (s : State) : State :=
  let x := s.engine.br
  let k := x.deliverable n
  let v := getBits (s.bytesOf x.extent) x.bitpos k
  succeed { s with
    engine.br.bitpos := x.bitpos + k
    engine.results.val := BitVec.ofNat 32 v
    engine.results.valHi := BitVec.ofNat 32 (v / 2 ^ 32)
    engine.results.count := BitVec.ofNat 32 k }

/-- BR_GET_BIT (40_bitpack.md R233). -/
def execBrGetBit (s : State) : Host.Outcome State Fault Refusal :=
  runCommand { session := s.engine.br.active } s (readBitsBody 1)

/-- BR_GET (40_bitpack.md R234). -/
def execBrGet (n : BitVec 8) (s : State) : Host.Outcome State Fault Refusal :=
  runCommand { field := widthError 32 n, session := s.engine.br.active } s (readBitsBody n.toNat)

/-- BR_GET64 (40_bitpack.md R235). -/
def execBrGet64 (n : BitVec 8) (s : State) : Host.Outcome State Fault Refusal :=
  runCommand { field := widthError 64 n, session := s.engine.br.active } s (readBitsBody n.toNat)

end Sys2Proof.Machine
end

