-- ==== Sys2Proof/Machine/Block.lean ====
section
/-! DEFINITION. What the three block compressors of 44_deflate.md, 45_lz4.md and 46_snappy.md share:
the copy of a back-reference, the choice of a compressor's output, and the shape of their commands. -/

namespace Sys2Proof.Machine

/-- The output after a copy of `len` bytes from `off` bytes back, one byte at a time, so that an
overlapping copy repeats (70_reset_and_hazards.md R716). The output is held last byte first. -/
def copyBack (off : Nat) : Nat → List Byte → List Byte
  | 0, out => out
  | len + 1, out => copyBack off len (out.getD (off - 1) 0 :: out)

/-- How many equal bytes two lists start with, `limit` at most. -/
def commonLen : Nat → List Byte → List Byte → Nat
  | limit + 1, a :: as, b :: bs => if a = b then 1 + commonLen limit as bs else 0
  | _, _, _ => 0

/-- A compressor's output: the next candidate of `members` where it is admissible, and the reference
member otherwise (44_deflate.md R440, 45_lz4.md R490, 46_snappy.md R540; log entry 6). -/
def chosenMember (admissible : List Byte → Bool) (ref : List Byte) (members : List (List Byte)) : List Byte :=
  match members with
  | [] => ref
  | y :: _ => if admissible y then y else ref

/-- A compress command that writes `out` (44_deflate.md R460, 45_lz4.md R500, 46_snappy.md R550). -/
def compressRun (field : Option ErrorCode) (draws : Bool) (out : List Byte → List Byte) (s : State) :
    Host.Outcome State Fault Refusal :=
  let p := s.operands
  runCommand (oneShot p field [] 0 0) s fun s =>
    deliver p.dst (out (s.bytesOf p.src)) { s.engine.results with used := p.srcLen }
      { s with members := if draws then s.members.tail else s.members }

/-- A decompress command that decodes the source with room for DST_CAP bytes: the output and the number
of source bytes used (44_deflate.md R430, 45_lz4.md R510, 46_snappy.md R560). -/
def decompressRun (decoder : List Byte → Nat → Except ErrorCode (List Byte × Nat)) (s : State) :
    Host.Outcome State Fault Refusal :=
  let p := s.operands
  runCommand (oneShot p none [] 0 0) s fun s =>
    match decoder (s.bytesOf p.src) p.dstCap.toNat with
    | .error e => raise e p.dst s
    | .ok (out, used) => deliver p.dst out { s.engine.results with used := BitVec.ofNat 32 used } s

/-- A bound command (44_deflate.md R462, 45_lz4.md R502, 46_snappy.md R552). -/
def boundRun (bound : Nat → Nat) (s : State) : Host.Outcome State Fault Refusal :=
  let b := bound s.operands.srcLen.toNat
  runCommand { sizes := [b] } s fun s => succeed { s with engine.results.len := BitVec.ofNat 32 b }

end Sys2Proof.Machine
end

