-- ==== Sys2Proof/Machine/Deflate.lean ====
section
/-! DEFINITION. The DEFLATE block codec of 44_deflate.md. -/

namespace Sys2Proof.Machine

/-! ### Tables -/

/-- The length symbols 257..285 as (base, extra bits) (44_deflate.md R406). -/
def lengthTable : List (Nat × Nat) :=
  [(3, 0), (4, 0), (5, 0), (6, 0), (7, 0), (8, 0), (9, 0), (10, 0), (11, 1), (13, 1), (15, 1), (17, 1), (19, 2),
    (23, 2), (27, 2), (31, 2), (35, 3), (43, 3), (51, 3), (59, 3), (67, 4), (83, 4), (99, 4), (115, 4), (131, 5),
    (163, 5), (195, 5), (227, 5), (258, 0)]

/-- The distance symbols 0..29 as (base, extra bits) (44_deflate.md R407). -/
def distTable : List (Nat × Nat) :=
  [(1, 0), (2, 0), (3, 0), (4, 0), (5, 1), (7, 1), (9, 2), (13, 2), (17, 3), (25, 3), (33, 4), (49, 4), (65, 5),
    (97, 5), (129, 6), (193, 6), (257, 7), (385, 7), (513, 8), (769, 8), (1025, 9), (1537, 9), (2049, 10),
    (3073, 10), (4097, 11), (6145, 11), (8193, 12), (12289, 12), (16385, 13), (24577, 13)]

/-- The order of the code-length code's lengths (44_deflate.md R408). -/
def clOrder : List Nat := [16, 17, 18, 0, 8, 7, 9, 6, 10, 5, 11, 4, 12, 3, 13, 2, 14, 1, 15]

/-- The fixed literal/length code's lengths (44_deflate.md R412). -/
def fixedLitLens : List Nat :=
  List.replicate 144 8 ++ List.replicate 112 9 ++ List.replicate 24 7 ++ List.replicate 8 8

/-- The fixed distance code's lengths (44_deflate.md R412). -/
def fixedDistLens : List Nat := List.replicate 32 5

/-! ### Canonical codes -/

/-- `bl_count[b]`, with `bl_count[0] = 0` (44_deflate.md R405). -/
def lenCount (lens : List Nat) (b : Nat) : Nat := if b = 0 then 0 else lens.count b

/-- The initial `next_code[b]` (44_deflate.md R405). -/
def firstCode (lens : List Nat) : Nat → Nat
  | 0 => 0
  | b + 1 => (firstCode lens b + lenCount lens b) * 2

/-- Give the symbols `sym` upward their codes in turn, as (length, code, symbol); `next` holds
`next_code` by length (44_deflate.md R405). -/
def assignCodes : List Nat → Nat → List Nat → List (Nat × Nat × Nat)
  | [], _, _ => []
  | l :: ls, sym, next =>
    if l = 0 then assignCodes ls (sym + 1) next
    else (l, next.getD l 0, sym) :: assignCodes ls (sym + 1) (next.set l (next.getD l 0 + 1))

/-- A canonical code as (length, code, symbol) (44_deflate.md R405). -/
def codeTable (lens : List Nat) : List (Nat × Nat × Nat) :=
  assignCodes lens 0 ((List.range 16).map (firstCode lens))

/-- `left` after the lengths 1 to `b`, or `none` where the set is over-subscribed (44_deflate.md R410). -/
def codeSpace (lens : List Nat) : Nat → Option Nat
  | 0 => some 1
  | b + 1 =>
    match codeSpace lens b with
    | none => none
    | some left => if 2 * left < lenCount lens (b + 1) then none else some (2 * left - lenCount lens (b + 1))

/-- A set of lengths that is complete (44_deflate.md R410). -/
def codeComplete (lens : List Nat) : Bool := codeSpace lens 15 == some 0

/-- Exactly one used symbol, of length 1: the first exception of 44_deflate.md R410. -/
def codeSingle (lens : List Nat) : Bool := lens.filter (· != 0) == [1]

/-- A literal/length code the decoder accepts (44_deflate.md R410). -/
def litCodeOk (lens : List Nat) : Bool := codeComplete lens || codeSingle lens

/-- A distance code the decoder accepts (44_deflate.md R410). -/
def distCodeOk (lens : List Nat) : Bool := codeComplete lens || codeSingle lens || lens.all (· == 0)

/-! ### Decoder -/

/-- `getbits(k)` at cursor `bp` (44_deflate.md R401): the bits and the cursor after them. -/
def takeBits (inp : List Byte) (bp k : Nat) : Except ErrorCode (Nat × Nat) :=
  if 8 * inp.length < bp + k then .error .truncated else .ok (getBits inp bp k, bp + k)

/-- Decode one symbol with `left` more bits allowed, `l` bits with value `c` being read (44_deflate.md
R411). -/
def decodeSymFrom (table : List (Nat × Nat × Nat)) (inp : List Byte) :
    Nat → Nat → Nat → Nat → Except ErrorCode (Nat × Nat)
  | 0, _, _, _ => .error .badCode
  | left + 1, l, c, bp =>
    match takeBits inp bp 1 with
    | .error e => .error e
    | .ok (b, bp) =>
      let c := 2 * c + b
      match table.find? fun t => t.1 == l + 1 && t.2.1 == c with
      | some t => .ok (t.2.2, bp)
      | none => decodeSymFrom table inp left (l + 1) c bp

/-- Decode one symbol (44_deflate.md R411); an empty code reads its 15 bits too (log entry 22). -/
def decodeSym (table : List (Nat × Nat × Nat)) (inp : List Byte) (bp : Nat) : Except ErrorCode (Nat × Nat) :=
  decodeSymFrom table inp 15 0 0 bp

/-- The row of a symbol in a table whose first row is that of symbol `first` (44_deflate.md R406, R407). -/
def basedRow (first : Nat) (table : List (Nat × Nat)) (sym : Nat) : Option (Nat × Nat) :=
  ((List.range' first table.length).zip table).lookup sym

/-- A value with a base and extra bits (44_deflate.md R406, R407); a symbol past the table is BAD_CODE. -/
def takeBased (row : Option (Nat × Nat)) (inp : List Byte) (bp : Nat) : Except ErrorCode (Nat × Nat) :=
  match row with
  | none => .error .badCode
  | some (base, extra) =>
    match takeBits inp bp extra with
    | .error e => .error e
    | .ok (x, bp) => .ok (base + x, bp)

/-- What decoding a stream finds: the output, last byte first, and the cursor; whether a block was a dynamic
one, and whether a length symbol 284 had the extra value 31, which decodes and which no encoder writes
(44_deflate.md R406). -/
structure Inflated where
  out : List Byte
  bp : Nat
  dynamic : Bool
  long284 : Bool
  deriving DecidableEq, Repr

/-- A copy in a block's data, its length symbol `s` already read (44_deflate.md R413). -/
def inflateCopy (dist : List (Nat × Nat × Nat)) (inp : List Byte) (cap s : Nat) (o : Inflated) :
    Except ErrorCode Inflated :=
  match takeBased (basedRow 257 lengthTable s) inp o.bp with
  | .error e => .error e
  | .ok (len, bp) =>
    match decodeSym dist inp bp with
    | .error e => .error e
    | .ok (t, bp) =>
      match takeBased (basedRow 0 distTable t) inp bp with
      | .error e => .error e
      | .ok (off, bp) =>
        if o.out.length < off then .error .badOffset
        else if cap < o.out.length + len then .error .dstOverflow
        else .ok { o with out := copyBack off len o.out, bp := bp, long284 := o.long284 || (s == 284 && len == 258) }

/-- What a literal/length symbol, already read, adds to the output (44_deflate.md R413): a byte, nothing at
the end of the block (`true`), or a copy. -/
def inflateSymbol (dist : List (Nat × Nat × Nat)) (inp : List Byte) (cap s : Nat) (o : Inflated) :
    Except ErrorCode (Bool × Inflated) :=
  if s < 256 then
    if cap ≤ o.out.length then .error .dstOverflow else .ok (false, { o with out := byteOf s :: o.out })
  else if s = 256 then .ok (true, o)
  else
    match inflateCopy dist inp cap s o with
    | .error e => .error e
    | .ok o => .ok (false, o)

/-- The data of a fixed or dynamic block (44_deflate.md R413). Each pass consumes a bit. -/
def inflateData (lit dist : List (Nat × Nat × Nat)) (inp : List Byte) (cap : Nat) :
    Nat → Inflated → Except ErrorCode Inflated
  | 0, _ => .error .truncated
  | fuel + 1, o =>
    match decodeSym lit inp o.bp with
    | .error e => .error e
    | .ok (s, bp) =>
      match inflateSymbol dist inp cap s { o with bp := bp } with
      | .error e => .error e
      | .ok (ended, o) => if ended then .ok o else inflateData lit dist inp cap fuel o

/-- A stored block (44_deflate.md R403). -/
def inflateStored (inp : List Byte) (cap bp : Nat) (out : List Byte) : Except ErrorCode (List Byte × Nat) :=
  let at0 := ceilDiv bp 8
  if inp.length < at0 + 4 then .error .truncated
  else
    let len := leValue ((inp.drop at0).take 2)
    let nlen := leValue ((inp.drop (at0 + 2)).take 2)
    if nlen ≠ len ^^^ 0xFFFF then .error .badStoredLen
    else if inp.length < at0 + 4 + len then .error .truncated
    else if cap < out.length + len then .error .dstOverflow
    else .ok (((inp.drop (at0 + 4)).take len).reverse ++ out, 8 * (at0 + 4 + len))

/-- The code-length sequence of `want` lengths (44_deflate.md R409), held last first. Each pass gives a
length. A repeat's extra bits are read before its two checks (log entry 18). -/
def readLens (table : List (Nat × Nat × Nat)) (inp : List Byte) (want : Nat) :
    Nat → Nat → List Nat → Except ErrorCode (List Nat × Nat)
  | 0, bp, lens => .ok (lens, bp)
  | fuel + 1, bp, lens =>
    if want ≤ lens.length then .ok (lens, bp)
    else
      match decodeSym table inp bp with
      | .error e => .error e
      | .ok (s, bp) =>
        if s < 16 then readLens table inp want fuel bp (s :: lens)
        else
          let value := if s = 16 then lens.headD 0 else 0
          let extra := if s = 16 then 2 else if s = 17 then 3 else 7
          match takeBits inp bp extra with
          | .error e => .error e
          | .ok (x, bp) =>
            let times := x + if s = 18 then 11 else 3
            if s = 16 ∧ lens = [] then .error .badHuffmanTable
            else if want < lens.length + times then .error .badHuffmanTable
            else readLens table inp want fuel bp (List.replicate times value ++ lens)

/-- `n` fields of 3 bits (44_deflate.md R408). -/
def readClLens (inp : List Byte) : Nat → Nat → Except ErrorCode (List Nat × Nat)
  | 0, bp => .ok ([], bp)
  | n + 1, bp =>
    match takeBits inp bp 3 with
    | .error e => .error e
    | .ok (l, bp) =>
      match readClLens inp n bp with
      | .error e => .error e
      | .ok (ls, bp) => .ok (l :: ls, bp)

/-- The code-length code's lengths by symbol, from those read in `clOrder` (44_deflate.md R408). -/
def placeClLens (read : List Nat) : List Nat :=
  (List.range 19).map fun s => ((clOrder.zip read).lookup s).getD 0

/-- A dynamic block's header (44_deflate.md R408): the two codes and the cursor after it. -/
def readDynamic (inp : List Byte) (bp : Nat) :
    Except ErrorCode (List (Nat × Nat × Nat) × List (Nat × Nat × Nat) × Nat) := do
  let (a, bp) ← takeBits inp bp 5
  let (b, bp) ← takeBits inp bp 5
  let (c, bp) ← takeBits inp bp 4
  let hlit := a + 257
  let hdist := b + 1
  if 286 < hlit ∨ 30 < hdist then .error .badHuffmanTable
  else
    let (cl, bp) ← readClLens inp (c + 4) bp
    let clLens := placeClLens cl
    if !codeComplete clLens then .error .badHuffmanTable
    else
      let (rev, bp) ← readLens (codeTable clLens) inp (hlit + hdist) (hlit + hdist) bp []
      let lens := rev.reverse
      let lit := lens.take hlit
      let dist := lens.drop hlit
      if lit.getD 256 0 = 0 then .error .badHuffmanTable
      else if litCodeOk lit && distCodeOk dist then .ok (codeTable lit, codeTable dist, bp)
      else .error .badHuffmanTable

/-- The blocks of a stream (44_deflate.md R402, R430). Each pass consumes bits. -/
def inflateBlocks (inp : List Byte) (cap : Nat) : Nat → Inflated → Except ErrorCode Inflated
  | 0, _ => .error .truncated
  | fuel + 1, o => do
    let (final, bp) ← takeBits inp o.bp 1
    let (type, bp) ← takeBits inp bp 2
    let o' ← match type with
      | 0 => do
        let (out, bp) ← inflateStored inp cap bp o.out
        .ok { o with out := out, bp := bp }
      | 1 =>
        inflateData (codeTable fixedLitLens) (codeTable fixedDistLens) inp cap (8 * inp.length + 1)
          { o with bp := bp }
      | 2 => do
        let (lit, dist, bp) ← readDynamic inp bp
        inflateData lit dist inp cap (8 * inp.length + 1) { o with bp := bp, dynamic := true }
      | _ => .error .badBlockType
    if final = 1 then .ok o' else inflateBlocks inp cap fuel o'

/-- Decode a raw stream (44_deflate.md R400, R430). -/
def inflate (inp : List Byte) (cap : Nat) : Except ErrorCode Inflated :=
  inflateBlocks inp cap (8 * inp.length + 1) ⟨[], 0, false, false⟩

/-- The output and SRC_USED of DEFLATE_DECOMPRESS (44_deflate.md R430). -/
def deflateDecompress (inp : List Byte) (cap : Nat) : Except ErrorCode (List Byte × Nat) :=
  match inflate inp cap with
  | .error e => .error e
  | .ok o => .ok (o.out.reverse, ceilDiv o.bp 8)

/-! ### Bound and compressor -/

/-- `n + 5 * (floor(n / 65535) + 1)` (44_deflate.md R462). -/
def deflateBoundOf (n : Nat) : Nat := n + 5 * (n / 65535 + 1)

/-- The admissible set of levels 1 to 9 (44_deflate.md R440), without the outputs that hold a length symbol
284 with extra value 31, which the encoder never writes (R406). -/
def deflateAdmissible (x y : List Byte) : Bool :=
  match inflate y x.length with
  | .error _ => false
  | .ok o =>
    o.out.reverse == x && ceilDiv o.bp 8 == y.length && decide (y.length ≤ deflateBoundOf x.length) && !o.dynamic &&
      !o.long284

/-- One stored block (44_deflate.md R454). -/
def storedChunk (final : Bool) (x : List Byte) : List Byte :=
  byteOf final.toNat :: leBytes 2 x.length ++ leBytes 2 (x.length ^^^ 0xFFFF) ++ x

/-- The stored blocks of 65535 bytes, the last one final (44_deflate.md R454). -/
def storedChunks : Nat → List Byte → List Byte
  | 0, x => storedChunk true x
  | fuel + 1, x =>
    if x.length ≤ 65535 then storedChunk true x
    else storedChunk false (x.take 65535) ++ storedChunks fuel (x.drop 65535)

/-- `stored_stream` (44_deflate.md R454). -/
def storedStream (x : List Byte) : List Byte := storedChunks (x.length / 65535) x

/-- An LZ77 token (44_deflate.md R452). -/
inductive Token where
  | lit (b : Byte)
  | copy (len dist : Nat)
  deriving DecidableEq, Repr

/-- `DEPTH` (44_deflate.md R451). -/
def chainDepth (level : Nat) : Nat := [0, 4, 8, 16, 32, 64, 128, 256, 1024, 4096].getD level 0

/-- `h3` of the three bytes at the head of the list (44_deflate.md R452). -/
def deflateHash (x : List Byte) : Nat :=
  (((x.getD 0 0).toNat * 2 ^ 10) ^^^ ((x.getD 1 0).toNat * 2 ^ 5) ^^^ (x.getD 2 0).toNat) % 2 ^ 15

/-- Enter the `k` positions from `p` on into the chains, newest first, as far as three bytes follow
(44_deflate.md R452, `insert`). -/
def enterChain (x : List Byte) (p : Nat) : Nat → List (Nat × Nat) → List (Nat × Nat)
  | 0, chain => chain
  | k + 1, chain =>
    enterChain x (p + 1) k (if p + 3 ≤ x.length then (deflateHash (x.drop p), p) :: chain else chain)

/-- The candidates of position `p`: the positions of its chain, nearest first, as many as the depth and
the window allow (44_deflate.md R452). -/
def chainCandidates (x : List Byte) (p depth : Nat) (chain : List (Nat × Nat)) : List Nat :=
  ((((chain.filter fun c => c.1 == deflateHash (x.drop p)).map Prod.snd).takeWhile fun c =>
    decide (p - c ≤ 32768))).take depth

/-- The best match among the candidates as (length, distance): the longest, the nearest among equals
(44_deflate.md R452). -/
def bestMatch (x : List Byte) (p : Nat) : List Nat → Nat × Nat → Nat × Nat
  | [], best => best
  | c :: cs, best =>
    let l := commonLen (min 258 (x.length - p)) (x.drop c) (x.drop p)
    bestMatch x p cs (if best.1 < l then (l, p - c) else best)

/-- `lz77_tokens` from position `p` on (44_deflate.md R452). Each pass covers a byte. -/
def lz77From (x : List Byte) (depth : Nat) : Nat → Nat → List (Nat × Nat) → List Token
  | 0, _, _ => []
  | fuel + 1, p, chain =>
    match x[p]? with
    | none => []
    | some b =>
      let best := if p + 3 ≤ x.length then bestMatch x p (chainCandidates x p depth chain) (0, 0) else (0, 0)
      if 3 ≤ best.1 then .copy best.1 best.2 :: lz77From x depth fuel (p + best.1) (enterChain x p best.1 chain)
      else .lit b :: lz77From x depth fuel (p + 1) (enterChain x p 1 chain)

/-- `lz77_tokens` (44_deflate.md R452). -/
def lz77Tokens (x : List Byte) (level : Nat) : List Token := lz77From x (chainDepth level) x.length 0 []

/-- A Huffman code in stream order, most significant bit first (44_deflate.md R404). -/
def huffBits (lens : List Nat) (sym : Nat) : List Bool :=
  match (codeTable lens).find? fun t => t.2.2 == sym with
  | none => []
  | some t => (bitsOf t.1 t.2.1).reverse

/-- The largest index whose base is at most `v`, its base and its extra bits (44_deflate.md R453). -/
def basedIndex (v : Nat) : List (Nat × Nat) → Nat → Nat × Nat × Nat → Nat × Nat × Nat
  | [], _, best => best
  | t :: ts, i, best => basedIndex v ts (i + 1) (if t.1 ≤ v then (i, t) else best)

/-- The bits of one token in the fixed codes (44_deflate.md R453). -/
def tokenBits : Token → List Bool
  | .lit b => huffBits fixedLitLens b.toNat
  | .copy len dist =>
    let l := basedIndex len lengthTable 0 (0, 0, 0)
    let d := basedIndex dist distTable 0 (0, 0, 0)
    huffBits fixedLitLens (257 + l.1) ++ bitsOf l.2.2 (len - l.2.1) ++ huffBits fixedDistLens d.1 ++
      bitsOf d.2.2 (dist - d.2.1)

/-- `fixed_stream` (44_deflate.md R453): one final fixed-Huffman block. -/
def fixedStream (ts : List Token) : List Byte :=
  let bits := [true, true, false] ++ ts.flatMap tokenBits ++ huffBits fixedLitLens 256
  bytesOfBits (ceilDiv bits.length 8) bits

/-- `deflate_ref` at levels 1 to 9: the shorter of the two streams (44_deflate.md R450). -/
def deflateRef (level : Nat) (x : List Byte) : List Byte :=
  let s := storedStream x
  if level = 0 then s
  else
    let f := fixedStream (lz77Tokens x level)
    if f.length < s.length then f else s

/-- What DEFLATE_COMPRESS writes (44_deflate.md R440): at level 0 exactly the stored stream. -/
def deflateMember (level : Nat) (members : List (List Byte)) (x : List Byte) : List Byte :=
  if level = 0 then storedStream x else chosenMember (deflateAdmissible x) (deflateRef level x) members

/-! ### Commands -/

/-- DEFLATE_COMPRESS (44_deflate.md R460). -/
def execDeflateCompress (level : BitVec 4) (s : State) : Host.Outcome State Fault Refusal :=
  compressRun (levelError level) (level.toNat != 0) (deflateMember level.toNat s.members) s

/-- DEFLATE_DECOMPRESS (44_deflate.md R430). -/
def execDeflateDecompress (s : State) : Host.Outcome State Fault Refusal := decompressRun deflateDecompress s

/-- DEFLATE_BOUND (44_deflate.md R462). -/
def execDeflateBound (s : State) : Host.Outcome State Fault Refusal := boundRun deflateBoundOf s

end Sys2Proof.Machine
end

