-- ==== Sys2Proof/Machine/Delta.lean ====
section
/-! DEFINITION. The delta binary-packed codec of 42_delta.md. Values, deltas and residuals are `W`-bit
patterns held as natural numbers below `2^W` (20_memory.md R141). -/

namespace Sys2Proof.Machine

/-! ### Encoder -/

/-- `(a - b) mod 2^W` on `W`-bit patterns (20_memory.md R141). -/
def subMod (W a b : Nat) : Nat := (a + 2 ^ W - b) % 2 ^ W

/-- The deltas of consecutive values (42_delta.md R321). -/
def deltasOf (W : Nat) : List Nat → List Nat
  | u :: v :: rest => subMod W v u :: deltasOf W (v :: rest)
  | _ => []

/-- The pattern of the smaller value, read as signed (42_delta.md R321). -/
def minSigned (W a b : Nat) : Nat := if signedOf W b < signedOf W a then b else a

/-- The pattern of the smallest delta of a block (42_delta.md R321). -/
def minDelta (W : Nat) : List Nat → Nat
  | [] => 0
  | d :: ds => ds.foldl (minSigned W) d

/-- The width of a mini-block's residuals (42_delta.md R322): the bit length of the largest, rounded up
to a multiple of 8 above 32. -/
def residualWidth (rs : List Nat) : Nat :=
  let k := bitLen (rs.foldl max 0)
  if k ≤ 32 then k else 8 * ceilDiv k 8

/-- The residuals of mini-block `m` of a block (42_delta.md R321, R330). -/
def miniResiduals (W mn : Nat) (block : List Nat) (m : Nat) : List Nat :=
  ((block.drop (32 * m)).take 32).map fun d => subMod W d mn

/-- The data of one mini-block: none where it holds no delta (42_delta.md R322). -/
def miniData (rs : List Nat) : List Byte :=
  if rs.isEmpty then [] else packBits (residualWidth rs) (rs ++ List.replicate (32 - rs.length) 0)

/-- One block: the smallest delta, four widths, the mini-blocks' data (42_delta.md R320, R330). -/
def deltaBlock (W : Nat) (block : List Nat) : List Byte :=
  let mn := minDelta W block
  let minis := (List.range 4).map (miniResiduals W mn block)
  varint (zigzag W mn) ++ minis.map (fun rs => byteOf (residualWidth rs)) ++ minis.flatMap miniData

/-- The blocks of up to 128 deltas each (42_delta.md R330). -/
def deltaBlocks (W : Nat) : Nat → List Nat → List Byte
  | 0, _ => []
  | fuel + 1, ds => if ds.isEmpty then [] else deltaBlock W (ds.take 128) ++ deltaBlocks W fuel (ds.drop 128)

/-- The stream of a delta encoder (42_delta.md R320, R330). -/
def deltaEncode (W : Nat) (us : List Nat) : List Byte :=
  varint 128 ++ varint 4 ++ varint us.length ++ varint (zigzag W (us.headD 0)) ++
    deltaBlocks W us.length (deltasOf W us)

/-- The common meaning of the two encoders at width `W = 8*E` (42_delta.md R330, R331). -/
def deltaEnc (W E : Nat) (s : State) : Host.Outcome State Fault Refusal :=
  let p := s.operands
  let n := p.count.toNat
  runCommand (oneShot p none [E * n] (E * n) 0) s fun s =>
    deliver p.dst (deltaEncode W (sourceElems s p E n)) (s.engine.results.counted (E * n) n) s

/-- DELTA_ENC_I32 (42_delta.md R330). -/
def execDeltaEncI32 (s : State) : Host.Outcome State Fault Refusal := deltaEnc 32 4 s

/-- DELTA_ENC_I64 (42_delta.md R331). -/
def execDeltaEncI64 (s : State) : Host.Outcome State Fault Refusal := deltaEnc 64 8 s

/-! ### Decoder -/

/-- The header of a delta stream, read and checked (42_delta.md R340). -/
structure DeltaHeader where
  perMini : Nat
  minis : Nat
  total : Nat
  first : Nat
  pos : Nat
  deriving DecidableEq, Repr

/-- The header's validity (42_delta.md R340): the block size a non-zero multiple of 128, cut into
mini-blocks of a multiple of 32 values. -/
def deltaHeaderOk (bs mbc : Nat) : Bool :=
  bs != 0 && bs % 128 == 0 && mbc != 0 && bs % mbc == 0 && bs / mbc % 32 == 0

/-- Read the header (42_delta.md R340). -/
def deltaHeader (W : Nat) (inp : List Byte) : Except ErrorCode DeltaHeader := do
  let (bs, p) ← readVarint 32 inp 0
  let (mbc, p) ← readVarint 32 inp p
  let (total, p) ← readVarint 32 inp p
  let (fz, p) ← readVarint W inp p
  if deltaHeaderOk bs mbc then .ok ⟨bs / mbc, mbc, total, unzigzag W fz, p⟩ else .error .badHeader

/-- The running values of residuals, `left` at most, from value `v` on (42_delta.md R321, R340). -/
def runningValues (W mn : Nat) : Nat → List Nat → Nat → List Nat
  | 0, _, _ => []
  | _, [], _ => []
  | left + 1, r :: rs, v =>
    let v' := (v + mn + r) % 2 ^ W
    v' :: runningValues W mn left rs v'

/-- The mini-blocks of one block, while values are wanted: the values, and the offset after the last
mini-block read (42_delta.md R340). Only the residuals that are wanted are unpacked. -/
def deltaMinis (W perMini mn : Nat) (inp : List Byte) :
    List Nat → Nat → Nat → Nat → Except ErrorCode (List Nat × Nat)
  | [], _, p, _ => .ok ([], p)
  | wd :: wds, left, p, v =>
    if left = 0 then .ok ([], p)
    else if W < wd then .error .badWidthField
    else
      let nb := perMini * wd / 8
      if inp.length < p + nb then .error .truncated
      else
        let vs := runningValues W mn left (unpackBitsAt inp wd (8 * p) (min perMini left)) v
        match deltaMinis W perMini mn inp wds (left - vs.length) (p + nb) (vs.getLastD v) with
        | .error e => .error e
        | .ok (rest, p) => .ok (vs ++ rest, p)

/-- The blocks, while values are wanted (42_delta.md R340). Each pass gives a value, so the number
wanted is fuel enough. -/
def deltaBlocksFrom (W perMini minis : Nat) (inp : List Byte) :
    Nat → Nat → Nat → Nat → Except ErrorCode (List Nat × Nat)
  | 0, _, p, _ => .ok ([], p)
  | fuel + 1, left, p, v =>
    if left = 0 then .ok ([], p)
    else
      match readVarint W inp p with
      | .error e => .error e
      | .ok (mz, p) =>
        if inp.length < p + minis then .error .truncated
        else
          let wds := ((inp.drop p).take minis).map BitVec.toNat
          match deltaMinis W perMini (unzigzag W mz) inp wds left (p + minis) v with
          | .error e => .error e
          | .ok (vs, p) =>
            match deltaBlocksFrom W perMini minis inp fuel (left - vs.length) p (vs.getLastD v) with
            | .error e => .error e
            | .ok (rest, p) => .ok (vs ++ rest, p)

/-- The values after the header: `outn` of them, and the offset after the last byte read (42_delta.md
R340). -/
def deltaValues (W : Nat) (h : DeltaHeader) (inp : List Byte) (outn : Nat) : Except ErrorCode (List Nat × Nat) :=
  if outn = 0 then .ok ([], h.pos)
  else
    match deltaBlocksFrom W h.perMini h.minis inp (outn - 1) (outn - 1) h.pos h.first with
    | .error e => .error e
    | .ok (vs, p) => .ok (h.first :: vs, p)

/-- The common meaning of the two decoders at width `W = 8*E` (42_delta.md R340, R341). The room is
checked after the header and before any write. -/
def deltaDec (W E : Nat) (s : State) : Host.Outcome State Fault Refusal :=
  let p := s.operands
  runCommand (oneShot p none [] 0 0) s fun s =>
    let inp := s.bytesOf p.src
    match deltaHeader W inp with
    | .error e => raise e p.dst s
    | .ok h =>
      let outn := min p.count.toNat h.total
      if p.dstCap.toNat < E * outn then raise .dstTooSmall p.dst s
      else
        match deltaValues W h inp outn with
        | .error e => raise e p.dst s
        | .ok (vs, used) => deliver p.dst (vs.flatMap (leBytes E)) (s.engine.results.counted used outn) s

/-- DELTA_DEC_I32 (42_delta.md R340). -/
def execDeltaDecI32 (s : State) : Host.Outcome State Fault Refusal := deltaDec 32 4 s

/-- DELTA_DEC_I64 (42_delta.md R341). -/
def execDeltaDecI64 (s : State) : Host.Outcome State Fault Refusal := deltaDec 64 8 s

end Sys2Proof.Machine
end

