-- ==== Sys2Proof/Machine/Rle.lean ====
section
/-! DEFINITION. The RLE / bit-packing hybrid codec of 41_rle.md. -/

namespace Sys2Proof.Machine

/-! ### Encoder -/

/-- `runlen`: how many equal values the list starts with (41_rle.md R270). -/
def runLen : List Nat → Nat
  | [] => 0
  | v :: vs => 1 + (vs.takeWhile (· == v)).length

/-- How many groups the packed run at the head of the list holds, `left` groups at most: the inner loop
of 41_rle.md R270. -/
def packedGroups : Nat → List Nat → Nat
  | 0, _ => 0
  | left + 1, vs =>
    let rest := vs.drop 8
    if rest.isEmpty || left == 0 || decide (8 ≤ runLen rest) then 1 else 1 + packedGroups left rest

/-- The first `n` values, filled with zeros. -/
def takePadded (n : Nat) (vs : List Nat) : List Nat := vs.take n ++ List.replicate (n - vs.length) 0

/-- The encoder's loop (41_rle.md R270); each pass consumes a value, so the list's length is fuel
enough. -/
def rleEncodeFrom (w : Nat) : Nat → List Nat → List Byte
  | 0, _ => []
  | _, [] => []
  | fuel + 1, v :: vs =>
    let r := runLen (v :: vs)
    if 8 ≤ r then
      let r := min r (2 ^ 31 - 1)
      varint (2 * r) ++ leBytes (ceilDiv w 8) v ++ rleEncodeFrom w fuel ((v :: vs).drop r)
    else
      let g := packedGroups 63 (v :: vs)
      varint (2 * g + 1) ++ packBits w (takePadded (8 * g) (v :: vs)) ++ rleEncodeFrom w fuel ((v :: vs).drop (8 * g))

/-- The stream RLE_ENC writes for the values, each cut to `w` bits (41_rle.md R270). -/
def rleEncode (w : Nat) (vs : List Nat) : List Byte :=
  rleEncodeFrom w vs.length (vs.map (· % 2 ^ w))

/-- RLE_ENC (41_rle.md R270). -/
def execRleEnc (w : BitVec 8) (s : State) : Host.Outcome State Fault Refusal :=
  let p := s.operands
  let n := p.count.toNat
  runCommand (oneShot p (widthError 32 w) [4 * n] (4 * n) 0) s fun s =>
    deliver p.dst (rleEncode w.toNat (sourceElems s p 4 n)) (s.engine.results.counted (4 * n) n) s

/-! ### Decoder primitives -/

/-- The moving part of a decoder state: `pos` and `run` of 10_state.md R72, and whether a zero-count run
was skipped (41_rle.md R275). -/
structure RleCursor where
  pos : Nat
  run : RleRun
  recovered : Bool
  deriving DecidableEq, Repr

/-- A run header and its data at the cursor (41_rle.md R272, one pass of the loop): the run, or `none`
for a zero-count run, and the offset after it. -/
def readRun (w : Nat) (inp : List Byte) (pos : Nat) : Except ErrorCode (RleRun × Nat) :=
  match readVarint 32 inp pos with
  | .error e => .error e
  | .ok (h, p) =>
    let c := h / 2
    if h % 2 = 1 then
      if inp.length < p + c * w then .error .truncated
      else .ok (if c = 0 then .none else .packed (8 * c) p 0, p + c * w)
    else
      let vb := ceilDiv w 8
      if inp.length < p + vb then .error .truncated
      else .ok (if c = 0 then .none else .rep c (leValue ((inp.drop p).take vb)), p + vb)

/-- `next_run` (41_rle.md R272): `true` where a non-empty run was begun, `false` at END. A zero-count run
is skipped and remembered (R275). Each pass consumes a byte, so the length plus one is fuel enough. -/
def nextRun (w : Nat) (inp : List Byte) : Nat → RleCursor → Except ErrorCode Bool × RleCursor
  | 0, c => (.ok false, c)
  | fuel + 1, c =>
    if inp.length ≤ c.pos then (.ok false, c)
    else
      match readRun w inp c.pos with
      | .error e => (.error e, c)
      | .ok (.none, pos) => nextRun w inp fuel ⟨pos, .none, true⟩
      | .ok (run, pos) => (.ok true, ⟨pos, run, c.recovered⟩)

/-- The value a current run gives, and the run after it (41_rle.md R273). -/
def RleRun.value (w : Nat) (inp : List Byte) : RleRun → Option (Nat × RleRun)
  | .none => Option.none
  | .rep r v => some (v, if r ≤ 1 then .none else .rep (r - 1) v)
  | .packed r d i => some (getBits inp (8 * d + i * w) w, if r ≤ 1 then .none else .packed (r - 1) d (i + 1))

/-- `next_value` (41_rle.md R273): a value, or `none` at END (R274). -/
def nextValue (w : Nat) (inp : List Byte) (c : RleCursor) : Except ErrorCode (Option Nat) × RleCursor :=
  match c.run.value w inp with
  | some (v, run) => (.ok (some v), { c with run := run })
  | none =>
    match nextRun w inp (inp.length + 1) c with
    | (.error e, c) => (.error e, c)
    | (.ok _, c) =>
      match c.run.value w inp with
      | some (v, run) => (.ok (some v), { c with run := run })
      | none => (.ok none, c)

/-- Up to `max` values, stopping at END (41_rle.md R285). -/
def nextValues (w : Nat) (inp : List Byte) : Nat → RleCursor → Except ErrorCode (List Nat) × RleCursor
  | 0, c => (.ok [], c)
  | max + 1, c =>
    match nextValue w inp c with
    | (.error e, c) => (.error e, c)
    | (.ok none, c) => (.ok [], c)
    | (.ok (some v), c) =>
      match nextValues w inp max c with
      | (.error e, c) => (.error e, c)
      | (.ok vs, c) => (.ok (v :: vs), c)

/-- Set STATUS.RECOVERED where a zero-count run was skipped (41_rle.md R275). -/
def recover (skipped : Bool) (s : State) : State :=
  { s with engine.status.recovered := s.engine.status.recovered || skipped }

/-! ### Decoder session -/

/-- RLE_DEC_INIT (41_rle.md R280). -/
def execRleDecInit (w : BitVec 8) (s : State) : Host.Outcome State Fault Refusal :=
  let p := s.operands
  runCommand { field := widthError 32 w, extents := [p.src], sessionSizes := [p.srcLen.toNat] } s fun s =>
    succeed { s with engine.rle := ⟨true, p.srcAddr, p.srcLen.toNat, w.toNat, 0, .none⟩ }

/-- The session's cursor; nothing skipped yet. -/
def RleSession.cursor (x : RleSession) : RleCursor := ⟨x.pos, x.run, false⟩

/-- The session with a new cursor (41_rle.md R281). -/
def RleSession.moved (x : RleSession) (c : RleCursor) : RleSession := { x with pos := c.pos, run := c.run }

/-- A session command's MALFORMED error ends the session (41_rle.md R283). -/
def raiseRle (e : ErrorCode) (dst : Extent) (s : State) : State :=
  let t := raise e dst s
  { t with engine.rle.active := false }

/-- Values of the session: on success go on with them, the session moved and SRC_USED set (41_rle.md
R281); on an error end the session (R283). -/
def withRleValues (max : Nat) (dst : Extent) (s : State) (k : List Nat → State → State) : State :=
  let x := s.engine.rle
  match nextValues x.w (s.bytesOf x.extent) max x.cursor with
  | (.error e, c) => raiseRle e dst (recover c.recovered s)
  | (.ok vs, c) =>
    let s := recover c.recovered s
    k vs { s with engine.rle := x.moved c, engine.results.used := BitVec.ofNat 32 c.pos }

/-- RLE_DEC_GET (41_rle.md R284). -/
def execRleDecGet (s : State) : Host.Outcome State Fault Refusal :=
  runCommand { session := s.engine.rle.active } s fun s =>
    withRleValues 1 ⟨0, 0⟩ s fun vs s =>
      succeed { s with
        engine.results.count := BitVec.ofNat 32 vs.length
        engine.results.val := BitVec.ofNat 32 (vs.headD 0)
        engine.results.valHi := 0 }

/-- RLE_DEC_BATCH (41_rle.md R285). -/
def execRleDecBatch (s : State) : Host.Outcome State Fault Refusal :=
  let p := s.operands
  let max := p.count.toNat
  runCommand
    { session := s.engine.rle.active, extents := [p.dst], sizes := [4 * max]
      pairs := [(s.engine.rle.extent, p.dst)], room := p.dstCap.toNat, needRoom := 4 * max } s fun s =>
    withRleValues max p.dst s fun vs s =>
      deliver p.dst (vs.flatMap (leBytes 4)) { s.engine.results with count := BitVec.ofNat 32 vs.length } s

/-- RLE_DEC_SKIP (41_rle.md R286). -/
def execRleDecSkip (s : State) : Host.Outcome State Fault Refusal :=
  runCommand { session := s.engine.rle.active } s fun s =>
    withRleValues s.operands.count.toNat ⟨0, 0⟩ s fun vs s =>
      succeed { s with engine.results.count := BitVec.ofNat 32 vs.length }

/-- RLE_DEC_LEVELS16 (41_rle.md R287). -/
def execRleDecLevels16 (w : BitVec 8) (s : State) : Host.Outcome State Fault Refusal :=
  let p := s.operands
  let max := p.count.toNat
  runCommand (oneShot p (widthError 16 w) [2 * max] 0 (2 * max)) s fun s =>
    match nextValues w.toNat (s.bytesOf p.src) max ⟨0, .none, false⟩ with
    | (.error e, c) => raise e p.dst (recover c.recovered s)
    | (.ok vs, c) =>
      deliver p.dst (vs.flatMap (leBytes 2)) (s.engine.results.counted c.pos vs.length) (recover c.recovered s)

end Sys2Proof.Machine
end

