-- ==== Sys2Proof/Machine/Lz4.lean ====
section
/-! DEFINITION. The LZ4 block codec of 45_lz4.md. -/

namespace Sys2Proof.Machine

/-! ### Decompressor -/

/-- What decoding a block finds: the output, last byte first, and where each match lies in it as
(start, length), for the end conditions of 45_lz4.md R474. -/
structure Lz4Output where
  out : List Byte
  spans : List (Nat × Nat)
  deriving DecidableEq, Repr

/-- The extension bytes of a length field: each is added, up to and with the first that is not 255
(45_lz4.md R472, R510). -/
def lz4Extension (inp : List Byte) : Nat → Nat → Nat → Except ErrorCode (Nat × Nat)
  | 0, _, _ => .error .truncated
  | fuel + 1, ip, len =>
    match inp[ip]? with
    | none => .error .truncated
    | some b => if b.toNat = 255 then lz4Extension inp fuel (ip + 1) (len + 255) else .ok (len + b.toNat, ip + 1)

/-- A length field and its extension (45_lz4.md R471, R472): the length and the offset after it. -/
def lz4Length (inp : List Byte) (nibble ip : Nat) : Except ErrorCode (Nat × Nat) :=
  if nibble = 15 then lz4Extension inp inp.length ip 15 else .ok (nibble, ip)

/-- The sequences of a block (45_lz4.md R510). Each pass consumes a byte. -/
def lz4Sequences (inp : List Byte) (cap : Nat) : Nat → Nat → Lz4Output → Except ErrorCode Lz4Output
  | 0, _, _ => .error .truncated
  | fuel + 1, ip, o =>
    match inp[ip]? with
    | none => .error .truncated
    | some tok =>
      match lz4Length inp (tok.toNat / 16) (ip + 1) with
      | .error e => .error e
      | .ok (ll, ip) =>
        if inp.length < ip + ll then .error .truncated
        else if cap < o.out.length + ll then .error .dstOverflow
        else
          let out := ((inp.drop ip).take ll).reverse ++ o.out
          let ip := ip + ll
          if ip = inp.length then .ok ⟨out, o.spans⟩
          else if inp.length < ip + 2 then .error .truncated
          else
            let off := leValue ((inp.drop ip).take 2)
            if off = 0 ∨ out.length < off then .error .badOffset
            else
              match lz4Length inp (tok.toNat % 16) (ip + 2) with
              | .error e => .error e
              | .ok (ml, ip) =>
                let ml := ml + 4
                if cap < out.length + ml then .error .dstOverflow
                else lz4Sequences inp cap fuel ip ⟨copyBack off ml out, (out.length, ml) :: o.spans⟩

/-- Decode a block that is the whole input (45_lz4.md R470, R510). -/
def lz4Decode (inp : List Byte) (cap : Nat) : Except ErrorCode Lz4Output :=
  lz4Sequences inp cap (inp.length + 1) 0 ⟨[], []⟩

/-- The output and SRC_USED of LZ4_DECOMPRESS (45_lz4.md R510). -/
def lz4Decompress (inp : List Byte) (cap : Nat) : Except ErrorCode (List Byte × Nat) :=
  match lz4Decode inp cap with
  | .error e => .error e
  | .ok o => .ok (o.out.reverse, inp.length)

/-! ### Bound and compressor -/

/-- `n + floor(n / 255) + 16` (45_lz4.md R502). -/
def lz4BoundOf (n : Nat) : Nat := n + n / 255 + 16

/-- The end conditions of 45_lz4.md R474 on the matches of an output of `n` bytes: each starts at least
12 bytes before the end and leaves the last 5 bytes to literals (log entry 17). -/
def lz4EndsWell (n : Nat) (spans : List (Nat × Nat)) : Bool :=
  spans.all fun x => decide (x.1 + 12 ≤ n) && decide (x.1 + x.2 + 5 ≤ n)

/-- The admissible set of 45_lz4.md R490; of an empty input only the single byte 00 (R500). Condition 4 holds
of every block that decodes: an offset has two bytes and is not 0. -/
def lz4Admissible (x y : List Byte) : Bool :=
  match lz4Decode y x.length with
  | .error _ => false
  | .ok o => o.out.reverse == x && decide (y.length ≤ lz4BoundOf x.length) && lz4EndsWell x.length o.spans &&
      (!x.isEmpty || y == [0])

/-- The word at the head of the list, least significant byte first (45_lz4.md R481). -/
def wordAt (x : List Byte) : Nat := leValue (x.take 4)

/-- The hash of 45_lz4.md R481. -/
def lz4Hash (w : Nat) : Nat := w * 2654435761 % 2 ^ 32 / 2 ^ 20

/-- The extension bytes written for a length field of value `v` (45_lz4.md R472). -/
def lz4Extend (v : Nat) : List Byte :=
  if v < 15 then [] else List.replicate ((v - 15) / 255) (byteOf 255) ++ [byteOf ((v - 15) % 255)]

/-- The last sequence: literals only (45_lz4.md R495). -/
def lz4LastSeq (lits : List Byte) : List Byte :=
  byteOf (16 * min lits.length 15) :: lz4Extend lits.length ++ lits

/-- A sequence with a match (45_lz4.md R495). -/
def lz4Seq (lits : List Byte) (off ml : Nat) : List Byte :=
  byteOf (16 * min lits.length 15 + min (ml - 4) 15) :: lz4Extend lits.length ++ lits ++ leBytes 2 off ++
    lz4Extend (ml - 4)

/-- The match at position `ip` against position `c`: its length, or 0 where the four bytes differ
(45_lz4.md R495). `stop` is where a match must end. -/
def matchLen (x : List Byte) (c ip stop : Nat) : Nat :=
  let l := commonLen (max 4 (stop - ip)) (x.drop c) (x.drop ip)
  if 4 ≤ l then l else 0

/-- The search loop of 45_lz4.md R495; `table` lists the entries, newest first. -/
def lz4Loop (x : List Byte) : Nat → Nat → Nat → List (Nat × Nat) → List Byte
  | 0, _, anchor, _ => lz4LastSeq (x.drop anchor)
  | fuel + 1, ip, anchor, table =>
    if x.length < ip + 12 then lz4LastSeq (x.drop anchor)
    else
      let h := lz4Hash (wordAt (x.drop ip))
      let l := match table.lookup h with
        | some c => if ip - c ≤ 65535 then matchLen x c ip (x.length - 5) else 0
        | none => 0
      if l = 0 then lz4Loop x fuel (ip + 1) anchor ((h, ip) :: table)
      else
        lz4Seq ((x.drop anchor).take (ip - anchor)) (ip - (table.lookup h).getD 0) l ++
          lz4Loop x fuel (ip + l) (ip + l) ((h, ip) :: table)

/-- `lz4_ref` (45_lz4.md R495). -/
def lz4Ref (x : List Byte) : List Byte :=
  if x.length < 13 then lz4LastSeq x else lz4Loop x x.length 0 0 []

/-! ### Commands -/

/-- LZ4_COMPRESS (45_lz4.md R500); the level has no effect (30_encoding.md R153). -/
def execLz4Compress (_level : BitVec 4) (s : State) : Host.Outcome State Fault Refusal :=
  compressRun none true (fun x => chosenMember (lz4Admissible x) (lz4Ref x) s.members) s

/-- LZ4_DECOMPRESS (45_lz4.md R510). -/
def execLz4Decompress (s : State) : Host.Outcome State Fault Refusal := decompressRun lz4Decompress s

/-- LZ4_BOUND (45_lz4.md R502). -/
def execLz4Bound (s : State) : Host.Outcome State Fault Refusal := boundRun lz4BoundOf s

end Sys2Proof.Machine
end

