-- ==== Sys2Proof/Machine/Snappy.lean ====
section
/-! DEFINITION. The Snappy block codec of 46_snappy.md. -/

namespace Sys2Proof.Machine

/-! ### Decompressor -/

/-- An element of the tag stream (46_snappy.md R521). -/
inductive SnappyElement where
  /-- `len` literal bytes follow. -/
  | literal (len : Nat)
  /-- A copy of `len` bytes from `off` back. -/
  | copy (len off : Nat)
  deriving DecidableEq, Repr

/-- The number of extra bytes after a tag that belong to the element's head (46_snappy.md R521). -/
def snappyExtra (tag : Nat) : Nat :=
  match tag % 4 with
  | 0 => tag / 4 - 59
  | 1 => 1
  | 2 => 2
  | _ => 4

/-- The element of a tag and its extra bytes (46_snappy.md R521). -/
def snappyElement (tag : Nat) (extra : List Byte) : SnappyElement :=
  match tag % 4 with
  | 0 => .literal (if tag / 4 < 60 then tag / 4 + 1 else leValue extra + 1)
  | 1 => .copy (4 + tag / 4 % 8) (tag / 32 * 256 + leValue extra)
  | _ => .copy (tag / 4 + 1) (leValue extra)

/-- The tag stream (46_snappy.md R560), the output last byte first. Each pass consumes a byte. -/
def snappyElements (inp : List Byte) (len : Nat) : Nat → Nat → List Byte → Except ErrorCode (List Byte)
  | 0, _, out => .ok out
  | fuel + 1, ip, out =>
    match inp[ip]? with
    | none => if out.length = len then .ok out else .error .lengthMismatch
    | some tag =>
      let e := snappyExtra tag.toNat
      if inp.length < ip + 1 + e then .error .truncated
      else
        let next := ip + 1 + e
        match snappyElement tag.toNat ((inp.drop (ip + 1)).take e) with
        | .literal l =>
          if inp.length < next + l then .error .truncated
          else if len < out.length + l then .error .lengthMismatch
          else snappyElements inp len fuel (next + l) (((inp.drop next).take l).reverse ++ out)
        | .copy l off =>
          if off = 0 ∨ out.length < off then .error .badOffset
          else if len < out.length + l then .error .lengthMismatch
          else snappyElements inp len fuel next (copyBack off l out)

/-- The output and SRC_USED of SNAPPY_DECOMPRESS (46_snappy.md R560). -/
def snappyDecompress (inp : List Byte) (cap : Nat) : Except ErrorCode (List Byte × Nat) :=
  match readVarint 32 inp 0 with
  | .error e => .error e
  | .ok (len, ip) =>
    if cap < len then .error .dstTooSmall
    else
      match snappyElements inp len (inp.length + 1) ip [] with
      | .error e => .error e
      | .ok out => .ok (out.reverse, inp.length)

/-! ### Bound and compressor -/

/-- `32 + n + floor(n / 6)` (46_snappy.md R552). -/
def snappyBoundOf (n : Nat) : Nat := 32 + n + n / 6

/-- The admissible set of 46_snappy.md R540. -/
def snappyAdmissible (x y : List Byte) : Bool :=
  match snappyDecompress y x.length with
  | .error _ => false
  | .ok (out, _) =>
    out == x && decide (y.length ≤ snappyBoundOf x.length) && y.take (varint x.length).length == varint x.length

/-- The hash of 46_snappy.md R531. -/
def snappyHash (w : Nat) : Nat := w * 0x1E35A7BD % 2 ^ 32 / 2 ^ 18

/-- The least `k` in 1..4 with `v < 256^k` (46_snappy.md R545). -/
def snappyLenBytes (v : Nat) : Nat :=
  if v < 256 then 1 else if v < 256 ^ 2 then 2 else if v < 256 ^ 3 then 3 else 4

/-- `literal(B)`, nothing where `B` is empty (46_snappy.md R545). -/
def snappyLiteral (b : List Byte) : List Byte :=
  if b.isEmpty then []
  else if b.length ≤ 60 then byteOf (4 * (b.length - 1)) :: b
  else
    let k := snappyLenBytes (b.length - 1)
    byteOf (4 * (59 + k)) :: leBytes k (b.length - 1) ++ b

/-- `copy_piece`: the shortest tag for the offset and length (46_snappy.md R545). -/
def snappyCopyPiece (off len : Nat) : List Byte :=
  if 4 ≤ len ∧ len ≤ 11 ∧ off ≤ 2047 then [byteOf (1 + 4 * (len - 4) + 32 * (off / 256)), byteOf (off % 256)]
  else if off ≤ 65535 then byteOf (2 + 4 * (len - 1)) :: leBytes 2 off
  else byteOf (3 + 4 * (len - 1)) :: leBytes 4 off

/-- The `while` loop of `copy` (46_snappy.md R545): the pieces of 64, and what is left. -/
def snappyCopyFrom (off : Nat) : Nat → Nat → List Byte
  | 0, len => snappyCopyPiece off len
  | fuel + 1, len =>
    if 68 ≤ len then snappyCopyPiece off 64 ++ snappyCopyFrom off fuel (len - 64)
    else if 64 < len then snappyCopyPiece off 60 ++ snappyCopyPiece off (len - 60)
    else snappyCopyPiece off len

/-- `copy` (46_snappy.md R545). -/
def snappyCopy (off len : Nat) : List Byte := snappyCopyFrom off len len

/-- The search loop of 46_snappy.md R545; `table` lists the entries, newest first. -/
def snappyLoop (x : List Byte) : Nat → Nat → Nat → List (Nat × Nat) → List Byte
  | 0, _, anchor, _ => snappyLiteral (x.drop anchor)
  | fuel + 1, ip, anchor, table =>
    if x.length < ip + 4 then snappyLiteral (x.drop anchor)
    else
      let h := snappyHash (wordAt (x.drop ip))
      let l := match table.lookup h with
        | some c => if ip - c ≤ 65535 then matchLen x c ip x.length else 0
        | none => 0
      if l = 0 then snappyLoop x fuel (ip + 1) anchor ((h, ip) :: table)
      else
        snappyLiteral ((x.drop anchor).take (ip - anchor)) ++ snappyCopy (ip - (table.lookup h).getD 0) l ++
          snappyLoop x fuel (ip + l) (ip + l) ((h, ip) :: table)

/-- `snappy_ref` (46_snappy.md R545). -/
def snappyRef (x : List Byte) : List Byte := varint x.length ++ snappyLoop x x.length 0 0 []

/-! ### Commands -/

/-- SNAPPY_COMPRESS (46_snappy.md R550); the level has no effect (30_encoding.md R153). -/
def execSnappyCompress (_level : BitVec 4) (s : State) : Host.Outcome State Fault Refusal :=
  compressRun none true (fun x => chosenMember (snappyAdmissible x) (snappyRef x) s.members) s

/-- SNAPPY_DECOMPRESS (46_snappy.md R560). -/
def execSnappyDecompress (s : State) : Host.Outcome State Fault Refusal := decompressRun snappyDecompress s

/-- SNAPPY_BOUND (46_snappy.md R552). -/
def execSnappyBound (s : State) : Host.Outcome State Fault Refusal := boundRun snappyBoundOf s

end Sys2Proof.Machine
end

