-- ==== Sys2Proof/Machine/Transpose.lean ====
section
/-! DEFINITION. The byte-transpose codec of 43_transpose.md: bytes are moved, never interpreted (R371). -/

namespace Sys2Proof.Machine

/-- The bytes with number `i*stride + j`, for every `j` below `outer` in turn and every `i` below
`inner` (43_transpose.md R370). -/
def gather (inp : List Byte) (outer inner : Nat) (stride : Nat) : List Byte :=
  (List.range outer).flatMap fun j => (List.range inner).map fun i => inp.getD (i * stride + j) 0

/-- The transposed stream of `n` values of `size` bytes (43_transpose.md R370, R372). -/
def bssEncode (size n : Nat) (inp : List Byte) : List Byte := gather inp size n size

/-- The values of a transposed stream (43_transpose.md R370, R373). -/
def bssDecode (size n : Nat) (inp : List Byte) : List Byte := gather inp n size n

/-- A transform of `n*size` bytes (43_transpose.md R372, R373). -/
def bssRun (f : Nat → Nat → List Byte → List Byte) (size : BitVec 8) (s : State) : Host.Outcome State Fault Refusal :=
  let p := s.operands
  let n := p.count.toNat
  let total := n * size.toNat
  runCommand (oneShot p (elemError size) [total] total total) s fun s =>
    deliver p.dst (f size.toNat n (s.mem.readBytes p.src.base total)) (s.engine.results.counted total n) s

/-- BSS_ENC (43_transpose.md R372). -/
def execBssEnc (size : BitVec 8) (s : State) : Host.Outcome State Fault Refusal := bssRun bssEncode size s

/-- BSS_DEC (43_transpose.md R373). -/
def execBssDec (size : BitVec 8) (s : State) : Host.Outcome State Fault Refusal := bssRun bssDecode size s

end Sys2Proof.Machine
end

