-- ==== Sys2Proof/Machine/Dispatch.lean ====
section
/-! DEFINITION. One arm per command of 30_encoding.md R155: what the running command does (R171). -/

namespace Sys2Proof.Machine

/-- The command `i` runs on the addressed engine, whose operands are captured: the checks phase from
step 3 on, the execute phase and the completion (30_encoding.md R170, R171; 60_exceptions.md R610). -/
def exec (i : Instr) (s : State) : Host.Outcome State Fault Refusal :=
  match i with
  | .pack8 w => Sys2Proof.Machine.execPack8 w s
  | .unpack8 w => Sys2Proof.Machine.execUnpack8 w s
  | .packBulk w => Sys2Proof.Machine.execPackBulk w s
  | .unpackBulk w => Sys2Proof.Machine.execUnpackBulk w s
  | .bwInit => Sys2Proof.Machine.execBwInit s
  | .bwPutBit => Sys2Proof.Machine.execBwPutBit s
  | .bwPut n => Sys2Proof.Machine.execBwPut n s
  | .bwPut64 n => Sys2Proof.Machine.execBwPut64 n s
  | .bwFlush => Sys2Proof.Machine.execBwFlush s
  | .brInit => Sys2Proof.Machine.execBrInit s
  | .brGetBit => Sys2Proof.Machine.execBrGetBit s
  | .brGet n => Sys2Proof.Machine.execBrGet n s
  | .brGet64 n => Sys2Proof.Machine.execBrGet64 n s
  | .rleEnc w => Sys2Proof.Machine.execRleEnc w s
  | .rleDecInit w => Sys2Proof.Machine.execRleDecInit w s
  | .rleDecGet => Sys2Proof.Machine.execRleDecGet s
  | .rleDecBatch => Sys2Proof.Machine.execRleDecBatch s
  | .rleDecSkip => Sys2Proof.Machine.execRleDecSkip s
  | .rleDecLevels16 w => Sys2Proof.Machine.execRleDecLevels16 w s
  | .deltaEncI32 => Sys2Proof.Machine.execDeltaEncI32 s
  | .deltaEncI64 => Sys2Proof.Machine.execDeltaEncI64 s
  | .deltaDecI32 => Sys2Proof.Machine.execDeltaDecI32 s
  | .deltaDecI64 => Sys2Proof.Machine.execDeltaDecI64 s
  | .bssEnc size => Sys2Proof.Machine.execBssEnc size s
  | .bssDec size => Sys2Proof.Machine.execBssDec size s
  | .deflateCompress level => Sys2Proof.Machine.execDeflateCompress level s
  | .deflateDecompress => Sys2Proof.Machine.execDeflateDecompress s
  | .deflateBound => Sys2Proof.Machine.execDeflateBound s
  | .lz4Compress level => Sys2Proof.Machine.execLz4Compress level s
  | .lz4Decompress => Sys2Proof.Machine.execLz4Decompress s
  | .lz4Bound => Sys2Proof.Machine.execLz4Bound s
  | .snappyCompress level => Sys2Proof.Machine.execSnappyCompress level s
  | .snappyDecompress => Sys2Proof.Machine.execSnappyDecompress s
  | .snappyBound => Sys2Proof.Machine.execSnappyBound s

end Sys2Proof.Machine
end

