-- ==== Sys2Proof/Machine/HostPort.lean ====
section
/-! DEFINITION. The host interface: register reads and writes (10_state.md R50 to R69), host loads and
stores under the host duties (20_memory.md R130, R131; 70_reset_and_hazards.md R711, R712), the choice
of an engine (60_exceptions.md R637) and the reset input. -/

namespace Sys2Proof.Machine

/-! ### The register block -/

/-- The registers of 10_state.md R50. -/
inductive Reg where
  | id | ctrl | status | cmd | srcAddr | srcLen | dstAddr | dstCap | count | value | valueHi
  | resultLen | resultCount | resultVal | resultValHi | srcUsed | error | bwBitpos | brBitpos | session
  | reserved
  deriving DecidableEq, Repr

/-- The register at a byte offset of the block (10_state.md R50). -/
def regAt (off : Nat) : Reg :=
  match off with
  | 0x00 => .id
  | 0x04 => .ctrl
  | 0x08 => .status
  | 0x0C => .cmd
  | 0x10 => .srcAddr
  | 0x14 => .srcLen
  | 0x18 => .dstAddr
  | 0x1C => .dstCap
  | 0x20 => .count
  | 0x24 => .value
  | 0x28 => .valueHi
  | 0x2C => .resultLen
  | 0x30 => .resultCount
  | 0x34 => .resultVal
  | 0x38 => .resultValHi
  | 0x3C => .srcUsed
  | 0x40 => .error
  | 0x44 => .bwBitpos
  | 0x48 => .brBitpos
  | 0x4C => .session
  | _ => .reserved

/-- The register of an access: an aligned 32-bit access inside the block, and nothing else (10_state.md
R51). -/
def regOf (p : Platform) (addr width : Nat) : Option Reg :=
  if width = 4 ∧ p.engineBase ≤ addr ∧ addr < p.engineBase + Config.blockSize ∧ (addr - p.engineBase) % 4 = 0 then
    some (regAt (addr - p.engineBase))
  else none

/-- What a register holds (10_state.md R52 to R69). -/
def Engine.regValue (e : Engine) : Reg → Word
  | .id => Config.idValue
  | .ctrl => if e.irqEn then 2 else 0
  | .status => e.status.word
  | .cmd => e.regs.cmd
  | .srcAddr => e.regs.srcAddr
  | .srcLen => e.regs.srcLen
  | .dstAddr => e.regs.dstAddr
  | .dstCap => e.regs.dstCap
  | .count => e.regs.count
  | .value => e.regs.value
  | .valueHi => e.regs.valueHi
  | .resultLen => e.results.len
  | .resultCount => e.results.count
  | .resultVal => e.results.val
  | .resultValHi => e.results.valHi
  | .srcUsed => e.results.used
  | .error => e.error
  | .bwBitpos => e.bwBitpos
  | .brBitpos => e.brBitpos
  | .session => e.sessionWord
  | .reserved => 0

/-- The registers whose reads are unspecified while BUSY = 1 (70_reset_and_hazards.md R711). -/
def Reg.openWhileBusy : Reg → Bool
  | .resultLen | .resultCount | .resultVal | .resultValHi | .srcUsed | .bwBitpos | .brBitpos | .session => true
  | _ => false

/-- A host read of a register: no register changes (10_state.md R51); while BUSY = 1 some reads are free
values (70_reset_and_hazards.md R711). -/
def readReg (r : Reg) (s : State) : State :=
  if s.engine.status.busy && r.openWhileBusy then
    { s with hostData := some (Config.freeWord s.draws), draws := s.draws + 1 }
  else { s with hostData := some (s.engine.regValue r) }

/-- A write to a parameter register or CMD (10_state.md R55 to R61); other registers keep theirs. -/
def Params.set (p : Params) (r : Reg) (v : Word) : Params :=
  match r with
  | .cmd => { p with cmd := v }
  | .srcAddr => { p with srcAddr := v }
  | .srcLen => { p with srcLen := v }
  | .dstAddr => { p with dstAddr := v }
  | .dstCap => { p with dstCap := v }
  | .count => { p with count := v }
  | .value => { p with value := v }
  | .valueHi => { p with valueHi := v }
  | _ => p

/-- Two running commands conflict where one writes bytes the other reads or writes
(70_reset_and_hazards.md R712 row 7). -/
def conflicts (e f : Engine) : Bool :=
  let meets (x y : Option Extent) := x.any fun a => y.any fun b => a.overlaps b
  meets e.busyDst f.busySrc || meets e.busyDst f.busyDst || meets e.busySrc f.busyDst

/-- START, where no other engine's running command is in conflict (60_exceptions.md R637; log entry 9). -/
def startChecked (irqEn : Bool) (s : State) : Host.Outcome State Fault Refusal :=
  let t := s.start irqEn
  if s.peers.any (conflicts t.engine) then .refused (.hostDuty 7) else .next t

/-- A host write to a register (10_state.md R51 to R69). While BUSY = 1 every write is ignored and sets
STATUS.IGNORED (60_exceptions.md R611). A write to CTRL first stores IRQ_EN, then acts on START (R53). -/
def writeReg (r : Reg) (v : Word) (s : State) : Host.Outcome State Fault Refusal :=
  if s.engine.status.busy then .next { s with engine.status.ignored := true }
  else
    match r with
    | .ctrl =>
      if v.getLsbD 0 then startChecked (v.getLsbD 1) s else .next { s with engine.irqEn := v.getLsbD 1 }
    | .status => .next { s with engine.status := s.engine.status.writeOneToClear v }
    | r => .next { s with engine.regs := s.engine.regs.set r v }

/-! ### Host loads and stores -/

/-- All engines of the machine (60_exceptions.md R637). -/
def State.engines (s : State) : List Engine := s.engine :: s.peers

/-- The duty a store into the extent breaks, if one: rows 1 to 4 of 70_reset_and_hazards.md R712
(20_memory.md R131). -/
def Engine.storeDuty (e : Engine) (x : Extent) : Option Nat :=
  if e.busySrc.any x.overlaps then some 1
  else if e.busyDst.any x.overlaps then some 2
  else if (e.br.active && e.br.extent.overlaps x) || (e.rle.active && e.rle.extent.overlaps x) then some 3
  else if e.bw.active && e.bw.extent.overlaps x then some 4
  else none

/-- The duty a load from the extent breaks, if one: rows 2 and 4 of 70_reset_and_hazards.md R712
(20_memory.md R131). -/
def Engine.loadDuty (e : Engine) (x : Extent) : Option Nat :=
  if e.busyDst.any x.overlaps then some 2
  else if e.bw.active && e.bw.unsettled.overlaps x then some 4
  else none

/-- A host store (20_memory.md R130). -/
def hostStore (addr : Nat) (bytes : List Byte) (s : State) : Host.Outcome State Fault Refusal :=
  let x : Extent := ⟨addr, bytes.length⟩
  if !x.inSpace then .fault (.noSuchAddress addr)
  else
    match s.engines.findSome? fun e => e.storeDuty x with
    | some row => .refused (.hostDuty row)
    | none => .next { s with mem := s.mem.writeBytes addr bytes }

/-- A host load of one byte (20_memory.md R130). -/
def hostLoad (addr : Nat) (s : State) : Host.Outcome State Fault Refusal :=
  let x : Extent := ⟨addr, 1⟩
  if !x.inSpace then .fault (.noSuchAddress addr)
  else
    match s.engines.findSome? fun e => e.loadDuty x with
    | some row => .refused (.hostDuty row)
    | none => .next { s with hostData := some ((s.mem.read addr).zeroExtend 32) }

/-- The host turns to another engine (60_exceptions.md R637; log entry 5). -/
def selectEngine (k : Nat) (s : State) : Host.Outcome State Fault Refusal :=
  match s.peers[k]? with
  | none => .fault (.noSuchEngine k)
  | some e => .next { s with engine := e, peers := s.peers.set k s.engine }

/-- With no host action to come: where the addressed engine is idle, the first other engine that runs a
command gets the turn, so that every started command completes (70_reset_and_hazards.md R721). -/
def State.nextBusy (s : State) : Option Nat :=
  if s.engine.status.busy then none else s.peers.findIdx? fun e => e.status.busy

/-- One action of the host or the platform; the engine's own turn is the machine's step. -/
def hostAction (ev : Event) (s : State) : Host.Outcome State Fault Refusal :=
  match ev with
  | .engineTurn => .next s
  | .select k => selectEngine k s
  | .regWrite addr width v =>
    match regOf s.platform addr width with
    | none => .refused (.registerAccess addr width)
    | some r => writeReg r v s
  | .regRead addr width =>
    match regOf s.platform addr width with
    | none => .refused (.registerAccess addr width)
    | some r => .next (readReg r s)
  | .memStore addr bytes => hostStore addr bytes s
  | .memLoad addr => hostLoad addr s
  | .resetPin => .next (applyReset s)

end Sys2Proof.Machine
end

