-- ==== Sys2Proof/Machine/Step.lean ====
section
/-! DEFINITION. One step of the machine: the next action of the inbox, or the engine's own turn. -/

namespace Sys2Proof.Machine

/-- The engine's turn: a running command completes in this step (20_memory.md R130, 60_exceptions.md
R610, 70_reset_and_hazards.md R722); an idle engine changes nothing (60_exceptions.md R639). -/
def engineTurn (s : State) : Host.Outcome State Fault Refusal :=
  if s.engine.status.busy then
    match fetch s with
    | .ok i => exec i s
    | .error e => .next (rejectWord e s)
  else .next s

/-- One step (log entry 2). How long a command stays BUSY is how many host actions come before the
engine's turn (70_reset_and_hazards.md R720, R721). -/
def step (s : State) : Host.Outcome State Fault Refusal :=
  match s.inbox with
  | [] =>
    match s.nextBusy with
    | none => engineTurn s
    | some k => selectEngine k s
  | .engineTurn :: rest => engineTurn { s with inbox := rest }
  | ev :: rest => hostAction ev { s with inbox := rest }

/-- The state whose next step runs the command with these bits: CMD holds the word, START has been
written, and no host action comes first (30_encoding.md R170; log entry 1). -/
def State.withFetchWord (s : State) (nbits w : Nat) : State :=
  { s with
    inbox := []
    engine := { s.engine with regs := { s.engine.regs with cmd := BitVec.ofNat 32 (w % 2 ^ nbits) } }.start
      s.engine.irqEn }

end Sys2Proof.Machine
end

