-- ==== Sys2Proof/Safety.lean ====
section
/-! DEFINITION. What a sound state is, when a command can run, and how a command leaves the machine: the
words the claims are stated in. -/

namespace Sys2Proof.Machine

/-! ### Sound states -/

/-- The bit-writer record keeps the bounds of 10_state.md R70 and R73. -/
structure BitWriter.Sound (x : BitWriter) : Prop where
  cap_lt : x.cap < Config.sessionLimit
  inSpace : x.base.toNat + x.cap ≤ Config.addrSpace
  bits_length : x.bits.length = x.bitpos
  bitpos_le : x.bitpos ≤ 8 * x.cap
  settled_le : 8 * x.settled ≤ x.bitpos

/-- The bit-reader record keeps the bounds of 10_state.md R71 and R73. -/
structure BitReader.Sound (x : BitReader) : Prop where
  len_lt : x.len < Config.sessionLimit
  inSpace : x.base.toNat + x.len ≤ Config.addrSpace
  bitpos_le : x.bitpos ≤ 8 * x.len

/-- A current run has a value left, a repeat value has the bytes of its width, and the bits of a packed
run lie before `pos` (10_state.md R72, 41_rle.md R272, R273). -/
def RleRun.Sound (w pos : Nat) : RleRun → Prop
  | .none => True
  | .rep r v => 1 ≤ r ∧ v < 256 ^ ceilDiv w 8
  | .packed r d i => 1 ≤ r ∧ 8 * d + (i + r) * w ≤ 8 * pos

/-- The RLE-decoder record keeps the bounds of 10_state.md R72 and R73. -/
structure RleSession.Sound (x : RleSession) : Prop where
  len_lt : x.len < Config.sessionLimit
  inSpace : x.base.toNat + x.len ≤ Config.addrSpace
  w_le : x.w ≤ 32
  pos_le : x.pos ≤ x.len
  run : x.run.Sound x.w x.pos

/-- One engine keeps the laws of 10_state.md R54, R66, R70 to R73 and R78: a command is latched exactly
while BUSY = 1, and then DONE, ERR, ERROR and the results are 0 (30_encoding.md R170) and the latched
registers are the registers (60_exceptions.md R611); ERR goes with an error in ERROR, which only ever
holds a value of 60_exceptions.md R603. -/
structure Engine.Sound (e : Engine) : Prop where
  latched_iff : e.status.busy = e.latched.isSome
  captured : ∀ p, e.latched = some p → p = e.regs
  quiet : e.status.busy = true → e.status.done = false ∧ e.status.err = false ∧ e.error = 0 ∧ e.results = .zero
  err_error : e.status.err = true → e.error ≠ 0
  error_known : e.error = 0 ∨ ∃ c : ErrorCode, e.error = c.value
  writer : e.bw.Sound
  reader : e.br.Sound
  decoder : e.rle.Sound

/-- The invariant of the machine: memory is canonical and inside the address space, no free byte was
drawn with a draw still to come (20_memory.md R108), and every engine is sound. -/
structure Sound (s : State) : Prop where
  mem_wf : s.mem.wf
  cells_lt : ∀ c ∈ s.mem.cells, c.1 < Config.addrSpace
  holes_le : ∀ h ∈ s.mem.holes, h.hi ≤ Config.addrSpace
  tags_lt : ∀ h ∈ s.mem.holes, h.tag < s.draws
  engine : s.engine.Sound
  peers : ∀ e ∈ s.peers, e.Sound

/-! ### When a command can run -/

/-- Every byte of the extent exists and is MEM_ACCESSIBLE (20_memory.md R105). -/
def Usable (s : State) (x : Extent) : Prop :=
  x.base + x.len ≤ 2 ^ 32 ∧ ∀ a, x.contains a = true → s.platform.accessible a = true

/-- No address lies in both extents (20_memory.md R105). -/
def Apart (x y : Extent) : Prop := ∀ a, x.contains a = true → y.contains a = false

/-- The conditions of 30_encoding.md R170 steps 5 to 9 for a one-shot command with a source and a
destination: the extents usable and apart, the computed size below `2^32`, SRC_LEN at least `needSrc`
and DST_CAP at least `needDst`. -/
structure OneShotReady (s : State) (size needSrc needDst : Nat) : Prop where
  src : Usable s s.operands.src
  dst : Usable s s.operands.dst
  apart : Apart s.operands.src s.operands.dst
  size_lt : size < 2 ^ 32
  src_long : needSrc ≤ s.operands.srcLen.toNat
  dst_room : needDst ≤ s.operands.dstCap.toNat

/-! ### What memory holds -/

/-- `MemRead(a, n)` (20_memory.md R101). -/
def Memory.value (m : Memory) (a n : Nat) : Nat := (Finset.range n).sum fun k => (m.read (a + k)).toNat * 256 ^ k

/-- Bit `k` of the bit stream whose bytes start at `base` (20_memory.md R121). -/
def Memory.streamBit (m : Memory) (base k : Nat) : Bool := (m.read (base + k / 8)).getLsbD (k % 8)

/-- The `n` little-endian values of `e` bytes each from address `a` on (20_memory.md R102). -/
def Memory.values (m : Memory) (a e n : Nat) : List Nat := (List.range n).map fun i => m.value (a + e * i) e

/-! ### How a command leaves the machine -/

/-- The engine after a command that ended without error (60_exceptions.md R610): idle, DONE = 1, ERR = 0,
nothing latched, and these results; the rest as it was. -/
def Engine.finished (e : Engine) (r : Results) : Engine :=
  { e with
    latched := none
    status := { e.status with busy := false, done := true, err := false }
    results := r }

/-- Nothing but the addressed engine, buffer memory, the compressors' candidates and the draws differs. -/
def OthersKept (s t : State) : Prop :=
  t.peers = s.peers ∧ t.platform = s.platform ∧ t.inbox = s.inbox ∧ t.hostData = s.hostData

/-- The command answers a next state whose engine is `e`, with the world outside kept. -/
def Ends (i : Instr) (s t : State) (e : Engine) : Prop :=
  exec i s = .next t ∧ t.engine = e ∧ OthersKept s t

/-- Every byte of buffer memory reads as before. -/
def SameMemory (s t : State) : Prop := ∀ a, t.mem.read a = s.mem.read a

/-- Every byte outside the extent reads as before (20_memory.md R107). -/
def SameOutside (s t : State) (x : Extent) : Prop :=
  ∀ a, x.contains a = false → t.mem.read a = s.mem.read a

/-- The command's output: the extent begins with these bytes, and every byte outside it reads as before
(20_memory.md R107, R120). -/
def Holds (s t : State) (x : Extent) (out : List Byte) : Prop :=
  t.mem.readBytes x.base out.length = out ∧ SameOutside s t x

/-- The command ends with this error (60_exceptions.md R602, R610, R613): idle, DONE = ERR = 1, ERROR its
value, the results open, nothing latched; the registers, IRQ_EN and IGNORED as they were. -/
def EndsInError (i : Instr) (s t : State) (c : ErrorCode) : Prop :=
  exec i s = .next t ∧ OthersKept s t ∧ t.engine.error = c.value ∧ t.engine.latched = none ∧
    t.engine.status = { s.engine.status with
      busy := false, done := true, err := true, recovered := t.engine.status.recovered } ∧
    t.engine.regs = s.engine.regs ∧ t.engine.irqEn = s.engine.irqEn

/-- The sessions, STATUS.RECOVERED and buffer memory are as they were (60_exceptions.md R602). -/
def NothingElse (s t : State) : Prop :=
  t.engine.bw = s.engine.bw ∧ t.engine.br = s.engine.br ∧ t.engine.rle = s.engine.rle ∧
    t.engine.status.recovered = s.engine.status.recovered ∧ SameMemory s t

/-! ### Runs -/

/-- The state after `n` steps, where each answers a next state. -/
def stepsFrom : Nat → State → Option State
  | 0, s => some s
  | n + 1, s =>
    match step s with
    | .next t => stepsFrom n t
    | _ => none

end Sys2Proof.Machine
end

