-- ==== Sys2Proof/Certificates/Slice0/Obligations.lean ====
section
/-! DEFINITION. The statements for the provers, from the numbered rules of spec/. -/

section

open Sys2Proof Sys2Proof.Machine

/-! ### The command word -/

/-- Decoding the encoded word of a command gives the command back: no bit of an encoding is dropped
(30_encoding.md R150, R152, R153, R155). -/
def Obligations.DecodeOfEncode : Prop := ∀ i : Instr, decode (encode i) = .ok i

/-- A word that stands for a command is that command's encoded word: no two words stand for one command
(30_encoding.md R150, R155, R157). -/
def Obligations.EncodeOfDecode : Prop := ∀ (w : Word) (i : Instr), decode w = .ok i → encode i = w

/-- The example words of 30_encoding.md R192. -/
def Obligations.ExampleWords : Prop :=
  decode 0x00000401#32 = .ok (.pack8 4) ∧ decode 0x0000280B#32 = .ok (.bwPut64 40) ∧
    decode 0x00000438#32 = .ok (.bssEnc 4) ∧ decode 0x00060040#32 = .ok (.deflateCompress 6) ∧
    decode 0x00000044#32 = .ok (.lz4Compress 0) ∧ decode 0x00000125#32 = .ok (.rleDecLevels16 1)

/-- 30_encoding.md R156: an OP outside the map of R155 is illegal, 222 of the 256 values are, 0x00 among them,
and a running command with such an OP ends with ARGUMENT / ILLEGAL_OP and has no other effect. -/
def Obligations.IllegalOps : Prop :=
  let ops := [0x01, 0x02, 0x03, 0x04, 0x08, 0x09, 0x0A, 0x0B, 0x0C, 0x10, 0x11, 0x12, 0x13, 0x20, 0x21, 0x22, 0x23,
    0x24, 0x25, 0x30, 0x31, 0x32, 0x33, 0x38, 0x39, 0x40, 0x41, 0x42, 0x44, 0x45, 0x46, 0x48, 0x49, 0x4A]
  ((List.range 256).filter fun op => !ops.contains op).length = 222 ∧ ops.contains 0 = false ∧
    (∀ w : Word, decode w = .error .illegalOp ↔ w.toNat % 256 ∉ ops) ∧
    ∀ s : State, s.engine.status.busy = true → s.inbox = [] → s.operands.cmd.toNat % 256 ∉ ops →
      ∃ t, step s = .next t ∧ t.engine.error = 0x0101#32 ∧
        t.engine.status = { s.engine.status with busy := false, done := true, err := true } ∧
        t.engine.regs = s.engine.regs ∧ t.engine.irqEn = s.engine.irqEn ∧ NothingElse s t ∧ OthersKept s t

/-- 30_encoding.md R157: under a legal OP a word is refused exactly where bits 31:20, an unused A (bits 15:8) or
an unused L (bits 19:16) is not 0. -/
def Obligations.ReservedFields : Prop :=
  let usesA := [0x01, 0x02, 0x03, 0x04, 0x0A, 0x0B, 0x12, 0x13, 0x20, 0x21, 0x25, 0x38, 0x39]
  let usesL := [0x40, 0x44, 0x48]
  ∀ w : Word, decode w ≠ .error .illegalOp →
    (decode w = .error .reservedField ↔
      w.toNat / 2 ^ 20 ≠ 0 ∨ (w.toNat % 256 ∉ usesA ∧ w.toNat / 2 ^ 8 % 2 ^ 8 ≠ 0) ∨
        (w.toNat % 256 ∉ usesL ∧ w.toNat / 2 ^ 16 % 2 ^ 4 ≠ 0))

/-- 60_exceptions.md R612: a running command whose word is illegal or reserved ends with its error, DONE and
ERR, with no memory access and no session change. -/
def Obligations.BadWordEndsInError : Prop :=
  ∀ (s : State) (e : DecodeError), s.engine.status.busy = true → s.inbox = [] → decode s.operands.cmd = .error e →
    ∃ t, step s = .next t ∧
      t.engine.error = (match e with | .illegalOp => 0x0101#32 | .reservedField => 0x0201#32) ∧
      t.engine.status = { s.engine.status with busy := false, done := true, err := true } ∧
      t.engine.latched = none ∧ t.engine.regs = s.engine.regs ∧ NothingElse s t ∧ OthersKept s t

/-- 30_encoding.md R158: a used field out of range is BAD_WIDTH, BAD_ELEM_SIZE or BAD_LEVEL, and nothing else
happens. -/
def Obligations.FieldsOutOfRange : Prop :=
  let fails := fun (i : Instr) (c : ErrorCode) => ∀ s : State, ∃ t, EndsInError i s t c ∧ NothingElse s t
  (∀ a : BitVec 8, 32 < a.toNat →
      fails (.pack8 a) .badWidth ∧ fails (.unpack8 a) .badWidth ∧ fails (.packBulk a) .badWidth ∧
        fails (.unpackBulk a) .badWidth ∧ fails (.rleEnc a) .badWidth ∧ fails (.rleDecInit a) .badWidth ∧
        fails (.bwPut a) .badWidth ∧ fails (.brGet a) .badWidth) ∧
    (∀ a : BitVec 8, 64 < a.toNat → fails (.bwPut64 a) .badWidth ∧ fails (.brGet64 a) .badWidth) ∧
    (∀ a : BitVec 8, 16 < a.toNat → fails (.rleDecLevels16 a) .badWidth) ∧
    fails (.bssEnc 0) .badElemSize ∧ fails (.bssDec 0) .badElemSize ∧
    ∀ l : BitVec 4, 9 < l.toNat → fails (.deflateCompress l) .badLevel

/-! ### Steps, reset and the register interface -/

/-- A step runs the decoded command: with BUSY = 1 and no host action first, a step is `exec` of the command the
captured word stands for (30_encoding.md R170, R171). The inbox is the model's own (log entry 2). -/
def Obligations.StepRunsTheCommand : Prop :=
  ∀ (s : State) (i : Instr), s.engine.status.busy = true → decode s.operands.cmd = .ok i →
    (s.inbox = [] → step s = exec i s) ∧
      ∀ rest, s.inbox = .engineTurn :: rest → step s = exec i { s with inbox := rest }

/-- 10_state.md R79: what every register, session and line holds after reset; buffer memory is unspecified, one
free byte for each address. The draw of those free bytes is the model's own (log entry 3). -/
def Obligations.ResetValues : Prop :=
  let e := State.reset.engine
  Config.idValue = 0x43515431#32 ∧ e.irqEn = false ∧ e.status = ⟨false, false, false, false, false⟩ ∧
    e.regs = ⟨0, 0, 0, 0, 0, 0, 0, 0⟩ ∧ e.results = ⟨0, 0, 0, 0, 0⟩ ∧ e.error = 0 ∧
    e.bw = ⟨false, 0, 0, 0, [], 0⟩ ∧ e.br = ⟨false, 0, 0, 0⟩ ∧ e.rle = ⟨false, 0, 0, 0, 0, .none⟩ ∧
    e.latched = none ∧ e.irq = false ∧ ∀ a, a < 2 ^ 32 → ∃ d, State.reset.mem.read a = Config.freeByte d a

/-- The invariant holds after reset. What the invariant says of holes and draws is the model's own (log entry
3). -/
def Obligations.ResetIsSound : Prop := Sound State.reset

/-- Every step keeps the invariant: memory canonical, no free byte drawn twice, every session inside its bounds,
a command latched exactly while BUSY = 1, ERROR always one of the values of 60_exceptions.md R603 (10_state.md
R66, R70 to R73, R78; 20_memory.md R108). Holes and draws are the model's own (log entry 3). -/
def Obligations.StepKeepsSound : Prop := ∀ s t : State, Sound s → step s = .next t → Sound t

/-- 70_reset_and_hazards.md R700, R701: the reset input gives every register and session its reset value; a
running command's destination extent, or a bit-writer put's or flush's unsettled bytes, become unspecified, and
no other byte changes. The model's reading (log entry 16): BW_INIT's destination extent counts, a command whose
checks would fail spoils its extent too, a word that stands for no command spoils nothing, and an extent ends at
2^32. Bytes a command's source and destination share become unspecified too, by the model's choice (log entry
24). -/
def Obligations.ResetInput : Prop :=
  ∀ (s : State) (rest : List Event), s.inbox = .resetPin :: rest →
    ∃ t, step s = .next t ∧ t.engine = Engine.reset ∧ t.engine.irq = false ∧ t.peers = s.peers ∧ t.inbox = rest ∧
      (s.engine.status.busy = false → SameMemory s t) ∧
      (∀ e, decode s.operands.cmd = .error e → SameMemory s t) ∧
      ∀ i, s.engine.status.busy = true → decode s.operands.cmd = .ok i →
        let cut : Option Extent :=
          match i with
          | .bwPutBit | .bwPut _ | .bwPut64 _ | .bwFlush =>
            some ⟨s.engine.bw.base.toNat + s.engine.bw.settled, s.engine.bw.cap - s.engine.bw.settled⟩
          | i => dstExtent s.engine i
        (∀ a, (∀ x, cut = some x → x.contains a = false) → t.mem.read a = s.mem.read a) ∧
          ∀ a x, cut = some x → x.contains a = true → a < 2 ^ 32 → t.mem.read a = Config.freeByte s.draws a

/-- 10_state.md R53: a write to CTRL while idle stores bit 1 into IRQ_EN, then starts the command where bit 0 is
1 (a host that starts it keeps 70_reset_and_hazards.md R712 row 7); CTRL reads IRQ_EN in bit 1 and 0 elsewhere.
START captures the registers, raises BUSY and clears DONE, ERR, ERROR and the results (30_encoding.md R170);
nothing else changes. -/
def Obligations.CtrlRegister : Prop :=
  (∀ (s : State) (rest : List Event) (v : Word), s.inbox = .regWrite (s.platform.engineBase + 0x04) 4 v :: rest →
      s.engine.status.busy = false →
      let run : Engine := { s.engine with
        irqEn := v.getLsbD 1
        latched := some s.engine.regs
        status := ⟨true, false, false, s.engine.status.recovered, s.engine.status.ignored⟩
        error := 0
        results := ⟨0, 0, 0, 0, 0⟩ }
      (v.getLsbD 0 = false → step s = .next { s with
        inbox := rest, engine := { s.engine with irqEn := v.getLsbD 1 } }) ∧
      (v.getLsbD 0 = true →
        (∀ e ∈ s.peers, ∀ x y, run.busyDst = some x → e.busySrc = some y ∨ e.busyDst = some y → Apart x y) →
        (∀ e ∈ s.peers, ∀ x y, run.busySrc = some x → e.busyDst = some y → Apart x y) →
        step s = .next { s with inbox := rest, engine := run })) ∧
    Engine.reset.irqEn = false ∧
    ∀ (s : State) (rest : List Event), s.inbox = .regRead (s.platform.engineBase + 0x04) 4 :: rest →
      step s = .next { s with inbox := rest, hostData := some (if s.engine.irqEn then 2 else 0) }

/-- 60_exceptions.md R611: a register write while BUSY = 1 changes nothing but IGNORED, which becomes 1,
whatever its offset; a STATUS write with bit 4 while idle clears IGNORED, and apart from the reset input no
other action and no command changes it. -/
def Obligations.WritesWhileBusy : Prop :=
  (∀ (s : State) (rest : List Event) (off : Nat) (v : Word), off % 4 = 0 → off ≤ 0xFC →
      s.inbox = .regWrite (s.platform.engineBase + off) 4 v :: rest → s.engine.status.busy = true →
      step s = .next { s with
        inbox := rest, engine := { s.engine with status := { s.engine.status with ignored := true } } }) ∧
    (∀ (s t : State) (rest : List Event) (ev : Event), s.inbox = ev :: rest → ev ≠ .resetPin →
      (∀ k, ev ≠ .select k) → step s = .next t →
      t.engine.status.ignored =
        match ev with
        | .regWrite addr _ v => s.engine.status.busy ||
          s.engine.status.ignored && !(decide (addr = s.platform.engineBase + 0x08) && v.getLsbD 4)
        | _ => s.engine.status.ignored) ∧
    ∀ (i : Instr) (s t : State), exec i s = .next t → t.engine.status.ignored = s.engine.status.ignored

/-- The other registers of 10_state.md R50 while idle: CMD and the parameter registers store what is written,
all 32 bits (R55 to R61); a write to STATUS clears each of DONE, ERR, RECOVERED and IGNORED whose bit is 1
(R54); every other offset ignores the write (R52, R62 to R69). -/
def Obligations.RegisterWrites : Prop :=
  ∀ (s : State) (rest : List Event) (off : Nat) (v : Word), off % 4 = 0 → off ≤ 0xFC → off ≠ 0x04 →
    s.inbox = .regWrite (s.platform.engineBase + off) 4 v :: rest → s.engine.status.busy = false →
    let r := s.engine.regs
    let u := s.engine.status
    step s = .next { s with
      inbox := rest
      engine := { s.engine with
       status :=
        if off = 0x08 then ⟨false, u.done && !v.getLsbD 1, u.err && !v.getLsbD 2, u.recovered && !v.getLsbD 3,
          u.ignored && !v.getLsbD 4⟩
        else u
       regs :=
        if off = 0x0C then { r with cmd := v }
        else if off = 0x10 then { r with srcAddr := v }
        else if off = 0x14 then { r with srcLen := v }
        else if off = 0x18 then { r with dstAddr := v }
        else if off = 0x1C then { r with dstCap := v }
        else if off = 0x20 then { r with count := v }
        else if off = 0x24 then { r with value := v }
        else if off = 0x28 then { r with valueHi := v }
        else r } }

/-- Every register reads as 10_state.md R50 to R69 say while the engine is idle, and a read changes nothing but
what the host holds (R51). `hostData` is the model's own (log entry 7). -/
def Obligations.RegisterReads : Prop :=
  ∀ (s : State) (rest : List Event) (off : Nat), off % 4 = 0 → off ≤ 0xFC →
    s.inbox = .regRead (s.platform.engineBase + off) 4 :: rest → s.engine.status.busy = false →
    let e := s.engine
    step s = .next { s with
      inbox := rest
      hostData := some (
        if off = 0x00 then 0x43515431#32
        else if off = 0x04 then (if e.irqEn then 2 else 0)
        else if off = 0x08 then
          BitVec.ofNat 32 (2 * e.status.done.toNat + 4 * e.status.err.toNat + 8 * e.status.recovered.toNat +
            16 * e.status.ignored.toNat)
        else if off = 0x0C then e.regs.cmd
        else if off = 0x10 then e.regs.srcAddr
        else if off = 0x14 then e.regs.srcLen
        else if off = 0x18 then e.regs.dstAddr
        else if off = 0x1C then e.regs.dstCap
        else if off = 0x20 then e.regs.count
        else if off = 0x24 then e.regs.value
        else if off = 0x28 then e.regs.valueHi
        else if off = 0x2C then e.results.len
        else if off = 0x30 then e.results.count
        else if off = 0x34 then e.results.val
        else if off = 0x38 then e.results.valHi
        else if off = 0x3C then e.results.used
        else if off = 0x40 then e.error
        else if off = 0x44 then (if e.bw.active then BitVec.ofNat 32 e.bw.bitpos else 0)
        else if off = 0x48 then (if e.br.active then BitVec.ofNat 32 e.br.bitpos else 0)
        else if off = 0x4C then
          BitVec.ofNat 32 (e.bw.active.toNat + 2 * e.br.active.toNat + 4 * e.rle.active.toNat)
        else 0) }

/-- 70_reset_and_hazards.md R711: host reads while BUSY = 1, on a sound machine; the reserved offsets read 0 as
10_state.md R69 says. A read never disturbs the command. -/
def Obligations.ReadsWhileBusy : Prop :=
  ∀ (s : State) (rest : List Event) (off : Nat), Sound s → off % 4 = 0 → off ≤ 0xFC →
    s.inbox = .regRead (s.platform.engineBase + off) 4 :: rest → s.engine.status.busy = true →
    let e := s.engine
    ∃ t, step s = .next t ∧ t.engine = s.engine ∧ t.mem = s.mem ∧ t.peers = s.peers ∧
      (off ∈ [0x2C, 0x30, 0x34, 0x38, 0x3C, 0x44, 0x48, 0x4C] → t.hostData = some (Config.freeWord s.draws)) ∧
      (off = 0x00 → t.hostData = some 0x43515431#32) ∧
      (off = 0x04 → t.hostData = some (if e.irqEn then 2 else 0)) ∧
      (off = 0x08 → t.hostData =
        some (BitVec.ofNat 32 (1 + 8 * e.status.recovered.toNat + 16 * e.status.ignored.toNat))) ∧
      (off = 0x0C → t.hostData = some s.operands.cmd) ∧ (off = 0x10 → t.hostData = some s.operands.srcAddr) ∧
      (off = 0x14 → t.hostData = some s.operands.srcLen) ∧ (off = 0x18 → t.hostData = some s.operands.dstAddr) ∧
      (off = 0x1C → t.hostData = some s.operands.dstCap) ∧ (off = 0x20 → t.hostData = some s.operands.count) ∧
      (off = 0x24 → t.hostData = some s.operands.value) ∧ (off = 0x28 → t.hostData = some s.operands.valueHi) ∧
      (off = 0x40 → t.hostData = some 0) ∧ (0x50 ≤ off → t.hostData = some 0)

/-- 10_state.md R51: a register access that is not an aligned 32-bit access inside the block is refused. That
the model stops with this refusal is its own choice (log entry 20). -/
def Obligations.OtherAccessesRefused : Prop :=
  ∀ (s : State) (rest : List Event) (addr width : Nat) (v : Word),
    ¬(width = 4 ∧ ∃ off, off % 4 = 0 ∧ off ≤ 0xFC ∧ addr = s.platform.engineBase + off) →
    (s.inbox = .regWrite addr width v :: rest → step s = .refused (.registerAccess addr width)) ∧
      (s.inbox = .regRead addr width :: rest → step s = .refused (.registerAccess addr width))

/-- 60_exceptions.md R620: irq is DONE and IRQ_EN; it rises in the step that completes a command with IRQ_EN =
1, and falls when the host clears DONE, clears IRQ_EN or writes START; 70_reset_and_hazards.md R722. -/
def Obligations.InterruptOutput : Prop :=
  (∀ e : Engine, e.irq = (e.status.done && e.irqEn)) ∧
    (∀ (i : Instr) (s t : State), exec i s = .next t → t.engine.irq = s.engine.irqEn) ∧
    (∀ (s t : State) (rest : List Event) (v : Word), s.engine.status.busy = false →
      s.inbox = .regWrite (s.platform.engineBase + 0x08) 4 v :: rest → step s = .next t →
      t.engine.irq = (s.engine.irq && !v.getLsbD 1)) ∧
    ∀ (s t : State) (rest : List Event) (v : Word), s.engine.status.busy = false →
      s.inbox = .regWrite (s.platform.engineBase + 0x04) 4 v :: rest → step s = .next t →
      t.engine.irq = (s.engine.status.done && v.getLsbD 1 && !v.getLsbD 0)

/-- A host store outside every busy and active extent stores its bytes and touches no engine; a host load
outside every running command's destination and every active bit writer's unsettled bytes gives the byte: of a
running command's source, of a reader's extent or of a settled byte too (20_memory.md R130, R131;
70_reset_and_hazards.md R712 rows 2, 4 and 9). Loads of one byte at a time are the model's choice (log entries
7, 21); a session command without an active session has no source extent (log entry 23). -/
def Obligations.HostMemoryAccess : Prop :=
  (∀ (s : State) (rest : List Event) (addr : Nat) (bytes : List Byte), addr + bytes.length ≤ 2 ^ 32 →
    s.inbox = .memStore addr bytes :: rest →
    (∀ e ∈ s.engines, (∀ x, e.busySrc = some x → Apart x ⟨addr, bytes.length⟩) ∧
      (∀ x, e.busyDst = some x → Apart x ⟨addr, bytes.length⟩) ∧
      (e.bw.active = true → Apart e.bw.extent ⟨addr, bytes.length⟩) ∧
      (e.br.active = true → Apart e.br.extent ⟨addr, bytes.length⟩) ∧
      (e.rle.active = true → Apart e.rle.extent ⟨addr, bytes.length⟩)) →
    ∃ t, step s = .next t ∧ t.engine = s.engine ∧ t.peers = s.peers ∧ Holds s t ⟨addr, bytes.length⟩ bytes) ∧
    ∀ (s : State) (rest : List Event) (addr : Nat), addr < 2 ^ 32 → s.inbox = .memLoad addr :: rest →
      (∀ e ∈ s.engines, (∀ x, e.busyDst = some x → x.contains addr = false) ∧
        (e.bw.active = true → addr < e.bw.base.toNat + e.bw.settled ∨ e.bw.base.toNat + e.bw.cap ≤ addr)) →
      ∃ t, step s = .next t ∧ t.engine = s.engine ∧ t.peers = s.peers ∧ t.mem = s.mem ∧
        t.hostData = some ((s.mem.read addr).zeroExtend 32)

/-- 20_memory.md R131: the model has no move for a host store that meets a running command's extents or an
active session's extent, nor for a host load of a running command's destination or of an unsettled byte of the
bit writer; nor for a START whose extents meet another running command's where either writes
(70_reset_and_hazards.md R712 rows 1 to 4 and 7). That START is where row 7 is checked is the model's choice
(log entry 9). -/
def Obligations.HostDutiesRefused : Prop :=
  (∀ (s : State) (rest : List Event) (e : Engine), e ∈ s.engines →
    (∀ addr bytes x, s.inbox = .memStore addr bytes :: rest →
      (e.busySrc = some x ∨ e.busyDst = some x ∨ (e.br.active = true ∧ x = e.br.extent) ∨
        (e.rle.active = true ∧ x = e.rle.extent) ∨ (e.bw.active = true ∧ x = e.bw.extent)) →
      ¬Apart x ⟨addr, bytes.length⟩ → ∀ t, step s ≠ .next t) ∧
      ∀ addr x, s.inbox = .memLoad addr :: rest →
        (e.busyDst = some x ∨ (e.bw.active = true ∧
          x = ⟨e.bw.base.toNat + e.bw.settled, e.bw.cap - e.bw.settled⟩)) →
        x.contains addr = true → ∀ t, step s ≠ .next t) ∧
    ∀ (s : State) (rest : List Event) (e : Engine) (v : Word) (x y : Extent), e ∈ s.peers →
      s.inbox = .regWrite (s.platform.engineBase + 0x04) 4 v :: rest → s.engine.status.busy = false →
      v.getLsbD 0 = true →
      let run : Engine := { s.engine with
        latched := some s.engine.regs, status := { s.engine.status with busy := true } }
      (run.busyDst = some x ∧ (e.busySrc = some y ∨ e.busyDst = some y) ∨
        run.busySrc = some x ∧ e.busyDst = some y) →
      ¬Apart x y → ∀ t, step s ≠ .next t

/-- 60_exceptions.md R637: engines share nothing but buffer memory. A step that is not the host turning to
another engine leaves every other engine as it was, what a command does (its engine, memory and all else) does
not depend on the other engines, and turning to one changes no engine and no memory. How the host turns to an
engine, and the fault where there is none, are the model's choice (log entries 5, 10). -/
def Obligations.EnginesShareOnlyMemory : Prop :=
  (∀ (s t : State) (ev : Event) (rest : List Event), s.inbox = ev :: rest → (∀ k, ev ≠ .select k) →
      step s = .next t → t.peers = s.peers) ∧
    (∀ (i : Instr) (s t : State) (others : List Engine), exec i s = .next t →
      exec i { s with peers := others } = .next { t with peers := others }) ∧
    ∀ (s : State) (k : Nat) (rest : List Event), s.inbox = .select k :: rest →
      (s.peers.length ≤ k → step s = .fault (.noSuchEngine k)) ∧
        ∀ e, s.peers[k]? = some e →
          ∃ t, step s = .next t ∧ t.engine = e ∧ t.peers = s.peers.set k s.engine ∧ t.mem = s.mem ∧ t.inbox = rest

/-- 70_reset_and_hazards.md R721: every started command completes after finitely many steps: with no host action
to come, at most two steps for each engine leave none of them busy. Who gets the turn is the model's choice (log
entries 2, 5). -/
def Obligations.EveryStartedCommandCompletes : Prop :=
  ∀ s : State, s.inbox = [] →
    ∃ n t, n ≤ 2 * s.engines.length ∧ stepsFrom n s = some t ∧ ∀ e ∈ t.engines, e.status.busy = false

/-! ### Completion and errors -/

/-- 60_exceptions.md R610: every command completes in one step, with or without error: BUSY = 0, DONE = 1, ERR
exactly where it raised an error, nothing latched; on success ERROR stays; the registers and IRQ_EN stay, and
nothing outside the engine but memory changes. -/
def Obligations.EveryCommandCompletes : Prop :=
  ∀ (i : Instr) (s : State), ∃ t, exec i s = .next t ∧ t.engine.status.busy = false ∧
    t.engine.status.done = true ∧ t.engine.latched = none ∧
    (t.engine.status.err = false → t.engine.error = s.engine.error) ∧
    (t.engine.status.err = true → ∃ c : ErrorCode, t.engine.error = c.value) ∧
    t.engine.regs = s.engine.regs ∧ t.engine.irqEn = s.engine.irqEn ∧ OthersKept s t

/-- The ERROR values of 60_exceptions.md R603, and that no two errors share one. -/
def Obligations.ErrorValues : Prop :=
  ErrorCode.illegalOp.value = 0x0101#32 ∧ ErrorCode.reservedField.value = 0x0201#32 ∧
    ErrorCode.badWidth.value = 0x0301#32 ∧ ErrorCode.badElemSize.value = 0x0401#32 ∧
    ErrorCode.badLevel.value = 0x0501#32 ∧ ErrorCode.noSession.value = 0x0601#32 ∧
    ErrorCode.rangeWrap.value = 0x0701#32 ∧ ErrorCode.srcShort.value = 0x0801#32 ∧
    ErrorCode.overlap.value = 0x0901#32 ∧ ErrorCode.dstTooSmall.value = 0x0102#32 ∧
    ErrorCode.dstOverflow.value = 0x0202#32 ∧ ErrorCode.truncated.value = 0x0103#32 ∧
    ErrorCode.badVarint.value = 0x0203#32 ∧ ErrorCode.badHeader.value = 0x0303#32 ∧
    ErrorCode.badWidthField.value = 0x0403#32 ∧ ErrorCode.badBlockType.value = 0x0503#32 ∧
    ErrorCode.badStoredLen.value = 0x0603#32 ∧ ErrorCode.badHuffmanTable.value = 0x0703#32 ∧
    ErrorCode.badCode.value = 0x0803#32 ∧ ErrorCode.badOffset.value = 0x0903#32 ∧
    ErrorCode.lengthMismatch.value = 0x0A03#32 ∧ ErrorCode.busFault.value = 0x0104#32 ∧
    ∀ c d : ErrorCode, c.value = d.value → c = d

/-- 60_exceptions.md R602, R613: a command that ends in error completes with ERROR = `KIND + 256*CODE`
(`ErrorCode.value`, whose values `ErrorValues` states), its results become unspecified; an error of the checks
phase leaves sessions, memory and RECOVERED as they were, an error of the execute phase leaves everything
outside the destination extent; no session changes, but a MALFORMED error in an RLE session command ends that
session. -/
def Obligations.ErrorEffects : Prop :=
  ∀ (i : Instr) (s t : State), exec i s = .next t → t.engine.status.err = true →
    ∃ c : ErrorCode, EndsInError i s t c ∧ (∃ d, t.engine.results = freeResults d) ∧
      t.engine.bw = s.engine.bw ∧ t.engine.br = s.engine.br ∧
      (c.kind = 1 ∨ c = .busFault ∨ c = .dstTooSmall → NothingElse s t) ∧
      (c.kind = 3 ∨ c = .dstOverflow →
        (∀ a, (∀ x, dstExtent s.engine i = some x → x.contains a = false) → t.mem.read a = s.mem.read a) ∧
        (∀ x a, dstExtent s.engine i = some x → x.contains a = true → ∃ d, t.mem.read a = Config.freeByte d a)) ∧
      if c.kind = 3 ∧ (i = .rleDecGet ∨ i = .rleDecBatch ∨ i = .rleDecSkip) then t.engine.rle.active = false
      else t.engine.rle = s.engine.rle

/-- 20_memory.md R107: bytes outside the destination extent (30_encoding.md R160) are never written, in any
case; so a command without one writes nothing. -/
def Obligations.WritesOnlyTheDestination : Prop :=
  ∀ (i : Instr) (s t : State), s.engine.bw.Sound → exec i s = .next t →
    ∀ a, (∀ x, dstExtent s.engine i = some x → x.contains a = false) → t.mem.read a = s.mem.read a

/-- 20_memory.md R104: a command reads buffer memory only inside its source extent (30_encoding.md R160). Other
contents elsewhere give the same engine afterwards, and every byte is either changed alike or left alone in
both. -/
def Obligations.ReadsOnlyTheSource : Prop :=
  ∀ (i : Instr) (s t : State) (m : Memory),
    (∀ x, srcExtent s.engine i = some x → ∀ a, x.contains a = true → m.read a = s.mem.read a) →
    exec i s = .next t →
    ∃ t', exec i { s with mem := m } = .next t' ∧ t'.engine = t.engine ∧
      ∀ a, t'.mem.read a = t.mem.read a ∨ (t'.mem.read a = m.read a ∧ t.mem.read a = s.mem.read a)

/-- 10_state.md R73: a command that is not of a session's family neither reads nor changes that session. -/
def Obligations.SessionsIndependent : Prop :=
  (∀ (i : Instr) (s t : State) (x : BitWriter),
      i ≠ .bwInit → i ≠ .bwPutBit → (∀ n, i ≠ .bwPut n) → (∀ n, i ≠ .bwPut64 n) → i ≠ .bwFlush →
      exec i s = .next t →
      exec i { s with engine := { s.engine with bw := x } } = .next { t with engine := { t.engine with bw := x } }) ∧
    (∀ (i : Instr) (s t : State) (x : BitReader),
      i ≠ .brInit → i ≠ .brGetBit → (∀ n, i ≠ .brGet n) → (∀ n, i ≠ .brGet64 n) → exec i s = .next t →
      exec i { s with engine := { s.engine with br := x } } = .next { t with engine := { t.engine with br := x } }) ∧
    ∀ (i : Instr) (s t : State) (x : RleSession),
      (∀ w, i ≠ .rleDecInit w) → i ≠ .rleDecGet → i ≠ .rleDecBatch → i ≠ .rleDecSkip → exec i s = .next t →
      exec i { s with engine := { s.engine with rle := x } } = .next { t with engine := { t.engine with rle := x } }

/-- 30_encoding.md R160, 70_reset_and_hazards.md R704: a session command whose session is not active ends with
ARGUMENT / NO_SESSION and does nothing else. -/
def Obligations.SessionRequired : Prop :=
  let fails := fun (i : Instr) (s : State) => ∃ t, EndsInError i s t .noSession ∧ NothingElse s t
  ∀ (s : State) (n : BitVec 8),
    (s.engine.bw.active = false → fails .bwPutBit s ∧ (n.toNat ≤ 32 → fails (.bwPut n) s) ∧
      (n.toNat ≤ 64 → fails (.bwPut64 n) s) ∧ fails .bwFlush s) ∧
    (s.engine.br.active = false → fails .brGetBit s ∧ (n.toNat ≤ 32 → fails (.brGet n) s) ∧
      (n.toNat ≤ 64 → fails (.brGet64 n) s)) ∧
    (s.engine.rle.active = false → fails .rleDecGet s ∧ fails .rleDecBatch s ∧ fails .rleDecSkip s)

/-- 30_encoding.md R170, 60_exceptions.md R605: PACK_BULK's checks in their order, each error raised exactly
where its condition is the first to hold. -/
def Obligations.CheckOrder : Prop :=
  ∀ (w : BitVec 8) (s : State),
    let p := s.operands
    let n := p.count.toNat
    let fails := fun (c : ErrorCode) => ∃ t, EndsInError (.packBulk w) s t c ∧ NothingElse s t
    (32 < w.toNat → fails .badWidth) ∧
    (w.toNat ≤ 32 →
      (2 ^ 32 < p.srcAddr.toNat + p.srcLen.toNat ∨ 2 ^ 32 < p.dstAddr.toNat + p.dstCap.toNat ∨ 2 ^ 32 ≤ 4 * n →
        fails .rangeWrap) ∧
      (p.srcAddr.toNat + p.srcLen.toNat ≤ 2 ^ 32 → p.dstAddr.toNat + p.dstCap.toNat ≤ 2 ^ 32 → 4 * n < 2 ^ 32 →
        (p.srcLen.toNat < 4 * n → fails .srcShort) ∧
        (4 * n ≤ p.srcLen.toNat →
          (¬Apart p.src p.dst → fails .overlap) ∧
          (Apart p.src p.dst →
            (¬(Usable s p.src ∧ Usable s p.dst) → fails .busFault) ∧
            (Usable s p.src ∧ Usable s p.dst →
              (8 * p.dstCap.toNat < n * w.toNat → fails .dstTooSmall) ∧
              (n * w.toNat ≤ 8 * p.dstCap.toNat →
                ∃ t, exec (.packBulk w) s = .next t ∧ t.engine.status.err = false))))))

/-- 20_memory.md R120: an encoder's or compressor's output longer than DST_CAP ends with CAPACITY / DST_OVERFLOW
(44_deflate.md R441, 45_lz4.md R500, 46_snappy.md R550). Which member a compressor writes comes from the model's
own `members` (log entry 6). -/
def Obligations.OutputTooLong : Prop :=
  ∀ s : State,
    let p := s.operands
    let n := p.count.toNat
    let x := s.mem.readBytes p.src.base p.src.len
    let fails := fun (i : Instr) (out : List Byte) =>
      p.dstCap.toNat < out.length → ∃ t, EndsInError i s t .dstOverflow ∧ SameOutside s t p.dst
    (∀ w : BitVec 8, w.toNat ≤ 32 → OneShotReady s (4 * n) (4 * n) 0 →
      fails (.rleEnc w) (rleEncode w.toNat (s.mem.values p.src.base 4 n))) ∧
    (OneShotReady s (4 * n) (4 * n) 0 → fails .deltaEncI32 (deltaEncode 32 (s.mem.values p.src.base 4 n))) ∧
    (OneShotReady s (8 * n) (8 * n) 0 → fails .deltaEncI64 (deltaEncode 64 (s.mem.values p.src.base 8 n))) ∧
    (OneShotReady s 0 0 0 →
      (∀ l : BitVec 4, l.toNat ≤ 9 → fails (.deflateCompress l) (deflateMember l.toNat s.members x)) ∧
      (∀ l : BitVec 4, fails (.lz4Compress l) (chosenMember (lz4Admissible x) (lz4Ref x) s.members)) ∧
      ∀ l : BitVec 4, fails (.snappyCompress l) (chosenMember (snappyAdmissible x) (snappyRef x) s.members))

/-! ### Bit primitives -/

/-- PACK8 and PACK_BULK complete (40_bitpack.md R210, R212): bit `j` of value `i` becomes bit `i*w + j` of the
destination's bit stream, the pad bits are 0, and the results say how much was read and written. -/
def Obligations.PackCommands : Prop :=
  ∀ (w : BitVec 8) (s : State),
    let p := s.operands
    let packs := fun (i : Instr) (n : Nat) =>
      let m := (n * w.toNat + 7) / 8
      ∃ t, Ends i s t (s.engine.finished { s.engine.results with
          len := BitVec.ofNat 32 m, used := BitVec.ofNat 32 (4 * n), count := BitVec.ofNat 32 n }) ∧
        SameOutside s t p.dst ∧
        (∀ k j, k < n → j < w.toNat → t.mem.streamBit p.dstAddr.toNat (k * w.toNat + j) =
          (s.mem.value (p.srcAddr.toNat + 4 * k) 4).testBit j) ∧
        ∀ b, n * w.toNat ≤ b → b < 8 * m → t.mem.streamBit p.dstAddr.toNat b = false
    w.toNat ≤ 32 →
      (OneShotReady s 0 32 w.toNat → packs (.pack8 w) 8) ∧
      ∀ n, n = p.count.toNat → OneShotReady s (4 * n) (4 * n) ((n * w.toNat + 7) / 8) → packs (.packBulk w) n

/-- UNPACK8 and UNPACK_BULK complete (40_bitpack.md R211, R213): word `i` of the destination has bits `i*w ..
i*w + w - 1` of the source's bit stream as its low bits and 0 above them. -/
def Obligations.UnpackCommands : Prop :=
  ∀ (w : BitVec 8) (s : State),
    let p := s.operands
    let unpacks := fun (i : Instr) (n : Nat) =>
      ∃ t, Ends i s t (s.engine.finished { s.engine.results with
          len := BitVec.ofNat 32 (4 * n), used := BitVec.ofNat 32 ((n * w.toNat + 7) / 8)
          count := BitVec.ofNat 32 n }) ∧
        SameOutside s t p.dst ∧
        ∀ k j, k < n → j < 32 → (t.mem.value (p.dstAddr.toNat + 4 * k) 4).testBit j =
          (decide (j < w.toNat) && s.mem.streamBit p.srcAddr.toNat (k * w.toNat + j))
    w.toNat ≤ 32 →
      (OneShotReady s 0 w.toNat 32 → unpacks (.unpack8 w) 8) ∧
      ∀ n, n = p.count.toNat → OneShotReady s (4 * n) ((n * w.toNat + 7) / 8) (4 * n) → unpacks (.unpackBulk w) n

/-- 40_bitpack.md R201: bit `j` of value `i` is bit `i*w + j` of the packed string and the pad bits are 0;
unpacking undoes packing up to the width, and packing undoes unpacking of a byte string of the right length
whose pad bits are 0. -/
def Obligations.PackUnpackInverse : Prop :=
  (∀ (w : Nat) (vs : List Nat), (packBits w vs).length = (vs.length * w + 7) / 8 ∧
      (∀ k, vs.length * w ≤ k → k < 8 * (packBits w vs).length →
        ((packBits w vs).getD (k / 8) 0).getLsbD (k % 8) = false) ∧
      (∀ i j, i < vs.length → j < w →
        ((packBits w vs).getD ((i * w + j) / 8) 0).getLsbD ((i * w + j) % 8) = (vs.getD i 0).testBit j) ∧
      unpackBits (packBits w vs) vs.length w = vs.map (· % 2 ^ w)) ∧
    (∀ (w n : Nat) (bs : List Byte), (unpackBits bs n w).length = n ∧ (∀ v ∈ unpackBits bs n w, v < 2 ^ w) ∧
      ∀ i j, i < n → j < w →
        ((unpackBits bs n w).getD i 0).testBit j = (bs.getD ((i * w + j) / 8) 0).getLsbD ((i * w + j) % 8)) ∧
    ∀ (w n : Nat) (bs : List Byte), bs.length = (n * w + 7) / 8 →
      (∀ k, n * w ≤ k → k < 8 * bs.length → (bs.getD (k / 8) 0).getLsbD (k % 8) = false) →
      packBits w (unpackBits bs n w) = bs

/-- BW_INIT, BR_INIT and RLE_DEC_INIT complete (40_bitpack.md R220, R230; 41_rle.md R280): a fresh session on
the extent; no result register changes, and no byte outside the bit writer's extent. -/
def Obligations.SessionInits : Prop :=
  ∀ s : State,
    let p := s.operands
    let e := s.engine.finished s.engine.results
    (Usable s p.dst → p.dstCap.toNat < 2 ^ 29 →
      ∃ t, Ends .bwInit s t { e with bw := ⟨true, p.dstAddr, p.dstCap.toNat, 0, [], 0⟩ } ∧ SameOutside s t p.dst) ∧
    (Usable s p.src → p.srcLen.toNat < 2 ^ 29 →
      (∃ t, Ends .brInit s t { e with br := ⟨true, p.srcAddr, p.srcLen.toNat, 0⟩ } ∧ SameMemory s t) ∧
      ∀ w : BitVec 8, w.toNat ≤ 32 →
        ∃ t, Ends (.rleDecInit w) s t { e with rle := ⟨true, p.srcAddr, p.srcLen.toNat, w.toNat, 0, .none⟩ } ∧
          SameMemory s t)

/-- BW_PUT_BIT, BW_PUT and BW_PUT64 complete where there is room (40_bitpack.md R221 to R223): bit 0 of the
operand first, `n` bits are appended, and only bytes not settled may change (R224). Without room the put is
CAPACITY / DST_TOO_SMALL and nothing else changes. Which bytes a put makes unspecified is log entry 12. -/
def Obligations.WriterPuts : Prop :=
  ∀ s : State, s.engine.bw.active = true →
    let b := s.engine.bw
    let puts := fun (i : Instr) (n v : Nat) =>
      (b.bitpos + n ≤ 8 * b.cap →
        ∃ t, Ends i s t { s.engine.finished s.engine.results with
            bw := { b with bitpos := b.bitpos + n, bits := b.bits ++ (List.range n).map fun j => v.testBit j } } ∧
          SameOutside s t ⟨b.base.toNat + b.settled, b.cap - b.settled⟩) ∧
      (8 * b.cap < b.bitpos + n → ∃ t, EndsInError i s t .dstTooSmall ∧ NothingElse s t)
    puts .bwPutBit 1 s.operands.value.toNat ∧
      (∀ n : BitVec 8, n.toNat ≤ 32 → puts (.bwPut n) n.toNat s.operands.value.toNat) ∧
      ∀ n : BitVec 8, n.toNat ≤ 64 →
        puts (.bwPut64 n) n.toNat (s.operands.valueHi.toNat * 2 ^ 32 + s.operands.value.toNat)

/-- BW_FLUSH completes (40_bitpack.md R225): the stream is padded with 0 bits to a byte boundary, the bytes from
the old `settled` to the new one hold it, RESULT_LEN is the new `settled`, and no other byte changes
(70_reset_and_hazards.md R715). -/
def Obligations.WriterFlush : Prop :=
  ∀ s : State, s.engine.bw.active = true → s.engine.bw.Sound →
    let b := s.engine.bw
    let pad := (8 - b.bitpos % 8) % 8
    let bits := b.bits ++ List.replicate pad false
    let m := (b.bitpos + pad) / 8
    ∃ t, Ends .bwFlush s t { s.engine.finished { s.engine.results with len := BitVec.ofNat 32 m } with
        bw := { b with bitpos := b.bitpos + pad, bits := bits, settled := m } } ∧
      (∀ k j, b.settled ≤ k → k < m → j < 8 →
        (t.mem.read (b.base.toNat + k)).getLsbD j = bits.getD (8 * k + j) false) ∧
      SameOutside s t ⟨b.base.toNat + b.settled, m - b.settled⟩

/-- BR_GET_BIT, BR_GET and BR_GET64 complete (40_bitpack.md R231 to R235): the next `k` bits of the stream,
where `k` is `n` or what remains, the first in bit 0; exhaustion is no error. -/
def Obligations.ReaderGets : Prop :=
  ∀ s : State, s.engine.br.active = true →
    let b := s.engine.br
    let gets := fun (i : Instr) (n : Nat) =>
      let k := min n (8 * b.len - b.bitpos)
      ∃ t v, v < 2 ^ k ∧ (∀ j, j < k → v.testBit j = s.mem.streamBit b.base.toNat (b.bitpos + j)) ∧
        Ends i s t { s.engine.finished { s.engine.results with
            val := BitVec.ofNat 32 (v % 2 ^ 32), valHi := BitVec.ofNat 32 (v / 2 ^ 32)
            count := BitVec.ofNat 32 k } with
          br := { b with bitpos := b.bitpos + k } } ∧ SameMemory s t
    gets .brGetBit 1 ∧ (∀ n : BitVec 8, n.toNat ≤ 32 → gets (.brGet n) n.toNat) ∧
      ∀ n : BitVec 8, n.toNat ≤ 64 → gets (.brGet64 n) n.toNat

/-- 40_bitpack.md R236: the bit writer and the bit reader are inverse, on the bytes a flush of the session
writes: reading `n_i` bits after the bits put before gives `v_i mod 2^(n_i)`. -/
def Obligations.WriterReaderInverse : Prop :=
  ∀ (base : Word) (cap : Nat) (before after : List (Nat × Nat)) (v n : Nat),
    let put := fun (x : BitWriter) (p : Nat × Nat) => x.put p.2 p.1
    let x := (before ++ (v, n) :: after).foldl put ⟨true, base, cap, 0, [], 0⟩
    getBits x.flushBytes ((before.map Prod.snd).sum) n = v % 2 ^ n ∧
      (before.map Prod.snd).sum + n ≤ 8 * x.flushBytes.length ∧ x.flushBytes.length = x.flushed.settled

/-! ### RLE hybrid -/

/-- RLE_ENC completes where its output fits (41_rle.md R270): the destination begins with the encoded stream of
the values. -/
def Obligations.RleEncodeCommand : Prop :=
  ∀ (w : BitVec 8) (s : State),
    let p := s.operands
    let n := p.count.toNat
    let out := rleEncode w.toNat (s.mem.values p.srcAddr.toNat 4 n)
    w.toNat ≤ 32 → OneShotReady s (4 * n) (4 * n) 0 → out.length ≤ p.dstCap.toNat →
    ∃ t, Ends (.rleEnc w) s t (s.engine.finished { s.engine.results with
        len := BitVec.ofNat 32 out.length, used := BitVec.ofNat 32 (4 * n), count := p.count }) ∧
      Holds s t p.dst out

/-- 41_rle.md R290: a decoder over the encoded stream, asked for the number of values encoded, gives every value
cut to the width, with no error, no END before and no zero-count run; asked for more, it goes on with fewer than
8 pad zeros and then meets END. -/
def Obligations.RleRoundTrip : Prop :=
  ∀ (w : Nat) (vs : List Nat), w ≤ 32 →
    ∃ pad, pad < 8 ∧ ∀ max, ∃ c,
      nextValues w (rleEncode w vs) max ⟨0, .none, false⟩ =
        (.ok ((vs.map (· % 2 ^ w) ++ List.replicate pad 0).take max), c) ∧ c.recovered = false

/-- RLE_DEC_GET completes on a current run and at END (41_rle.md R273, R274, R284). -/
def Obligations.RleGet : Prop :=
  ∀ s : State, s.engine.rle.active = true →
    let x := s.engine.rle
    let gives := fun (count v : Nat) (run : RleRun) =>
      ∃ t, Ends .rleDecGet s t { s.engine.finished { s.engine.results with
          count := BitVec.ofNat 32 count, val := BitVec.ofNat 32 v, valHi := 0, used := BitVec.ofNat 32 x.pos } with
        rle := { x with run := run } } ∧ SameMemory s t
    (∀ r v, x.run = .rep r v → gives 1 v (if r ≤ 1 then .none else .rep (r - 1) v)) ∧
      (∀ r d k, x.run = .packed r d k → 8 * d + (k + 1) * x.w ≤ 8 * x.len →
        ∃ v, v < 2 ^ x.w ∧
          (∀ j, j < x.w → v.testBit j = s.mem.streamBit x.base.toNat (8 * d + k * x.w + j)) ∧
          gives 1 v (if r ≤ 1 then .none else .packed (r - 1) d (k + 1))) ∧
      (x.run = .none → x.len ≤ x.pos → gives 0 0 .none)

/-- RLE_DEC_GET, RLE_DEC_BATCH and RLE_DEC_SKIP (41_rle.md R281, R283 to R286). Where the run headers they reach
are well-formed they complete: the values of the stream from the session's cursor on, the session moved,
RECOVERED set where a zero-count run was skipped. A malformed header ends the command with its error and ends
the session. That the rest of an ended session's record is kept is log entry 15; that RLE_DEC_SKIP has no size
limit on COUNT is log entry 14. -/
def Obligations.RleSessionCommands : Prop :=
  ∀ (s : State) (max : Nat) (c : RleCursor), s.engine.rle.active = true →
    let p := s.operands
    let x := s.engine.rle
    let found := nextValues x.w (s.mem.readBytes x.base.toNat x.len) max ⟨x.pos, x.run, false⟩
    let moved := { s.engine with
      status := { s.engine.status with recovered := s.engine.status.recovered || c.recovered }
      rle := { x with pos := c.pos, run := c.run } }
    let results := fun (vs : List Nat) =>
      { s.engine.results with used := BitVec.ofNat 32 c.pos, count := BitVec.ofNat 32 vs.length }
    let stops := fun (i : Instr) (e : ErrorCode) (t : State) => EndsInError i s t e ∧
      t.engine.rle = { x with active := false } ∧ t.engine.bw = s.engine.bw ∧ t.engine.br = s.engine.br
    (∀ vs, found = (.ok vs, c) →
      (max = 1 → ∃ t, Ends .rleDecGet s t
          (moved.finished { results vs with val := BitVec.ofNat 32 (vs.headD 0), valHi := 0 }) ∧ SameMemory s t) ∧
      (max = p.count.toNat → ∃ t, Ends .rleDecSkip s t (moved.finished (results vs)) ∧ SameMemory s t) ∧
      (max = p.count.toNat → Usable s p.dst → Apart x.extent p.dst → 4 * max < 2 ^ 32 → 4 * max ≤ p.dstCap.toNat →
        ∃ t, Ends .rleDecBatch s t
            (moved.finished { results vs with len := BitVec.ofNat 32 (4 * vs.length) }) ∧
          Holds s t p.dst (vs.flatMap (leBytes 4)))) ∧
    ∀ e, found = (.error e, c) →
      (max = 1 → ∃ t, stops .rleDecGet e t ∧ SameMemory s t) ∧
      (max = p.count.toNat → ∃ t, stops .rleDecSkip e t ∧ SameMemory s t) ∧
      (max = p.count.toNat → Usable s p.dst → Apart x.extent p.dst → 4 * max < 2 ^ 32 → 4 * max ≤ p.dstCap.toNat →
        ∃ t, stops .rleDecBatch e t ∧ SameOutside s t p.dst)

/-- 41_rle.md R275: a run of count 0 is skipped with its data, remembered, and the next header is read; it is no
error and gives no value. -/
def Obligations.RleZeroRun : Prop :=
  ∀ (w pos p h : Nat) (inp : List Byte) (max : Nat) (skipped : Bool), pos < inp.length →
    readVarint 32 inp pos = .ok (h, p) → h ≤ 1 → (h = 0 → p + (w + 7) / 8 ≤ inp.length) → p ≤ inp.length →
    nextValues w inp (max + 1) ⟨pos, .none, skipped⟩ =
      nextValues w inp (max + 1) ⟨if h = 0 then p + (w + 7) / 8 else p, .none, true⟩

/-- RLE_DEC_LEVELS16 completes where its headers are well-formed (41_rle.md R287): the values from the start of
the source as 16-bit words; `sess.RLE` is not touched. -/
def Obligations.RleLevels : Prop :=
  ∀ (w : BitVec 8) (s : State) (vs : List Nat) (c : RleCursor),
    let p := s.operands
    let max := p.count.toNat
    w.toNat ≤ 16 → OneShotReady s (2 * max) 0 (2 * max) →
    nextValues w.toNat (s.mem.readBytes p.srcAddr.toNat p.srcLen.toNat) max ⟨0, .none, false⟩ = (.ok vs, c) →
    ∃ t, Ends (.rleDecLevels16 w) s t
        ({ s.engine with status := { s.engine.status with recovered := s.engine.status.recovered || c.recovered }
          }.finished { s.engine.results with
            len := BitVec.ofNat 32 (2 * vs.length), used := BitVec.ofNat 32 c.pos
            count := BitVec.ofNat 32 vs.length }) ∧
      Holds s t p.dst (vs.flatMap (leBytes 2))

/-! ### Shared formats -/

/-- 20_memory.md R123, R124: decoding gives back an encoded varint that fits its width, whatever follows. -/
def Obligations.VarintRoundTrip : Prop :=
  ∀ (V u : Nat) (before after : List Byte), V = 32 ∨ V = 64 → u < 2 ^ V →
    readVarint V (before ++ varint u ++ after) before.length = .ok (u, before.length + (varint u).length)

/-- 20_memory.md R125: zig-zag maps the `W`-bit patterns of 0, -1, 1, -2, 2 and so on to 0, 1, 2, 3, 4 and so
on, and decoding undoes it. -/
def Obligations.ZigZag : Prop :=
  ∀ W u : Nat, W = 32 ∨ W = 64 → u < 2 ^ W →
    unzigzag W (zigzag W u) = u ∧
      (zigzag W u : Int) = if 0 ≤ signedOf W u then 2 * signedOf W u else -2 * signedOf W u - 1

/-! ### Delta -/

/-- DELTA_ENC_I32 and DELTA_ENC_I64 complete where the output fits (42_delta.md R330, R331). -/
def Obligations.DeltaEncodeCommands : Prop :=
  ∀ s : State,
    let p := s.operands
    let n := p.count.toNat
    let encodes := fun (i : Instr) (W E : Nat) =>
      let out := deltaEncode W (s.mem.values p.srcAddr.toNat E n)
      OneShotReady s (E * n) (E * n) 0 → out.length ≤ p.dstCap.toNat →
      ∃ t, Ends i s t (s.engine.finished { s.engine.results with
          len := BitVec.ofNat 32 out.length, used := BitVec.ofNat 32 (E * n), count := p.count }) ∧
        Holds s t p.dst out
    encodes .deltaEncI32 32 4 ∧ encodes .deltaEncI64 64 8

/-- DELTA_DEC_I32 and DELTA_DEC_I64 complete on a well-formed stream with room (42_delta.md R340, R341): the
smaller of COUNT and the declared total is the number of values; too little room is DST_TOO_SMALL before any
write. A product of `2^32` or more is that error too (log entry 19). -/
def Obligations.DeltaDecodeCommands : Prop :=
  ∀ (s : State) (h : DeltaHeader) (vs : List Nat) (used : Nat),
    let p := s.operands
    let inp := s.mem.readBytes p.srcAddr.toNat p.srcLen.toNat
    let outn := min p.count.toNat h.total
    let decodes := fun (i : Instr) (W E : Nat) =>
      deltaHeader W inp = .ok h →
      (p.dstCap.toNat < E * outn → ∃ t, EndsInError i s t .dstTooSmall ∧ NothingElse s t) ∧
      (E * outn ≤ p.dstCap.toNat → deltaValues W h inp outn = .ok (vs, used) →
        ∃ t, Ends i s t (s.engine.finished { s.engine.results with
            len := BitVec.ofNat 32 (E * outn), used := BitVec.ofNat 32 used, count := BitVec.ofNat 32 outn }) ∧
          Holds s t p.dst (vs.flatMap (leBytes E)))
    OneShotReady s 0 0 0 → decodes .deltaDecI32 32 4 ∧ decodes .deltaDecI64 64 8

/-- 42_delta.md R345: decoding the encoded stream of a list of `W`-bit values, asked for at least as many, gives
the list back, and the whole stream is used. -/
def Obligations.DeltaRoundTrip : Prop :=
  ∀ (W : Nat) (vs : List Nat), W = 32 ∨ W = 64 → (∀ v ∈ vs, v < 2 ^ W) → vs.length < 2 ^ 32 →
    ∃ h, deltaHeader W (deltaEncode W vs) = .ok h ∧ h.total = vs.length ∧
      deltaValues W h (deltaEncode W vs) vs.length = .ok (vs, (deltaEncode W vs).length)

/-! ### Byte transpose -/

/-- BSS_ENC and BSS_DEC complete (43_transpose.md R372, R373): byte `b` of value `i` is byte `b*N + i` of the
transposed stream. -/
def Obligations.TransposeCommands : Prop :=
  ∀ (size : BitVec 8) (s : State),
    let p := s.operands
    let n := p.count.toNat
    let total := n * size.toNat
    let moves := fun (i : Instr) (P : State → Prop) =>
      ∃ t, Ends i s t (s.engine.finished { s.engine.results with
          len := BitVec.ofNat 32 total, used := BitVec.ofNat 32 total, count := p.count }) ∧
        SameOutside s t p.dst ∧ P t
    1 ≤ size.toNat → OneShotReady s total total total →
      moves (.bssEnc size) (fun t => ∀ i b, i < n → b < size.toNat →
        t.mem.read (p.dstAddr.toNat + (b * n + i)) = s.mem.read (p.srcAddr.toNat + (i * size.toNat + b))) ∧
      moves (.bssDec size) (fun t => ∀ i b, i < n → b < size.toNat →
        t.mem.read (p.dstAddr.toNat + (i * size.toNat + b)) = s.mem.read (p.srcAddr.toNat + (b * n + i)))

/-- 43_transpose.md R374: the two transforms are inverse in both orders, and keep the length. -/
def Obligations.TransposeInverse : Prop :=
  ∀ (size n : Nat) (x : List Byte), 1 ≤ size → x.length = n * size →
    bssDecode size n (bssEncode size n x) = x ∧ bssEncode size n (bssDecode size n x) = x ∧
      (bssEncode size n x).length = n * size ∧ (bssDecode size n x).length = n * size

/-! ### The block compressors -/

/-- The three compress commands complete where the member written fits (44_deflate.md R440, R460; 45_lz4.md
R500; 46_snappy.md R550): RESULT_LEN is its length, SRC_USED is SRC_LEN; DEFLATE level 0 is the stored stream,
and of an empty input LZ4 and Snappy write the single byte 00. Which member is written comes from the model's
own `members` (log entry 6). -/
def Obligations.CompressCommands : Prop :=
  ∀ (s : State) (level : BitVec 4),
    let p := s.operands
    let x := s.mem.readBytes p.srcAddr.toNat p.srcLen.toNat
    let writes := fun (i : Instr) (y : List Byte) =>
      y.length ≤ p.dstCap.toNat →
      ∃ t, Ends i s t (s.engine.finished { s.engine.results with
          len := BitVec.ofNat 32 y.length, used := p.srcLen }) ∧ Holds s t p.dst y
    OneShotReady s 0 0 0 →
      (level = 0 → writes (.deflateCompress level) (storedStream x)) ∧
      (1 ≤ level.toNat → level.toNat ≤ 9 →
        writes (.deflateCompress level) (chosenMember (deflateAdmissible x) (deflateRef level.toNat x) s.members)) ∧
      writes (.lz4Compress level) (chosenMember (lz4Admissible x) (lz4Ref x) s.members) ∧
      writes (.snappyCompress level) (chosenMember (snappyAdmissible x) (snappyRef x) s.members) ∧
      (p.srcLen = 0 → writes (.lz4Compress level) [0x00] ∧ writes (.snappyCompress level) [0x00])

/-- 44_deflate.md R441, 45_lz4.md R500, 46_snappy.md R550: with room for the bound, a compress command never
fails in the execute phase. (Members: log entry 6.) -/
def Obligations.CompressWithinBound : Prop :=
  ∀ (s : State) (level : BitVec 4), OneShotReady s 0 0 0 →
    let n := s.operands.srcLen.toNat
    let cap := s.operands.dstCap.toNat
    let completes := fun (i : Instr) (bound : Nat) => bound ≤ cap →
      ∃ t, exec i s = .next t ∧ t.engine.status.err = false ∧ t.engine.results.used = s.operands.srcLen ∧
        t.engine.results.len.toNat ≤ bound
    (level.toNat ≤ 9 → completes (.deflateCompress level) (n + 5 * (n / 65535 + 1))) ∧
      completes (.lz4Compress level) (n + n / 255 + 16) ∧ completes (.snappyCompress level) (32 + n + n / 6)

/-- The three decompress commands complete on a well-formed source whose output fits (44_deflate.md R430;
45_lz4.md R510; 46_snappy.md R560), and end with the decoder's error otherwise. The decoders' open readings are
log entries 18 and 22. -/
def Obligations.DecompressCommands : Prop :=
  ∀ s : State, OneShotReady s 0 0 0 →
    let p := s.operands
    let inp := s.mem.readBytes p.srcAddr.toNat p.srcLen.toNat
    let decodes := fun (i : Instr) (result : Except ErrorCode (List Byte × Nat)) =>
      (∀ e, result = .error e → ∃ t, EndsInError i s t e ∧ SameOutside s t p.dst) ∧
      ∀ out used, result = .ok (out, used) →
        ∃ t, Ends i s t (s.engine.finished { s.engine.results with
            len := BitVec.ofNat 32 out.length, used := BitVec.ofNat 32 used }) ∧ Holds s t p.dst out
    decodes .deflateDecompress (deflateDecompress inp p.dstCap.toNat) ∧
      decodes .lz4Decompress (lz4Decompress inp p.dstCap.toNat) ∧
      decodes .snappyDecompress (snappyDecompress inp p.dstCap.toNat)

/-- The bound commands complete with the formulas of 44_deflate.md R462, 45_lz4.md R502 and 46_snappy.md R552,
and end with ARGUMENT / RANGE_WRAP where the bound does not fit in 32 bits; no memory changes. -/
def Obligations.BoundCommands : Prop :=
  ∀ s : State,
    let n := s.operands.srcLen.toNat
    let gives := fun (i : Instr) (b : Nat) =>
      (b < 2 ^ 32 → ∃ t, Ends i s t (s.engine.finished { s.engine.results with len := BitVec.ofNat 32 b }) ∧
        SameMemory s t) ∧
      (2 ^ 32 ≤ b → ∃ t, EndsInError i s t .rangeWrap ∧ NothingElse s t)
    gives .deflateBound (n + 5 * (n / 65535 + 1)) ∧ gives .lz4Bound (n + n / 255 + 16) ∧
      gives .snappyBound (32 + n + n / 6)

/-- 44_deflate.md R465: decompressing what the compressor writes at any level, whichever member it is, gives the
input back. (Members: log entry 6.) -/
def Obligations.DeflateRoundTrip : Prop :=
  ∀ (x : List Byte) (level cap : Nat) (members : List (List Byte)), level ≤ 9 → x.length ≤ cap →
    ∃ used, deflateDecompress (deflateMember level members x) cap = .ok (x, used)

/-- 45_lz4.md R515: decompressing what the compressor writes, whichever member it is, gives the input back.
(Members: log entry 6; the end conditions: log entry 17.) -/
def Obligations.LzFourRoundTrip : Prop :=
  ∀ (x : List Byte) (cap : Nat) (members : List (List Byte)), x.length + x.length / 255 + 16 < 2 ^ 32 →
    x.length ≤ cap →
    ∃ used, lz4Decompress (chosenMember (lz4Admissible x) (lz4Ref x) members) cap = .ok (x, used)

/-- 46_snappy.md R565: decompressing what the compressor writes, whichever member it is, gives the input back.
(Members: log entry 6.) -/
def Obligations.SnappyRoundTrip : Prop :=
  ∀ (x : List Byte) (cap : Nat) (members : List (List Byte)), 32 + x.length + x.length / 6 < 2 ^ 32 →
    x.length ≤ cap →
    ∃ used, snappyDecompress (chosenMember (snappyAdmissible x) (snappyRef x) members) cap = .ok (x, used)

end
end

