-- ==== Sys2Proof/Laws/Memory.lean ====
section
/-! SUPPORT. Buffer memory: what a read gives after a write and after bytes became unspecified, and that
every memory operation keeps the canonical form. Later proofs cite these instead of unfolding the
operations. -/

namespace Sys2Proof.Machine

/-! ### Cells -/

theorem cellAt_filter (p : Nat → Bool) (a : Nat) (cs : List Host.Cell) :
    cellAt a (cs.filter fun c => p c.1) = if p a then cellAt a cs else 0 := by
  induction cs with
  | nil => simp [cellAt]
  | cons c cs ih =>
    by_cases hc : p c.1 <;> by_cases ha : c.1 = a
    · subst ha; simp [List.filter, hc, cellAt]
    · simp [List.filter, hc, cellAt, ha, ih]
    · subst ha; simp [List.filter, hc, ih]
    · simp [List.filter, hc, cellAt, ha, ih]

theorem cellAt_insertCell (c : Host.Cell) (a : Nat) (cs : List Host.Cell) (h : ∀ d ∈ cs, d.1 ≠ c.1) :
    cellAt a (insertCell c cs) = if a = c.1 then c.2 else cellAt a cs := by
  induction cs with
  | nil => by_cases ha : a = c.1 <;> simp [insertCell, cellAt, ha, eq_comm]
  | cons d ds ih =>
    have hd : d.1 ≠ c.1 := h d (by simp)
    have hds : ∀ d ∈ ds, d.1 ≠ c.1 := fun e he => h e (by simp [he])
    unfold insertCell
    by_cases hlt : c.1 < d.1
    · by_cases ha : a = c.1 <;> simp [hlt, cellAt, ha, eq_comm]
    · by_cases ha : a = c.1
      · subst ha; simpa [hlt, cellAt, hd] using ih hds
      · simp [hlt, cellAt, ha, ih hds]

theorem cellAt_setCell (a x : Nat) (b : Byte) (cs : List Host.Cell) :
    cellAt x (setCell a b cs) = if x = a then b else cellAt x cs := by
  unfold setCell
  have hf := cellAt_filter (fun y => y != a) x cs
  by_cases hb : b = 0
  · simp only [hb, if_true]
    rw [hf]; by_cases hx : x = a <;> simp [hx]
  · simp only [hb, if_false]
    rw [cellAt_insertCell _ _ _ (by intro d hd; simpa using (List.mem_filter.1 hd).2), hf]
    by_cases hx : x = a <;> simp [hx]

theorem mem_insertCell {c d : Host.Cell} {cs : List Host.Cell} : d ∈ insertCell c cs ↔ d = c ∨ d ∈ cs := by
  induction cs with
  | nil => simp [insertCell]
  | cons e es ih =>
    unfold insertCell
    split
    · simp
    · simp [ih]; tauto

theorem insertCell_rising {c : Host.Cell} {cs : List Host.Cell} (hs : cs.Pairwise fun c d => c.1 < d.1)
    (h : ∀ d ∈ cs, d.1 ≠ c.1) : (insertCell c cs).Pairwise fun c d => c.1 < d.1 := by
  induction cs with
  | nil => simp [insertCell]
  | cons d ds ih =>
    obtain ⟨hd, hds⟩ := List.pairwise_cons.1 hs
    have hne : d.1 ≠ c.1 := h d (by simp)
    unfold insertCell
    split
    · rename_i hlt
      refine List.pairwise_cons.2 ⟨fun e he => ?_, hs⟩
      rcases List.mem_cons.1 he with rfl | he
      · exact hlt
      · exact hlt.trans (hd e he)
    · rename_i hlt
      refine List.pairwise_cons.2 ⟨fun e he => ?_, ih hds fun e he => h e (by simp [he])⟩
      rcases mem_insertCell.1 he with rfl | he
      · omega
      · exact hd e he

theorem mem_setCell {a : Nat} {b : Byte} {d : Host.Cell} {cs : List Host.Cell} (h : d ∈ setCell a b cs) :
    (d = (a, b) ∧ b ≠ 0) ∨ (d ∈ cs ∧ d.1 ≠ a) := by
  unfold setCell at h
  by_cases hb : b = 0
  · simp [hb] at h; exact .inr h
  · simp only [hb, if_false] at h
    rcases mem_insertCell.1 h with rfl | h
    · exact .inl ⟨rfl, hb⟩
    · exact .inr (by simpa using h)

theorem setCell_rising {a : Nat} {b : Byte} {cs : List Host.Cell} (hs : cs.Pairwise fun c d => c.1 < d.1) :
    (setCell a b cs).Pairwise fun c d => c.1 < d.1 := by
  unfold setCell
  have hf := hs.filter (fun c => c.1 != a)
  by_cases hb : b = 0
  · simpa [hb] using hf
  · simp only [hb, if_false]
    exact insertCell_rising hf (by intro d hd; simpa using (List.mem_filter.1 hd).2)

/-! ### Holes -/

/-- The draw that governs an address, if it lies in a hole. -/
def tagAt (a : Nat) (hs : List Hole) : Option Nat := (holeAt a hs).map Hole.tag

theorem read_eq (m : Memory) (a : Nat) :
    m.read a = match tagAt a m.holes with
      | some t => Config.freeByte t a
      | none => cellAt a m.cells := by
  unfold Memory.read tagAt
  cases holeAt a m.holes <;> rfl

theorem tagAt_cons (a : Nat) (h : Hole) (hs : List Hole) :
    tagAt a (h :: hs) = if h.lo ≤ a ∧ a < h.hi then some h.tag else tagAt a hs := by
  simp only [tagAt, holeAt]
  split <;> rfl

theorem tagAt_append (a : Nat) (gs hs : List Hole) : tagAt a (gs ++ hs) = (tagAt a gs).or (tagAt a hs) := by
  induction gs with
  | nil => rfl
  | cons g gs ih =>
    rw [List.cons_append, tagAt_cons, tagAt_cons, ih]
    split <;> rfl

theorem tagAt_clipHole (a lo hi tag : Nat) :
    tagAt a (clipHole lo hi tag) = if lo ≤ a ∧ a < hi then some tag else none := by
  unfold clipHole
  split
  · rw [tagAt_cons]; rfl
  · rw [if_neg (by omega)]; rfl

theorem tagAt_punch (a lo hi : Nat) (hs : List Hole) :
    tagAt a (punch lo hi hs) = if lo ≤ a ∧ a < hi then none else tagAt a hs := by
  induction hs with
  | nil => simp [punch, tagAt, holeAt]
  | cons h hs ih =>
    rw [punch, tagAt_append, tagAt_append, tagAt_clipHole, tagAt_clipHole, ih, tagAt_cons]
    by_cases hin : lo ≤ a ∧ a < hi
    · rw [if_neg (by omega), if_neg (by omega), if_pos hin, if_pos hin]; rfl
    · rw [if_neg hin, if_neg hin]
      by_cases hh : h.lo ≤ a ∧ a < h.hi
      · rw [if_pos hh]
        by_cases hl : a < lo
        · rw [if_pos (by omega)]; rfl
        · rw [if_neg (by omega), if_pos (by omega)]; rfl
      · rw [if_neg hh, if_neg (by omega), if_neg (by omega)]; rfl

theorem tagAt_insertHole (a : Nat) (h : Hole) (hs : List Hole)
    (hfree : h.lo ≤ a ∧ a < h.hi → tagAt a hs = none) :
    tagAt a (insertHole h hs) = if h.lo ≤ a ∧ a < h.hi then some h.tag else tagAt a hs := by
  induction hs with
  | nil => rw [insertHole, tagAt_cons]
  | cons g gs ih =>
    unfold insertHole
    split
    · rw [tagAt_cons]
    · have hgs : h.lo ≤ a ∧ a < h.hi → ¬(g.lo ≤ a ∧ a < g.hi) ∧ tagAt a gs = none := by
        intro hin
        have := hfree hin
        rw [tagAt_cons] at this
        split at this
        · simp at this
        · exact ⟨by assumption, this⟩
      rw [tagAt_cons, ih fun hin => (hgs hin).2, tagAt_cons]
      by_cases hin : h.lo ≤ a ∧ a < h.hi
      · rw [if_neg (hgs hin).1, if_pos hin, if_pos hin]
      · rw [if_neg hin, if_neg hin]

theorem mem_insertHole {g h : Hole} {hs : List Hole} : g ∈ insertHole h hs ↔ g = h ∨ g ∈ hs := by
  induction hs with
  | nil => simp [insertHole]
  | cons e es ih =>
    unfold insertHole
    split
    · simp
    · simp [ih]; tauto

theorem mem_punch {g : Hole} {lo hi : Nat} {hs : List Hole} (hg : g ∈ punch lo hi hs) :
    ∃ h ∈ hs, h.lo ≤ g.lo ∧ g.hi ≤ h.hi ∧ g.lo < g.hi ∧ (g.hi ≤ lo ∨ hi ≤ g.lo) := by
  induction hs with
  | nil => simp [punch] at hg
  | cons h hs ih =>
    unfold punch clipHole at hg
    simp only [List.append_assoc, List.mem_append] at hg
    rcases hg with hg | hg | hg
    · split at hg
      · obtain rfl := List.mem_singleton.1 hg
        exact ⟨h, by simp, by simp only; omega⟩
      · simp at hg
    · split at hg
      · obtain rfl := List.mem_singleton.1 hg
        exact ⟨h, by simp, by simp only; omega⟩
      · simp at hg
    · obtain ⟨k, hk, hrest⟩ := ih hg
      exact ⟨k, by simp [hk], hrest⟩

theorem punch_rising {lo hi : Nat} (hlt : lo < hi) {hs : List Hole}
    (hp : hs.Pairwise fun g h => g.hi ≤ h.lo) : (punch lo hi hs).Pairwise fun g h => g.hi ≤ h.lo := by
  induction hs with
  | nil => simp [punch]
  | cons h hs ih =>
    obtain ⟨hh, hhs⟩ := List.pairwise_cons.1 hp
    have later : ∀ g ∈ punch lo hi hs, h.hi ≤ g.lo := fun g hg => by
      obtain ⟨k, hk, hlo, -⟩ := mem_punch hg
      have := hh k hk; omega
    unfold punch clipHole
    rw [List.append_assoc, List.pairwise_append]
    refine ⟨by split <;> simp, ?_, ?_⟩
    · rw [List.pairwise_append]
      refine ⟨by split <;> simp, ih hhs, fun x hx y hy => ?_⟩
      split at hx
      · obtain rfl := List.mem_singleton.1 hx; exact later y hy
      · simp at hx
    · intro x hx y hy
      split at hx
      · obtain rfl := List.mem_singleton.1 hx
        rcases List.mem_append.1 hy with hy | hy
        · split at hy
          · obtain rfl := List.mem_singleton.1 hy; simp only; omega
          · simp at hy
        · have := later y hy; simp only; omega
      · simp at hx

theorem insertHole_rising {h : Hole} (hne : h.lo < h.hi) {hs : List Hole}
    (hp : hs.Pairwise fun g k => g.hi ≤ k.lo) (hpos : ∀ g ∈ hs, g.lo < g.hi)
    (hout : ∀ g ∈ hs, g.hi ≤ h.lo ∨ h.hi ≤ g.lo) : (insertHole h hs).Pairwise fun g k => g.hi ≤ k.lo := by
  induction hs with
  | nil => simp [insertHole]
  | cons g gs ih =>
    obtain ⟨hg, hgs⟩ := List.pairwise_cons.1 hp
    have hgo := hout g (by simp)
    have hgp := hpos g (by simp)
    unfold insertHole
    split
    · refine List.pairwise_cons.2 ⟨fun k hk => ?_, hp⟩
      rcases List.mem_cons.1 hk with rfl | hk
      · omega
      · have := hg k hk; omega
    · refine List.pairwise_cons.2 ⟨fun k hk => ?_, ih hgs (fun k hk => hpos k (by simp [hk])) fun k hk =>
        hout k (by simp [hk])⟩
      rcases mem_insertHole.1 hk with rfl | hk
      · omega
      · exact hg k hk

/-! ### Reads after writes -/

theorem read_write (m : Memory) (a x : Nat) (b : Byte) :
    (m.write a b).read x = if x = a then b else m.read x := by
  rw [read_eq, read_eq]
  show (match tagAt x (punch a (a + 1) m.holes) with
    | some t => Config.freeByte t x
    | none => cellAt x (setCell a b m.cells)) = _
  rw [tagAt_punch, cellAt_setCell]
  by_cases hx : x = a
  · rw [if_pos (by omega), if_pos hx, if_pos hx]
  · rw [if_neg (by omega), if_neg hx, if_neg hx]

theorem read_writeBytes (bs : List Byte) (m : Memory) (a x : Nat) :
    (m.writeBytes a bs).read x = if a ≤ x ∧ x < a + bs.length then bs.getD (x - a) 0 else m.read x := by
  induction bs generalizing m a with
  | nil => rw [if_neg (by simp)]; rfl
  | cons b bs ih =>
    rw [Memory.writeBytes, ih, read_write]
    simp only [List.length_cons]
    by_cases h1 : a + 1 ≤ x ∧ x < a + 1 + bs.length
    · rw [if_pos h1, if_pos (by omega)]
      obtain ⟨k, rfl⟩ : ∃ k, x = a + 1 + k := ⟨x - (a + 1), by omega⟩
      simp [show a + 1 + k - a = k + 1 by omega]
    · rw [if_neg h1]
      by_cases h2 : x = a
      · subst h2; simp
      · rw [if_neg h2, if_neg (by omega)]

theorem read_writeBytes_outside (bs : List Byte) (m : Memory) {a x : Nat} (h : x < a ∨ a + bs.length ≤ x) :
    (m.writeBytes a bs).read x = m.read x := by
  rw [read_writeBytes, if_neg (by omega)]

theorem read_scramble (m : Memory) (lo hi tag x : Nat) :
    (m.scramble lo hi tag).read x = if lo ≤ x ∧ x < hi then Config.freeByte tag x else m.read x := by
  unfold Memory.scramble
  by_cases hlt : lo < hi
  · rw [if_pos hlt, read_eq, read_eq]
    simp only
    rw [tagAt_insertHole, tagAt_punch]
    · by_cases hx : lo ≤ x ∧ x < hi
      · simp [hx]
      · rw [if_neg hx, if_neg hx, if_neg hx,
          cellAt_filter (fun y => decide (y < lo) || decide (hi ≤ y)) x m.cells, if_pos (by simp; omega)]
    · intro hin; rw [tagAt_punch, if_pos hin]
  · rw [if_neg hlt, if_neg (by omega)]

theorem read_scramble_outside (m : Memory) {lo hi tag x : Nat} (h : x < lo ∨ hi ≤ x) :
    (m.scramble lo hi tag).read x = m.read x := by
  rw [read_scramble, if_neg (by omega)]

@[simp] theorem length_readBytes (m : Memory) (a n : Nat) : (m.readBytes a n).length = n := by
  induction n generalizing a with
  | zero => rfl
  | succ n ih => simp [Memory.readBytes, ih]

theorem getD_readBytes (m : Memory) (a n k : Nat) (h : k < n) : (m.readBytes a n).getD k 0 = m.read (a + k) := by
  induction n generalizing a k with
  | zero => omega
  | succ n ih =>
    cases k with
    | zero => rfl
    | succ k => simp only [Memory.readBytes, List.getD_cons_succ]; rw [ih _ _ (by omega)]; congr 1; omega

/-- Two memories that agree on a range give the same bytes of it. -/
theorem readBytes_congr {m m' : Memory} {a n : Nat} (h : ∀ x, a ≤ x → x < a + n → m.read x = m'.read x) :
    m.readBytes a n = m'.readBytes a n := by
  induction n generalizing a with
  | zero => rfl
  | succ n ih =>
    simp only [Memory.readBytes]
    rw [h a (by omega) (by omega), ih fun x h1 h2 => h x (by omega) (by omega)]

theorem readBytes_writeBytes (bs : List Byte) (m : Memory) (a : Nat) :
    (m.writeBytes a bs).readBytes a bs.length = bs := by
  apply List.ext_getElem (by simp)
  intro k h1 h2
  have := getD_readBytes (m.writeBytes a bs) a bs.length k h2
  rw [read_writeBytes, if_pos (by omega)] at this
  simpa [List.getD_eq_getElem?_getD, h2] using this

/-! ### The canonical form -/

theorem write_wf {m : Memory} (h : m.wf) (a : Nat) (b : Byte) : (m.write a b).wf := by
  obtain ⟨h1, h2, h3, h4, h5⟩ := h
  refine ⟨setCell_rising h1, fun c hc => ?_, fun c hc g hg => ?_, fun g hg => ?_, punch_rising (by omega) h5⟩
  · rcases mem_setCell hc with ⟨rfl, hb⟩ | ⟨hc, -⟩
    · exact hb
    · exact h2 c hc
  · obtain ⟨k, hk, hlo, hhi, hpos, hout⟩ := mem_punch hg
    rcases mem_setCell hc with ⟨rfl, -⟩ | ⟨hc, hne⟩
    · simp only; omega
    · have := h3 c hc k hk; omega
  · obtain ⟨-, -, -, -, hpos, -⟩ := mem_punch hg
    exact hpos

theorem writeBytes_wf (bs : List Byte) {m : Memory} (h : m.wf) (a : Nat) : (m.writeBytes a bs).wf := by
  induction bs generalizing m a with
  | nil => exact h
  | cons b bs ih => exact ih (write_wf h a b) (a + 1)

theorem scramble_wf {m : Memory} (h : m.wf) (lo hi tag : Nat) : (m.scramble lo hi tag).wf := by
  unfold Memory.scramble
  split
  · rename_i hlt
    obtain ⟨h1, h2, h3, h4, h5⟩ := h
    have hout : ∀ g ∈ punch lo hi m.holes, g.hi ≤ lo ∨ hi ≤ g.lo := fun g hg => by
      obtain ⟨-, -, -, -, -, hout⟩ := mem_punch hg; exact hout
    have hpos : ∀ g ∈ punch lo hi m.holes, g.lo < g.hi := fun g hg => by
      obtain ⟨-, -, -, -, hpos, -⟩ := mem_punch hg; exact hpos
    refine ⟨h1.filter _, fun c hc => h2 c (List.mem_filter.1 hc).1, fun c hc g hg => ?_, fun g hg => ?_,
      insertHole_rising hlt (punch_rising hlt h5) hpos hout⟩
    · obtain ⟨hc, hcout⟩ := List.mem_filter.1 hc
      simp only [Bool.or_eq_true, decide_eq_true_eq] at hcout
      rcases mem_insertHole.1 hg with rfl | hg
      · exact hcout
      · obtain ⟨k, hk, hlo, hhi, -⟩ := mem_punch hg
        have := h3 c hc k hk; omega
    · rcases mem_insertHole.1 hg with rfl | hg
      · exact hlt
      · exact hpos g hg
  · exact h

theorem reset_mem_wf : State.reset.mem.wf := by
  simp [Memory.wf, State.reset, Config.addrSpace]

/-! ### The address space -/

/-- Every address memory mentions is below `2^32` (20_memory.md R100). -/
abbrev Memory.bounded (m : Memory) : Prop :=
  (∀ c ∈ m.cells, c.1 < Config.addrSpace) ∧ ∀ h ∈ m.holes, h.hi ≤ Config.addrSpace

theorem write_bounded {m : Memory} (h : m.bounded) {a : Nat} (ha : a < Config.addrSpace) (b : Byte) :
    (m.write a b).bounded := by
  refine ⟨fun c hc => ?_, fun g hg => ?_⟩
  · rcases mem_setCell hc with ⟨rfl, -⟩ | ⟨hc, -⟩
    · exact ha
    · exact h.1 c hc
  · obtain ⟨k, hk, -, hhi, -⟩ := mem_punch hg
    exact hhi.trans (h.2 k hk)

theorem writeBytes_bounded (bs : List Byte) {m : Memory} (h : m.bounded) {a : Nat}
    (ha : a + bs.length ≤ Config.addrSpace) : (m.writeBytes a bs).bounded := by
  induction bs generalizing m a with
  | nil => exact h
  | cons b bs ih =>
    simp only [List.length_cons] at ha
    exact ih (write_bounded h (by omega) b) (by omega)

theorem scramble_bounded {m : Memory} (h : m.bounded) {lo hi tag : Nat}
    (hhi : lo < hi → hi ≤ Config.addrSpace) : (m.scramble lo hi tag).bounded := by
  unfold Memory.scramble
  split
  · rename_i hlt
    refine ⟨fun c hc => h.1 c (List.mem_filter.1 hc).1, fun g hg => ?_⟩
    rcases mem_insertHole.1 hg with rfl | hg
    · exact hhi hlt
    · obtain ⟨k, hk, -, hk2, -⟩ := mem_punch hg
      exact hk2.trans (h.2 k hk)
  · exact h

end Sys2Proof.Machine
end

