-- ==== Sys2Proof/Laws/Bits.lean ====
section
/-! SUPPORT. The shared data formats bit by bit: lengths, and which bit of a byte string, a number or a
packed stream is which. Later proofs cite these instead of unfolding the formats. -/

namespace Sys2Proof.Machine

/-! ### Lengths -/

@[simp] theorem length_leBytes (n v : Nat) : (leBytes n v).length = n := by
  induction n generalizing v with
  | zero => rfl
  | succ n ih => simp [leBytes, ih]

@[simp] theorem length_leElems (e n : Nat) (bs : List Byte) : (leElems e n bs).length = n := by
  induction n generalizing bs with
  | zero => rfl
  | succ n ih => simp [leElems, ih]

@[simp] theorem length_bitsOf (n v : Nat) : (bitsOf n v).length = n := by
  induction n generalizing v with
  | zero => rfl
  | succ n ih => simp [bitsOf, ih]

@[simp] theorem length_bytesOfBits (n : Nat) (bits : List Bool) : (bytesOfBits n bits).length = n := by
  induction n generalizing bits with
  | zero => rfl
  | succ n ih => simp [bytesOfBits, ih]

@[simp] theorem length_packBits (w : Nat) (vs : List Nat) : (packBits w vs).length = ceilDiv (vs.length * w) 8 := by
  simp [packBits]

@[simp] theorem length_unpackBitsAt (bs : List Byte) (w p n : Nat) : (unpackBitsAt bs w p n).length = n := by
  induction n generalizing p with
  | zero => rfl
  | succ n ih => simp [unpackBitsAt, ih]

@[simp] theorem length_unpackBits (bs : List Byte) (n w : Nat) : (unpackBits bs n w).length = n :=
  length_unpackBitsAt ..

theorem length_flatMap_const {α β : Type} (f : α → List β) (e : Nat) (h : ∀ a, (f a).length = e) (l : List α) :
    (l.flatMap f).length = l.length * e := by
  induction l with
  | nil => simp
  | cons a l ih => simp [ih, h, Nat.succ_mul, Nat.add_comm]

@[simp] theorem length_flatMap_leBytes (e : Nat) (vs : List Nat) :
    (vs.flatMap (leBytes e)).length = vs.length * e :=
  length_flatMap_const _ e (length_leBytes e) vs

/-- Entry `k*e + j` of blocks of `e` entries each is entry `j` of block `k`. -/
theorem getD_flatMap {α β : Type} (f : α → List β) (e : Nat) (h : ∀ a, (f a).length = e) (d : β) (x : α)
    (l : List α) {k j : Nat} (hk : k < l.length) (hj : j < e) :
    (l.flatMap f).getD (k * e + j) d = (f (l.getD k x)).getD j d := by
  induction l generalizing k with
  | nil => simp at hk
  | cons a l ih =>
    rw [List.flatMap_cons]
    cases k with
    | zero =>
      rw [Nat.zero_mul, Nat.zero_add, List.getD_append _ _ _ _ (by rw [h]; exact hj)]; rfl
    | succ k =>
      rw [List.getD_append_right _ _ _ _ (by rw [h, Nat.succ_mul]; omega), h,
        show (k + 1) * e + j - e = k * e + j by rw [Nat.succ_mul]; omega,
        ih (by simpa using hk)]
      rfl

/-! ### Bits -/

theorem testBit_two_mul_add (b : Bool) (n j : Nat) :
    (b.toNat + 2 * n).testBit j = if j = 0 then b else n.testBit (j - 1) := by
  cases j with
  | zero => cases b <;> simp [Nat.testBit_zero]
  | succ j =>
    rw [Nat.testBit_succ, if_neg (by omega)]
    congr 1
    cases b <;> simp; omega

/-- Bit `j` of a value of `n` bits, bit 0 first (20_memory.md R121). -/
theorem getD_bitsOf (n v j : Nat) (h : j < n) : (bitsOf n v).getD j false = v.testBit j := by
  induction n generalizing v j with
  | zero => omega
  | succ n ih =>
    cases j with
    | zero => simp [bitsOf, Nat.testBit_zero]; cases Nat.mod_two_eq_zero_or_one v with
      | inl h => simp [h]
      | inr h => simp [h]
    | succ j => rw [Nat.testBit_succ]; exact ih _ _ (by omega)

theorem testBit_natOfBits (bs : List Bool) (j : Nat) : (natOfBits bs).testBit j = bs.getD j false := by
  induction bs generalizing j with
  | nil => simp [natOfBits]
  | cons b bs ih =>
    rw [natOfBits, testBit_two_mul_add]
    cases j with
    | zero => rfl
    | succ j => simpa using ih j

theorem getD_take {α : Type} (l : List α) (n k : Nat) (d : α) (h : k < n) : (l.take n).getD k d = l.getD k d := by
  simp [List.getD_eq_getElem?_getD, h]

theorem getD_drop {α : Type} (l : List α) (n k : Nat) (d : α) : (l.drop n).getD k d = l.getD (n + k) d := by
  simp [List.getD_eq_getElem?_getD, List.getElem?_drop]

theorem getLsbD_byteOf (n j : Nat) : (byteOf n).getLsbD j = (decide (j < 8) && n.testBit j) := by
  simp [byteOf, BitVec.getLsbD_ofNat]

/-- Bit `j` of byte `k` of a bit sequence is its bit `8*k + j` (20_memory.md R121). -/
theorem getLsbD_getD_bytesOfBits (n : Nat) (bits : List Bool) {k j : Nat} (hk : k < n) (hj : j < 8) :
    ((bytesOfBits n bits).getD k 0).getLsbD j = bits.getD (8 * k + j) false := by
  induction n generalizing bits k with
  | zero => omega
  | succ n ih =>
    cases k with
    | zero =>
      simp only [bytesOfBits, List.getD_cons_zero, getLsbD_byteOf, hj, decide_true, Bool.true_and,
        testBit_natOfBits, Nat.mul_zero, Nat.zero_add]
      exact getD_take _ _ _ _ hj
    | succ k =>
      simp only [bytesOfBits, List.getD_cons_succ]
      rw [ih _ (by omega), getD_drop]
      congr 1; omega

theorem bitAt_bytesOfBits (n : Nat) (bits : List Bool) {k : Nat} (h : k < 8 * n) :
    bitAt (bytesOfBits n bits) k = bits.getD k false := by
  rw [bitAt, getLsbD_getD_bytesOfBits n bits (by omega) (by omega)]
  congr 1; omega

/-- Bit `j` of the `n` bits at position `p` (20_memory.md R121). -/
theorem testBit_getBits (bs : List Byte) (p n j : Nat) :
    (getBits bs p n).testBit j = (decide (j < n) && bitAt bs (p + j)) := by
  induction n generalizing p j with
  | zero => simp [getBits]
  | succ n ih =>
    rw [getBits, testBit_two_mul_add]
    cases j with
    | zero => simp
    | succ j =>
      simp only [Nat.add_eq_zero_iff, one_ne_zero, and_false, if_false, Nat.add_sub_cancel, ih,
        Nat.succ_lt_succ_iff]
      congr 2; omega

theorem getBits_lt (bs : List Byte) (p n : Nat) : getBits bs p n < 2 ^ n := by
  induction n generalizing p with
  | zero => simp [getBits]
  | succ n ih =>
    have := ih (p + 1)
    have := Bool.toNat_le (bitAt bs p)
    rw [getBits, pow_succ]; omega

/-- Numbers below `2^n` with the same `n` low bits are equal. -/
theorem eq_of_testBit_lt {a b n : Nat} (ha : a < 2 ^ n) (hb : b < 2 ^ n)
    (h : ∀ j, j < n → a.testBit j = b.testBit j) : a = b := by
  refine Nat.eq_of_testBit_eq fun j => ?_
  by_cases hj : j < n
  · exact h j hj
  · have hp : 2 ^ n ≤ 2 ^ j := Nat.pow_le_pow_right (by decide) (by omega)
    rw [Nat.testBit_lt_two_pow (by omega), Nat.testBit_lt_two_pow (by omega)]

/-- Bit `i*w + j` of a packed stream is bit `j` of value `i` (20_memory.md R122, 40_bitpack.md R201). -/
theorem bitAt_packBits (w : Nat) (vs : List Nat) {i j : Nat} (hi : i < vs.length) (hj : j < w) :
    bitAt (packBits w vs) (i * w + j) = (vs.getD i 0).testBit j := by
  have hle : (i + 1) * w ≤ vs.length * w := Nat.mul_le_mul_right _ hi
  rw [Nat.succ_mul] at hle
  rw [packBits, bitAt_bytesOfBits _ _ (by unfold ceilDiv; omega),
    getD_flatMap _ w (length_bitsOf w) _ 0 _ hi hj, getD_bitsOf _ _ _ hj]

/-- The pad bits of a packed stream are 0 (40_bitpack.md R201). -/
theorem bitAt_packBits_pad (w : Nat) (vs : List Nat) {k : Nat} (hk : vs.length * w ≤ k) :
    bitAt (packBits w vs) k = false := by
  by_cases h : k < 8 * ceilDiv (vs.length * w) 8
  · rw [packBits, bitAt_bytesOfBits _ _ h]
    exact List.getD_eq_default _ _ (by rw [length_flatMap_const _ w (length_bitsOf w)]; exact hk)
  · rw [bitAt, List.getD_eq_default _ _ (by rw [length_packBits]; omega)]; simp

/-- Value `i` of an unpacked stream is the `w` bits at position `p + i*w`. -/
theorem getD_unpackBitsAt (bs : List Byte) (w p n : Nat) {i : Nat} (h : i < n) :
    (unpackBitsAt bs w p n).getD i 0 = getBits bs (p + i * w) w := by
  induction n generalizing p i with
  | zero => omega
  | succ n ih =>
    cases i with
    | zero => simp [unpackBitsAt]
    | succ i =>
      simp only [unpackBitsAt, List.getD_cons_succ]
      rw [ih _ (by omega)]; congr 1; rw [Nat.succ_mul]; omega

/-! ### Little-endian numbers -/

theorem leValue_lt (bs : List Byte) : leValue bs < 256 ^ bs.length := by
  induction bs with
  | nil => simp [leValue]
  | cons b bs ih =>
    have := b.isLt
    simp only [leValue, List.length_cons, pow_succ]; omega

/-- The number of little-endian bytes has the bits of their bit stream (20_memory.md R101, R121). -/
theorem testBit_leValue (bs : List Byte) (k : Nat) : (leValue bs).testBit k = bitAt bs k := by
  induction bs generalizing k with
  | nil => simp [leValue, bitAt]
  | cons b bs ih =>
    rw [leValue, Nat.add_comm, show (256 : Nat) = 2 ^ 8 from rfl, Nat.testBit_two_pow_mul_add _ b.isLt]
    split
    · rename_i hk
      rw [bitAt, Nat.div_eq_of_lt hk, Nat.mod_eq_of_lt hk]; rfl
    · rename_i hk
      rw [ih, bitAt, bitAt, show k / 8 = (k - 8) / 8 + 1 by omega, show k % 8 = (k - 8) % 8 by omega]
      rfl

/-- A byte of the little-endian bytes of a number. -/
theorem getLsbD_getD_leBytes (n v : Nat) {k j : Nat} (hk : k < n) (hj : j < 8) :
    ((leBytes n v).getD k 0).getLsbD j = v.testBit (8 * k + j) := by
  induction n generalizing v k with
  | zero => omega
  | succ n ih =>
    cases k with
    | zero =>
      simp only [leBytes, List.getD_cons_zero, getLsbD_byteOf, hj, decide_true, Bool.true_and]
      rw [Nat.mul_zero, Nat.zero_add]
    | succ k =>
      simp only [leBytes, List.getD_cons_succ]
      rw [ih _ (by omega), show (256 : Nat) = 2 ^ 8 from rfl, Nat.testBit_div_two_pow]
      congr 1; omega

/-- The little-endian bytes of a number that they hold give it back (20_memory.md R101). -/
theorem leValue_leBytes (n v : Nat) (h : v < 256 ^ n) : leValue (leBytes n v) = v := by
  induction n generalizing v with
  | zero => simp at h; simp [leBytes, leValue, h]
  | succ n ih =>
    rw [leBytes, leValue, ih _ (by rw [Nat.div_lt_iff_lt_mul (by decide), ← pow_succ]; exact h)]
    simp only [byteOf, BitVec.toNat_ofNat]; omega

/-! ### What memory holds -/

theorem value_eq (m : Memory) (a n : Nat) : m.value a n = leValue (m.readBytes a n) := by
  induction n generalizing a with
  | zero => rfl
  | succ n ih =>
    rw [Memory.readBytes, leValue, ← ih, Memory.value, Memory.value, Finset.sum_range_succ', Finset.mul_sum]
    simp only [pow_zero, mul_one, Nat.add_zero]
    rw [Nat.add_comm]
    congr 1
    refine Finset.sum_congr rfl fun k _ => ?_
    rw [show a + (k + 1) = a + 1 + k by omega, pow_succ]; ring

theorem bitAt_readBytes (m : Memory) (a n : Nat) {k : Nat} (h : k < 8 * n) :
    bitAt (m.readBytes a n) k = m.streamBit a k := by
  rw [bitAt, getD_readBytes _ _ _ _ (by omega)]; rfl

/-- A little-endian value of memory has the bits of the bit stream there. -/
theorem testBit_value (m : Memory) (a n k : Nat) : (m.value a n).testBit k = (decide (k < 8 * n) && m.streamBit a k) := by
  rw [value_eq, testBit_leValue]
  by_cases h : k < 8 * n
  · simp [bitAt_readBytes m a n h, h]
  · rw [bitAt, List.getD_eq_default _ _ (by rw [length_readBytes]; omega)]; simp [h]

theorem value_lt (m : Memory) (a n : Nat) : m.value a n < 256 ^ n := by
  rw [value_eq]; simpa using leValue_lt (m.readBytes a n)

theorem drop_readBytes (m : Memory) (a e n : Nat) : (m.readBytes a (e + n)).drop e = m.readBytes (a + e) n := by
  induction e generalizing a with
  | zero => simp
  | succ e ih =>
    rw [show e + 1 + n = (e + n) + 1 by omega, Memory.readBytes, List.drop_succ_cons, ih]
    congr 1; omega

theorem take_readBytes (m : Memory) (a e n : Nat) : (m.readBytes a (e + n)).take e = m.readBytes a e := by
  induction e generalizing a with
  | zero => simp [Memory.readBytes]
  | succ e ih =>
    rw [show e + 1 + n = (e + n) + 1 by omega, Memory.readBytes, List.take_succ_cons, ih, Memory.readBytes]

/-- The source elements of a command are the little-endian values of its source (20_memory.md R102). -/
theorem leElems_readBytes (m : Memory) (a e n : Nat) : leElems e n (m.readBytes a (e * n)) = m.values a e n := by
  induction n generalizing a with
  | zero => rfl
  | succ n ih =>
    rw [leElems, Nat.mul_succ, Nat.add_comm (e * n) e, take_readBytes, drop_readBytes, ih, ← value_eq,
      Memory.values, Memory.values, List.range_succ_eq_map, List.map_cons, List.map_map]
    congr 1
    refine List.map_congr_left fun i _ => ?_
    simp only [Function.comp]
    congr 1; rw [Nat.succ_eq_add_one, Nat.mul_succ]; omega

@[simp] theorem length_values (m : Memory) (a e n : Nat) : (m.values a e n).length = n := by simp [Memory.values]

theorem getD_values (m : Memory) (a e n : Nat) {i : Nat} (h : i < n) : (m.values a e n).getD i 0 = m.value (a + e * i) e := by
  simp [Memory.values, List.getD_eq_getElem?_getD, h]

/-- What a stream bit of memory is where the bytes there are known. -/
theorem streamBit_of_readBytes {m : Memory} {a : Nat} {bs : List Byte} (h : m.readBytes a bs.length = bs) {k : Nat}
    (hk : k < 8 * bs.length) : m.streamBit a k = bitAt bs k := by
  rw [← bitAt_readBytes m a bs.length hk, h]

/-- A stream that starts `b` bytes later. -/
theorem streamBit_add (m : Memory) (a b k : Nat) : m.streamBit (a + b) k = m.streamBit a (8 * b + k) := by
  unfold Memory.streamBit
  rw [show (8 * b + k) / 8 = b + k / 8 by omega, show (8 * b + k) % 8 = k % 8 by omega, Nat.add_assoc]

/-- Bit `j` of element `k` in a string of little-endian elements. -/
theorem bitAt_flatMap_leBytes (e : Nat) (vs : List Nat) {k j : Nat} (hk : k < vs.length) (hj : j < 8 * e) :
    bitAt (vs.flatMap (leBytes e)) (8 * (e * k) + j) = (vs.getD k 0).testBit j := by
  rw [bitAt, show (8 * (e * k) + j) / 8 = k * e + j / 8 by rw [Nat.mul_comm k e]; omega,
    show (8 * (e * k) + j) % 8 = j % 8 by omega, getD_flatMap _ e (length_leBytes e) _ 0 _ hk (by omega),
    getLsbD_getD_leBytes _ _ (by omega) (by omega)]
  congr 1; omega

end Sys2Proof.Machine
end

