-- ==== Sys2Proof/Laws/Checks.lean ====
section
/-! SUPPORT. The checks phase: exactly when it passes, and what its errors are. -/

namespace Sys2Proof.Machine

/-! ### Extents -/

theorem contains_iff (x : Extent) (a : Nat) : x.contains a = true ↔ x.base ≤ a ∧ a < x.base + x.len := by
  simp [Extent.contains]

theorem contains_eq_false_iff (x : Extent) (a : Nat) :
    x.contains a = false ↔ a < x.base ∨ x.base + x.len ≤ a := by
  simp [Extent.contains, imp_iff_not_or]

theorem inSpace_iff (x : Extent) : x.inSpace = true ↔ x.base + x.len ≤ 2 ^ 32 := decide_eq_true_iff

/-- Two extents do not overlap exactly where no address lies in both (20_memory.md R105). -/
theorem overlaps_eq_false_iff (x y : Extent) : x.overlaps y = false ↔ Apart x y := by
  constructor
  · intro h a hx
    rw [contains_iff] at hx
    rw [contains_eq_false_iff]
    by_contra hy
    have : x.overlaps y = true := by simp [Extent.overlaps]; omega
    simp [this] at h
  · intro h
    by_contra hov
    have hov : x.overlaps y = true := by simpa using hov
    simp [Extent.overlaps] at hov
    have := h (max x.base y.base) ((contains_iff _ _).2 (by omega))
    rw [contains_eq_false_iff] at this
    omega

theorem overlaps_comm (x y : Extent) : x.overlaps y = y.overlaps x := by
  rw [Bool.eq_iff_iff]; simp [Extent.overlaps]; omega

/-- A platform reaches an extent exactly where every address of it is MEM_ACCESSIBLE (20_memory.md
R105). -/
theorem reaches_iff (p : Platform) (x : Extent) :
    p.reaches x = true ↔ ∀ a, x.contains a = true → p.accessible a = true := by
  simp only [Platform.reaches, Platform.accessible, List.all_eq_true, Bool.not_eq_true', contains_iff]
  constructor
  · intro h a ha r hr
    have := (overlaps_eq_false_iff _ _).1 (h r hr) a ((contains_iff _ _).2 ha)
    rw [contains_eq_false_iff] at this
    simp only [Bool.and_eq_false_iff, decide_eq_false_iff_not]
    simp only at this
    omega
  · intro h r hr
    rw [overlaps_eq_false_iff]
    intro a ha
    have := h a ((contains_iff _ _).1 ha) r hr
    rw [contains_eq_false_iff]
    simp only [Bool.and_eq_false_iff, decide_eq_false_iff_not] at this
    simp only
    omega

theorem usable_iff (s : State) (x : Extent) : Usable s x ↔ x.inSpace = true ∧ s.platform.reaches x = true := by
  rw [inSpace_iff, reaches_iff]; rfl

/-! ### The used field -/

@[simp] theorem widthError_eq_none (limit : Nat) (a : BitVec 8) : widthError limit a = none ↔ a.toNat ≤ limit := by
  unfold widthError; split <;> simp <;> omega

@[simp] theorem elemError_eq_none (a : BitVec 8) : elemError a = none ↔ 1 ≤ a.toNat := by
  unfold elemError; split <;> simp <;> omega

@[simp] theorem levelError_eq_none (l : BitVec 4) : levelError l = none ↔ l.toNat ≤ 9 := by
  unfold levelError; split <;> simp <;> omega

theorem widthError_some {limit : Nat} {a : BitVec 8} (h : limit < a.toNat) : widthError limit a = some .badWidth :=
  if_pos h

theorem elemError_some {a : BitVec 8} (h : a.toNat = 0) : elemError a = some .badElemSize := if_pos h

theorem levelError_some {l : BitVec 4} (h : 9 < l.toNat) : levelError l = some .badLevel := if_pos h

/-! ### The phase -/

/-- The checks phase passes exactly where every one of its conditions holds (30_encoding.md R170). -/
theorem checksPhase_eq_none_iff (p : Platform) (d : Demand) :
    checksPhase p d = none ↔
      d.field = none ∧ d.session = true ∧ (∀ x ∈ d.extents, x.base + x.len ≤ 2 ^ 32) ∧ (∀ n ∈ d.sizes, n < 2 ^ 32) ∧
        (∀ n ∈ d.sessionSizes, n < 2 ^ 29) ∧ d.needSrc ≤ d.srcLen ∧ (∀ x ∈ d.pairs, Apart x.1 x.2) ∧
        (∀ x ∈ d.extents, p.reaches x = true) ∧ d.needRoom ≤ d.room := by
  unfold checksPhase
  cases hf : d.field with
  | some e => simp
  | none =>
    have hp : d.pairs.any (fun x => x.1.overlaps x.2) = false ↔ ∀ x ∈ d.pairs, Apart x.1 x.2 := by
      simp [← overlaps_eq_false_iff]
    have he : d.extents.all Extent.inSpace = true ↔ ∀ x ∈ d.extents, x.base + x.len ≤ 2 ^ 32 := by
      simp only [List.all_eq_true, inSpace_iff]
    have hn : d.sizes.all (fun n => decide (n < 2 ^ 32)) = true ↔ ∀ n ∈ d.sizes, n < 2 ^ 32 := by
      simp only [List.all_eq_true, decide_eq_true_eq]
    have hs : d.sessionSizes.all (fun n => decide (n < Config.sessionLimit)) = true ↔
        ∀ n ∈ d.sessionSizes, n < 2 ^ 29 := by
      rw [List.all_eq_true]; exact forall₂_congr fun _ _ => decide_eq_true_iff
    have hr : d.extents.all p.reaches = true ↔ ∀ x ∈ d.extents, p.reaches x = true := List.all_eq_true
    rw [← hp, ← he, ← hn, ← hs, ← hr]
    cases d.session <;> cases d.extents.all Extent.inSpace <;>
      cases d.sizes.all (fun n => decide (n < 2 ^ 32)) <;>
      cases d.sessionSizes.all (fun n => decide (n < Config.sessionLimit)) <;>
      cases d.pairs.any (fun x => x.1.overlaps x.2) <;> cases d.extents.all p.reaches <;>
      by_cases h1 : d.srcLen < d.needSrc <;> by_cases h2 : d.room < d.needRoom <;>
      simp [h1, h2, Nat.not_lt.1, Nat.not_le.2]

/-- An error of the checks phase is an ARGUMENT error, a BUS error or CAPACITY / DST_TOO_SMALL
(20_memory.md R107), where the used field's error is one. -/
theorem checksPhase_error {p : Platform} {d : Demand} {e : ErrorCode} (h : checksPhase p d = some e)
    (hf : ∀ e, d.field = some e → e.kind = 1) : e.kind = 1 ∨ e = .busFault ∨ e = .dstTooSmall := by
  unfold checksPhase at h
  cases hd : d.field with
  | some f => rw [hd] at h; simp only [Option.some.injEq] at h; exact .inl (h ▸ hf f hd)
  | none =>
    rw [hd] at h
    simp only at h
    split at h
    · simp only [Option.some.injEq] at h; subst h; exact .inl rfl
    split at h
    · simp only [Option.some.injEq] at h; subst h; exact .inl rfl
    split at h
    · simp only [Option.some.injEq] at h; subst h; exact .inl rfl
    split at h
    · simp only [Option.some.injEq] at h; subst h; exact .inl rfl
    split at h
    · simp only [Option.some.injEq] at h; subst h; exact .inr (.inl rfl)
    split at h
    · simp only [Option.some.injEq] at h; subst h; exact .inr (.inr rfl)
    · cases h

/-- A one-shot command whose conditions hold passes the checks phase. -/
theorem OneShotReady.checks {s : State} {size needSrc needDst : Nat} (h : OneShotReady s size needSrc needDst)
    {field : Option ErrorCode} (hf : field = none) {sizes : List Nat} (hs : ∀ n ∈ sizes, n ≤ size) :
    checksPhase s.platform (oneShot s.operands field sizes needSrc needDst) = none := by
  rw [checksPhase_eq_none_iff]
  have hsrc := (usable_iff _ _).1 h.src
  have hdst := (usable_iff _ _).1 h.dst
  refine ⟨hf, rfl, ?_, fun n hn => lt_of_le_of_lt (hs n hn) h.size_lt, ?_, h.src_long, ?_, ?_, h.dst_room⟩
  · simp only [oneShot, List.mem_cons, List.not_mem_nil, or_false]
    rintro x (rfl | rfl)
    · exact h.src.1
    · exact h.dst.1
  · simp [oneShot]
  · simp only [oneShot, List.mem_singleton]
    rintro x rfl; exact h.apart
  · simp only [oneShot, List.mem_cons, List.not_mem_nil, or_false]
    rintro x (rfl | rfl)
    · exact hsrc.2
    · exact hdst.2

end Sys2Proof.Machine
end

