-- ==== Sys2Proof/Laws/State.lean ====
section
/-! SUPPORT. One lemma per field per update of State, so that no later proof unfolds a record update. -/

namespace Sys2Proof.Machine

/-! ### A command that completes -/

@[simp] theorem succeed_irqEn (s : State) : (succeed s).engine.irqEn = s.engine.irqEn := rfl
@[simp] theorem succeed_regs (s : State) : (succeed s).engine.regs = s.engine.regs := rfl
@[simp] theorem succeed_latched (s : State) : (succeed s).engine.latched = none := rfl
@[simp] theorem succeed_status (s : State) : (succeed s).engine.status = s.engine.status.complete false := rfl
@[simp] theorem succeed_results (s : State) : (succeed s).engine.results = s.engine.results := rfl
@[simp] theorem succeed_error (s : State) : (succeed s).engine.error = s.engine.error := rfl
@[simp] theorem succeed_bw (s : State) : (succeed s).engine.bw = s.engine.bw := rfl
@[simp] theorem succeed_br (s : State) : (succeed s).engine.br = s.engine.br := rfl
@[simp] theorem succeed_rle (s : State) : (succeed s).engine.rle = s.engine.rle := rfl
@[simp] theorem succeed_peers (s : State) : (succeed s).peers = s.peers := rfl
@[simp] theorem succeed_mem (s : State) : (succeed s).mem = s.mem := rfl
@[simp] theorem succeed_platform (s : State) : (succeed s).platform = s.platform := rfl
@[simp] theorem succeed_inbox (s : State) : (succeed s).inbox = s.inbox := rfl
@[simp] theorem succeed_members (s : State) : (succeed s).members = s.members := rfl
@[simp] theorem succeed_draws (s : State) : (succeed s).draws = s.draws := rfl
@[simp] theorem succeed_hostData (s : State) : (succeed s).hostData = s.hostData := rfl

/-! ### A command that ends with an error -/

@[simp] theorem raise_irqEn (e : ErrorCode) (x : Extent) (s : State) : (raise e x s).engine.irqEn = s.engine.irqEn := rfl
@[simp] theorem raise_regs (e : ErrorCode) (x : Extent) (s : State) : (raise e x s).engine.regs = s.engine.regs := rfl
@[simp] theorem raise_latched (e : ErrorCode) (x : Extent) (s : State) : (raise e x s).engine.latched = none := rfl
@[simp] theorem raise_status (e : ErrorCode) (x : Extent) (s : State) : (raise e x s).engine.status = s.engine.status.complete true := rfl
@[simp] theorem raise_results (e : ErrorCode) (x : Extent) (s : State) : (raise e x s).engine.results = freeResults s.draws := rfl
@[simp] theorem raise_error (e : ErrorCode) (x : Extent) (s : State) : (raise e x s).engine.error = e.value := rfl
@[simp] theorem raise_bw (e : ErrorCode) (x : Extent) (s : State) : (raise e x s).engine.bw = s.engine.bw := rfl
@[simp] theorem raise_br (e : ErrorCode) (x : Extent) (s : State) : (raise e x s).engine.br = s.engine.br := rfl
@[simp] theorem raise_rle (e : ErrorCode) (x : Extent) (s : State) : (raise e x s).engine.rle = s.engine.rle := rfl
@[simp] theorem raise_peers (e : ErrorCode) (x : Extent) (s : State) : (raise e x s).peers = s.peers := rfl
@[simp] theorem raise_mem (e : ErrorCode) (x : Extent) (s : State) : (raise e x s).mem = 
    if e.spoilsDst then s.mem.scramble x.base (x.base + x.len) s.draws else s.mem := rfl
@[simp] theorem raise_platform (e : ErrorCode) (x : Extent) (s : State) : (raise e x s).platform = s.platform := rfl
@[simp] theorem raise_inbox (e : ErrorCode) (x : Extent) (s : State) : (raise e x s).inbox = s.inbox := rfl
@[simp] theorem raise_members (e : ErrorCode) (x : Extent) (s : State) : (raise e x s).members = s.members := rfl
@[simp] theorem raise_draws (e : ErrorCode) (x : Extent) (s : State) : (raise e x s).draws = s.draws + 5 := rfl
@[simp] theorem raise_hostData (e : ErrorCode) (x : Extent) (s : State) : (raise e x s).hostData = s.hostData := rfl

/-! ### A decoder session that ends with an error -/

@[simp] theorem raiseRle_irqEn (e : ErrorCode) (x : Extent) (s : State) : (raiseRle e x s).engine.irqEn = s.engine.irqEn := rfl
@[simp] theorem raiseRle_regs (e : ErrorCode) (x : Extent) (s : State) : (raiseRle e x s).engine.regs = s.engine.regs := rfl
@[simp] theorem raiseRle_latched (e : ErrorCode) (x : Extent) (s : State) : (raiseRle e x s).engine.latched = none := rfl
@[simp] theorem raiseRle_status (e : ErrorCode) (x : Extent) (s : State) : (raiseRle e x s).engine.status = s.engine.status.complete true := rfl
@[simp] theorem raiseRle_results (e : ErrorCode) (x : Extent) (s : State) : (raiseRle e x s).engine.results = freeResults s.draws := rfl
@[simp] theorem raiseRle_error (e : ErrorCode) (x : Extent) (s : State) : (raiseRle e x s).engine.error = e.value := rfl
@[simp] theorem raiseRle_bw (e : ErrorCode) (x : Extent) (s : State) : (raiseRle e x s).engine.bw = s.engine.bw := rfl
@[simp] theorem raiseRle_br (e : ErrorCode) (x : Extent) (s : State) : (raiseRle e x s).engine.br = s.engine.br := rfl
@[simp] theorem raiseRle_rle (e : ErrorCode) (x : Extent) (s : State) : (raiseRle e x s).engine.rle = { s.engine.rle with active := false } := rfl
@[simp] theorem raiseRle_peers (e : ErrorCode) (x : Extent) (s : State) : (raiseRle e x s).peers = s.peers := rfl
@[simp] theorem raiseRle_mem (e : ErrorCode) (x : Extent) (s : State) : (raiseRle e x s).mem = 
    if e.spoilsDst then s.mem.scramble x.base (x.base + x.len) s.draws else s.mem := rfl
@[simp] theorem raiseRle_platform (e : ErrorCode) (x : Extent) (s : State) : (raiseRle e x s).platform = s.platform := rfl
@[simp] theorem raiseRle_inbox (e : ErrorCode) (x : Extent) (s : State) : (raiseRle e x s).inbox = s.inbox := rfl
@[simp] theorem raiseRle_members (e : ErrorCode) (x : Extent) (s : State) : (raiseRle e x s).members = s.members := rfl
@[simp] theorem raiseRle_draws (e : ErrorCode) (x : Extent) (s : State) : (raiseRle e x s).draws = s.draws + 5 := rfl
@[simp] theorem raiseRle_hostData (e : ErrorCode) (x : Extent) (s : State) : (raiseRle e x s).hostData = s.hostData := rfl

/-! ### Unsettled bytes -/

@[simp] theorem unsettle_irqEn (s : State) : (unsettle s).engine.irqEn = s.engine.irqEn := rfl
@[simp] theorem unsettle_regs (s : State) : (unsettle s).engine.regs = s.engine.regs := rfl
@[simp] theorem unsettle_latched (s : State) : (unsettle s).engine.latched = s.engine.latched := rfl
@[simp] theorem unsettle_status (s : State) : (unsettle s).engine.status = s.engine.status := rfl
@[simp] theorem unsettle_results (s : State) : (unsettle s).engine.results = s.engine.results := rfl
@[simp] theorem unsettle_error (s : State) : (unsettle s).engine.error = s.engine.error := rfl
@[simp] theorem unsettle_bw (s : State) : (unsettle s).engine.bw = s.engine.bw := rfl
@[simp] theorem unsettle_br (s : State) : (unsettle s).engine.br = s.engine.br := rfl
@[simp] theorem unsettle_rle (s : State) : (unsettle s).engine.rle = s.engine.rle := rfl
@[simp] theorem unsettle_peers (s : State) : (unsettle s).peers = s.peers := rfl
@[simp] theorem unsettle_mem (s : State) : (unsettle s).mem = 
    s.mem.scramble s.engine.bw.unsettled.base (s.engine.bw.unsettled.base + s.engine.bw.unsettled.len) s.draws := rfl
@[simp] theorem unsettle_platform (s : State) : (unsettle s).platform = s.platform := rfl
@[simp] theorem unsettle_inbox (s : State) : (unsettle s).inbox = s.inbox := rfl
@[simp] theorem unsettle_members (s : State) : (unsettle s).members = s.members := rfl
@[simp] theorem unsettle_draws (s : State) : (unsettle s).draws = s.draws + 1 := rfl
@[simp] theorem unsettle_hostData (s : State) : (unsettle s).hostData = s.hostData := rfl

/-! ### A skipped run -/

@[simp] theorem recover_irqEn (b : Bool) (s : State) : (recover b s).engine.irqEn = s.engine.irqEn := rfl
@[simp] theorem recover_regs (b : Bool) (s : State) : (recover b s).engine.regs = s.engine.regs := rfl
@[simp] theorem recover_latched (b : Bool) (s : State) : (recover b s).engine.latched = s.engine.latched := rfl
@[simp] theorem recover_status (b : Bool) (s : State) : (recover b s).engine.status = 
    { s.engine.status with recovered := s.engine.status.recovered || b } := rfl
@[simp] theorem recover_results (b : Bool) (s : State) : (recover b s).engine.results = s.engine.results := rfl
@[simp] theorem recover_error (b : Bool) (s : State) : (recover b s).engine.error = s.engine.error := rfl
@[simp] theorem recover_bw (b : Bool) (s : State) : (recover b s).engine.bw = s.engine.bw := rfl
@[simp] theorem recover_br (b : Bool) (s : State) : (recover b s).engine.br = s.engine.br := rfl
@[simp] theorem recover_rle (b : Bool) (s : State) : (recover b s).engine.rle = s.engine.rle := rfl
@[simp] theorem recover_peers (b : Bool) (s : State) : (recover b s).peers = s.peers := rfl
@[simp] theorem recover_mem (b : Bool) (s : State) : (recover b s).mem = s.mem := rfl
@[simp] theorem recover_platform (b : Bool) (s : State) : (recover b s).platform = s.platform := rfl
@[simp] theorem recover_inbox (b : Bool) (s : State) : (recover b s).inbox = s.inbox := rfl
@[simp] theorem recover_members (b : Bool) (s : State) : (recover b s).members = s.members := rfl
@[simp] theorem recover_draws (b : Bool) (s : State) : (recover b s).draws = s.draws := rfl
@[simp] theorem recover_hostData (b : Bool) (s : State) : (recover b s).hostData = s.hostData := rfl

/-! ### START -/

@[simp] theorem start_irqEn (b : Bool) (s : State) : (s.start b).engine.irqEn = b := rfl
@[simp] theorem start_regs (b : Bool) (s : State) : (s.start b).engine.regs = s.engine.regs := rfl
@[simp] theorem start_latched (b : Bool) (s : State) : (s.start b).engine.latched = some s.engine.regs := rfl
@[simp] theorem start_status (b : Bool) (s : State) : (s.start b).engine.status = s.engine.status.start := rfl
@[simp] theorem start_results (b : Bool) (s : State) : (s.start b).engine.results = .zero := rfl
@[simp] theorem start_error (b : Bool) (s : State) : (s.start b).engine.error = 0 := rfl
@[simp] theorem start_bw (b : Bool) (s : State) : (s.start b).engine.bw = s.engine.bw := rfl
@[simp] theorem start_br (b : Bool) (s : State) : (s.start b).engine.br = s.engine.br := rfl
@[simp] theorem start_rle (b : Bool) (s : State) : (s.start b).engine.rle = s.engine.rle := rfl
@[simp] theorem start_peers (b : Bool) (s : State) : (s.start b).peers = s.peers := rfl
@[simp] theorem start_mem (b : Bool) (s : State) : (s.start b).mem = s.mem := rfl
@[simp] theorem start_platform (b : Bool) (s : State) : (s.start b).platform = s.platform := rfl
@[simp] theorem start_inbox (b : Bool) (s : State) : (s.start b).inbox = s.inbox := rfl
@[simp] theorem start_members (b : Bool) (s : State) : (s.start b).members = s.members := rfl
@[simp] theorem start_draws (b : Bool) (s : State) : (s.start b).draws = s.draws := rfl
@[simp] theorem start_hostData (b : Bool) (s : State) : (s.start b).hostData = s.hostData := rfl

/-! ### STATUS -/

@[simp] theorem complete_busy (t : Status) (b : Bool) : (t.complete b).busy = false := rfl
@[simp] theorem complete_done (t : Status) (b : Bool) : (t.complete b).done = true := rfl
@[simp] theorem complete_err (t : Status) (b : Bool) : (t.complete b).err = b := rfl
@[simp] theorem complete_recovered (t : Status) (b : Bool) : (t.complete b).recovered = t.recovered := rfl
@[simp] theorem complete_ignored (t : Status) (b : Bool) : (t.complete b).ignored = t.ignored := rfl
@[simp] theorem statusStart_busy (t : Status) : t.start.busy = true := rfl
@[simp] theorem statusStart_done (t : Status) : t.start.done = false := rfl
@[simp] theorem statusStart_err (t : Status) : t.start.err = false := rfl
@[simp] theorem statusStart_recovered (t : Status) : t.start.recovered = t.recovered := rfl
@[simp] theorem statusStart_ignored (t : Status) : t.start.ignored = t.ignored := rfl

/-! ### Reset -/

@[simp] theorem applyReset_engine (s : State) : (applyReset s).engine = .reset := by unfold applyReset; split <;> rfl
@[simp] theorem applyReset_peers (s : State) : (applyReset s).peers = s.peers := by unfold applyReset; split <;> rfl
@[simp] theorem applyReset_platform (s : State) : (applyReset s).platform = s.platform := by
  unfold applyReset; split <;> rfl
@[simp] theorem applyReset_inbox (s : State) : (applyReset s).inbox = s.inbox := by unfold applyReset; split <;> rfl
@[simp] theorem applyReset_members (s : State) : (applyReset s).members = s.members := by
  unfold applyReset; split <;> rfl
@[simp] theorem applyReset_hostData (s : State) : (applyReset s).hostData = s.hostData := by
  unfold applyReset; split <;> rfl

end Sys2Proof.Machine
end

