-- ==== Sys2Proof/Laws/Commands.lean ====
section
/-! SUPPORT. The shared shapes of a command: the two ways `runCommand` can go, what delivering an output
leaves, and the ends of the commands that work on an RLE session. Later proofs cite these instead of
unfolding the operations. -/

namespace Sys2Proof.Machine

/-! ### Running a command -/

/-- A command that answers a next state failed its checks, or passed them and ran its body (30_encoding.md
R170). -/
theorem runCommand_cases {d : Demand} {s t : State} {body : State → State} (h : runCommand d s body = .next t) :
    (∃ e, checksPhase s.platform d = some e ∧ t = raise e ⟨0, 0⟩ s) ∨
      (checksPhase s.platform d = none ∧ t = body s) := by
  unfold runCommand at h
  cases hc : checksPhase s.platform d with
  | some e => rw [hc] at h; exact .inl ⟨e, rfl, (Host.Outcome.next.inj h).symm⟩
  | none => rw [hc] at h; exact .inr ⟨rfl, (Host.Outcome.next.inj h).symm⟩

/-- Every command answers a next state. -/
theorem runCommand_next (d : Demand) (s : State) (body : State → State) : ∃ t, runCommand d s body = .next t := by
  unfold runCommand; split <;> exact ⟨_, rfl⟩

theorem runCommand_of_checks {d : Demand} {s : State} {body : State → State}
    (h : checksPhase s.platform d = none) : runCommand d s body = .next (body s) := by
  unfold runCommand; rw [h]

theorem runCommand_of_error {d : Demand} {s : State} {body : State → State} {e : ErrorCode}
    (h : checksPhase s.platform d = some e) : runCommand d s body = .next (raise e ⟨0, 0⟩ s) := by
  unfold runCommand; rw [h]

/-! ### Errors -/

/-- An error changes no byte outside the extent it is given. -/
theorem raise_read (e : ErrorCode) (x : Extent) (s : State) {a : Nat} (h : x.contains a = false) :
    (raise e x s).mem.read a = s.mem.read a := by
  rw [contains_eq_false_iff] at h
  rw [raise_mem]
  split
  · exact read_scramble_outside _ h
  · rfl

/-- An error with an empty extent changes no byte. -/
theorem raise_nowhere_read (e : ErrorCode) (s : State) (a : Nat) :
    (raise e ⟨0, 0⟩ s).mem.read a = s.mem.read a :=
  raise_read e _ s ((contains_eq_false_iff _ _).2 (by simp))

/-- An error that does not spoil the destination changes no byte. -/
theorem raise_read_of_not_spoils {e : ErrorCode} (h : e.spoilsDst = false) (x : Extent) (s : State) (a : Nat) :
    (raise e x s).mem.read a = s.mem.read a := by
  rw [raise_mem, h]; rfl

/-! ### Outputs -/

/-- An output that fits is delivered; one that does not is CAPACITY / DST_OVERFLOW (20_memory.md R120). -/
theorem deliver_cases (x : Extent) (out : List Byte) (r : Results) (s : State) :
    (x.len < out.length ∧ deliver x out r s = raise .dstOverflow x s) ∨
      (out.length ≤ x.len ∧
        deliver x out r s = succeed { s with
          engine := { s.engine with results := { r with len := BitVec.ofNat 32 out.length } }
          mem := (s.mem.writeBytes x.base out).scramble (x.base + out.length) (x.base + x.len) s.draws
          draws := s.draws + 1 }) := by
  unfold deliver
  by_cases h : x.len < out.length
  · exact .inl ⟨h, if_pos h⟩
  · exact .inr ⟨by omega, if_neg h⟩

/-- The engine after an output that fits. -/
theorem deliver_engine {x : Extent} {out : List Byte} (r : Results) (s : State) (h : out.length ≤ x.len) :
    (deliver x out r s).engine = s.engine.finished { r with len := BitVec.ofNat 32 out.length } := by
  unfold deliver; rw [if_neg (by omega)]; rfl

/-- Delivering leaves the world outside as it was. -/
theorem deliver_others (x : Extent) (out : List Byte) (r : Results) (s : State) :
    OthersKept s (deliver x out r s) := by
  rcases deliver_cases x out r s with ⟨-, h⟩ | ⟨-, h⟩ <;> rw [h] <;> exact ⟨rfl, rfl, rfl, rfl⟩

/-- Delivering changes no byte outside the destination (20_memory.md R107). -/
theorem deliver_read (x : Extent) (out : List Byte) (r : Results) (s : State) {a : Nat}
    (h : x.contains a = false) : (deliver x out r s).mem.read a = s.mem.read a := by
  rcases deliver_cases x out r s with ⟨-, hd⟩ | ⟨hl, hd⟩
  · rw [hd]; exact raise_read _ _ _ h
  · rw [contains_eq_false_iff] at h
    rw [hd, succeed_mem]
    simp only
    rw [read_scramble_outside _ (by omega), read_writeBytes_outside _ _ (by omega)]

/-- What the destination holds after an output that fits (20_memory.md R107, R120). -/
theorem deliver_holds {x : Extent} {out : List Byte} (r : Results) (s : State) (h : out.length ≤ x.len) :
    Holds s (deliver x out r s) x out := by
  refine ⟨?_, fun a ha => deliver_read x out r s ha⟩
  rcases deliver_cases x out r s with ⟨hl, -⟩ | ⟨-, hd⟩
  · omega
  · rw [hd, succeed_mem]
    simp only
    rw [readBytes_congr (m' := s.mem.writeBytes x.base out) fun a _ h2 => read_scramble_outside _ (.inl h2),
      readBytes_writeBytes]

/-- Delivering never touches the registers, IRQ_EN and the sessions. -/
theorem deliver_kept (x : Extent) (out : List Byte) (r : Results) (s : State) :
    (deliver x out r s).engine.regs = s.engine.regs ∧ (deliver x out r s).engine.irqEn = s.engine.irqEn ∧
      (deliver x out r s).engine.bw = s.engine.bw ∧ (deliver x out r s).engine.br = s.engine.br ∧
      (deliver x out r s).engine.rle = s.engine.rle := by
  rcases deliver_cases x out r s with ⟨-, h⟩ | ⟨-, h⟩ <;> rw [h] <;> exact ⟨rfl, rfl, rfl, rfl, rfl⟩

/-- A one-shot command that passes its checks and delivers an output that fits ends as R610 says. -/
theorem ends_of_deliver {i : Instr} {s s' : State} {x : Extent} {out : List Byte} {r : Results}
    (hi : exec i s = .next (deliver x out r s')) (hs : OthersKept s s') (h : out.length ≤ x.len) :
    Ends i s (deliver x out r s') (s'.engine.finished { r with len := BitVec.ofNat 32 out.length }) := by
  refine ⟨hi, deliver_engine r s' h, ?_⟩
  obtain ⟨h1, h2, h3, h4⟩ := deliver_others x out r s'
  obtain ⟨g1, g2, g3, g4⟩ := hs
  exact ⟨h1.trans g1, h2.trans g2, h3.trans g3, h4.trans g4⟩

theorem others_refl (s : State) : OthersKept s s := ⟨rfl, rfl, rfl, rfl⟩

/-! ### RLE sessions -/

/-- A session command fails on a run header and ends the session, or goes on with the values and the
moved session (41_rle.md R281, R283). -/
theorem withRleValues_cases (max : Nat) (dst : Extent) (s : State) (k : List Nat → State → State) :
    (∃ e c, nextValues s.engine.rle.w (s.bytesOf s.engine.rle.extent) max s.engine.rle.cursor = (.error e, c) ∧
        withRleValues max dst s k = raiseRle e dst (recover c.recovered s)) ∨
      ∃ vs c, nextValues s.engine.rle.w (s.bytesOf s.engine.rle.extent) max s.engine.rle.cursor = (.ok vs, c) ∧
        withRleValues max dst s k = k vs
          { recover c.recovered s with
            engine := { (recover c.recovered s).engine with
              rle := s.engine.rle.moved c
              results := { (recover c.recovered s).engine.results with used := BitVec.ofNat 32 c.pos } } } := by
  rcases hn : nextValues s.engine.rle.w (s.bytesOf s.engine.rle.extent) max s.engine.rle.cursor with ⟨e | vs, c⟩
  · exact .inl ⟨e, c, rfl, by unfold withRleValues; simp only [hn]⟩
  · exact .inr ⟨vs, c, rfl, by unfold withRleValues; simp only [hn]⟩

/-- A varint fails with TRUNCATED or BAD_VARINT only (20_memory.md R124). -/
theorem readVarintFrom_error {V : Nat} {inp : List Byte} {e : ErrorCode} :
    ∀ {left scale u p : Nat}, readVarintFrom V inp left scale u p = .error e → e = .truncated ∨ e = .badVarint := by
  intro left
  induction left with
  | zero => intro _ _ _ h; simp [readVarintFrom] at h; exact .inr h.symm
  | succ left ih =>
    intro scale u p h
    unfold readVarintFrom at h
    split at h
    · exact .inl (by simpa using h.symm)
    · simp only at h
      split at h
      · split at h
        · exact .inr (by simpa using h.symm)
        · cases h
      · exact ih h

theorem readVarint_error {V p : Nat} {inp : List Byte} {e : ErrorCode} (h : readVarint V inp p = .error e) :
    e = .truncated ∨ e = .badVarint := readVarintFrom_error h

theorem readRun_error {w pos : Nat} {inp : List Byte} {e : ErrorCode} (h : readRun w inp pos = .error e) :
    e = .truncated ∨ e = .badVarint := by
  unfold readRun at h
  split at h
  · rename_i hv; exact (Except.error.inj h) ▸ readVarint_error hv
  · simp only at h
    split at h <;> split at h <;> first | cases h; exact .inl rfl | cases h

theorem nextRun_error {w : Nat} {inp : List Byte} {e : ErrorCode} :
    ∀ {fuel : Nat} {c d : RleCursor}, nextRun w inp fuel c = (.error e, d) → e = .truncated ∨ e = .badVarint := by
  intro fuel
  induction fuel with
  | zero => intro c d h; simp [nextRun] at h
  | succ fuel ih =>
    intro c d h
    unfold nextRun at h
    split at h
    · simp at h
    · split at h
      · rename_i hr; simp only [Prod.mk.injEq, Except.error.injEq] at h; exact h.1 ▸ readRun_error hr
      · exact ih h
      · simp at h

theorem nextValue_error {w : Nat} {inp : List Byte} {e : ErrorCode} {c d : RleCursor}
    (h : nextValue w inp c = (.error e, d)) : e = .truncated ∨ e = .badVarint := by
  unfold nextValue at h
  split at h
  · simp at h
  · split at h
    · rename_i hn; simp only [Prod.mk.injEq, Except.error.injEq] at h; exact h.1 ▸ nextRun_error hn
    · split at h <;> simp at h

theorem nextValues_error {w : Nat} {inp : List Byte} {e : ErrorCode} :
    ∀ {max : Nat} {c d : RleCursor}, nextValues w inp max c = (.error e, d) → e = .truncated ∨ e = .badVarint := by
  intro max
  induction max with
  | zero => intro c d h; simp [nextValues] at h
  | succ max ih =>
    intro c d h
    unfold nextValues at h
    split at h
    · rename_i hn; simp only [Prod.mk.injEq, Except.error.injEq] at h; exact h.1 ▸ nextValue_error hn
    · simp at h
    · split at h
      · rename_i hn; simp only [Prod.mk.injEq, Except.error.injEq] at h; obtain ⟨rfl, -⟩ := h; exact ih hn
      · simp at h

/-- No more values come out than were asked for (41_rle.md R285). -/
theorem nextValues_length {w : Nat} {inp : List Byte} :
    ∀ {max : Nat} {c d : RleCursor} {vs : List Nat}, nextValues w inp max c = (.ok vs, d) → vs.length ≤ max := by
  intro max
  induction max with
  | zero => intro c d vs h; simp [nextValues] at h; simp [← h.1]
  | succ max ih =>
    intro c d vs h
    unfold nextValues at h
    split at h
    · simp at h
    · simp at h; obtain ⟨rfl, -⟩ := h; simp
    · split at h
      · simp at h
      · rename_i hn
        simp only [Prod.mk.injEq, Except.ok.injEq] at h
        obtain ⟨rfl, -⟩ := h; exact Nat.succ_le_succ (ih hn)

end Sys2Proof.Machine
end

