-- ==== Sys2Proof/Laws/Decoders.lean ====
section
/-! SUPPORT. The decoders: which errors they can raise, and that an RLE cursor stays sound. Later proofs cite
these instead of unfolding a decoder. -/

namespace Sys2Proof.Machine

/-- A cursor inside the input with a sound current run (10_state.md R72). -/
def RleCursor.Sound (w len : Nat) (c : RleCursor) : Prop := c.pos ≤ len ∧ c.run.Sound w c.pos

/-- A run that was read lies inside the input (41_rle.md R272). -/
theorem readRun_sound {w pos : Nat} {inp : List Byte} {run q} (h : readRun w inp pos = .ok (run, q)) :
    q ≤ inp.length ∧ run.Sound w q := by
  unfold readRun at h
  split at h
  · cases h
  · simp only at h
    split at h
    · split at h
      · cases h
      · simp only [Except.ok.injEq, Prod.mk.injEq] at h
        obtain ⟨h1, rfl⟩ := h
        refine ⟨by omega, ?_⟩
        subst h1
        split
        · trivial
        · refine ⟨by omega, ?_⟩
          rename_i hh p _ _ _ _
          have : (0 + 8 * (hh / 2)) * w = 8 * (hh/2 * w) := by ring
          rw [this]; omega
    · split at h
      · cases h
      · simp only [Except.ok.injEq, Prod.mk.injEq] at h
        obtain ⟨h1, rfl⟩ := h
        refine ⟨by omega, ?_⟩
        subst h1
        split
        · trivial
        · refine ⟨by omega, ?_⟩
          refine lt_of_lt_of_le (leValue_lt _) (Nat.pow_le_pow_right (by decide) (by simp))

theorem nextRun_sound {w : Nat} {inp : List Byte} {r} :
    ∀ {fuel : Nat} {c d : RleCursor}, RleCursor.Sound w inp.length c → nextRun w inp fuel c = (r, d) →
        RleCursor.Sound w inp.length d := by
  intro fuel
  induction fuel with
  | zero => intro c d hc h; simp [nextRun] at h; exact h.2 ▸ hc
  | succ fuel ih =>
    intro c d hc h
    unfold nextRun at h
    split at h
    · simp at h; exact h.2 ▸ hc
    · split at h
      · simp at h; exact h.2 ▸ hc
      · rename_i hr; have := readRun_sound hr
        exact ih (c := ⟨_, .none, true⟩) ⟨this.1, this.2⟩ h
      · rename_i _ hr; have := readRun_sound hr
        simp at h; obtain ⟨-, rfl⟩ := h; exact this

theorem rleRun_value_sound {w pos : Nat} {inp} {run run' : RleRun} {v} (h : run.Sound w pos) (hv : run.value w
    inp = some (v, run')) : run'.Sound w pos := by
  cases run with
  | none => cases hv
  | rep r x =>
    simp [RleRun.value] at hv; obtain ⟨-, rfl⟩ := hv
    split
    · trivial
    · exact ⟨by omega, h.2⟩
  | packed r d k =>
    simp [RleRun.value] at hv; obtain ⟨-, rfl⟩ := hv
    split
    · trivial
    · refine ⟨by omega, ?_⟩
      have := h.2
      rwa [show k + 1 + (r - 1) = k + r by omega]

theorem nextValue_sound {w : Nat} {inp : List Byte} {r} {c d : RleCursor} (hc : RleCursor.Sound w inp.length c)
    (h : nextValue w inp c = (r, d)) : RleCursor.Sound w inp.length d := by
  unfold nextValue at h
  split at h
  · rename_i hv; simp at h; obtain ⟨-, rfl⟩ := h; exact ⟨hc.1, rleRun_value_sound hc.2 hv⟩
  · split at h
    · rename_i hn; simp at h; exact h.2 ▸ nextRun_sound hc hn
    · rename_i hn; have := nextRun_sound hc hn
      split at h
      · rename_i hv; simp at h; obtain ⟨-, rfl⟩ := h; exact ⟨this.1, rleRun_value_sound this.2 hv⟩
      · simp at h; exact h.2 ▸ this

/-- Reading values keeps the cursor sound. -/
theorem nextValues_sound {w : Nat} {inp : List Byte} {r} :
    ∀ {max : Nat} {c d : RleCursor}, RleCursor.Sound w inp.length c → nextValues w inp max c = (r, d) →
        RleCursor.Sound w inp.length d := by
  intro max
  induction max generalizing r with
  | zero => intro c d hc h; simp [nextValues] at h; exact h.2 ▸ hc
  | succ max ih =>
    intro c d hc h
    unfold nextValues at h
    split at h
    · rename_i hn; simp at h; exact h.2 ▸ nextValue_sound hc hn
    · rename_i hn; simp at h; exact h.2 ▸ nextValue_sound hc hn
    · rename_i hn; have h1 := nextValue_sound hc hn
      split at h
      · rename_i hn2; simp at h; exact h.2 ▸ ih h1 hn2
      · rename_i hn2; simp at h; exact h.2 ▸ ih h1 hn2

theorem malformed_of_truncated_or_badVarint {e : ErrorCode} (h : e = .truncated ∨ e = .badVarint) : e.kind = 3
    := by rcases h with rfl | rfl <;> rfl

/-- A delta header fails with a MALFORMED error only (42_delta.md R340). -/
theorem deltaHeader_malformed {W inp e} (h : deltaHeader W inp = .error e) : e.kind = 3 := by
  unfold deltaHeader at h
  simp only [bind, Except.bind] at h
  repeat' split at h
  all_goals first | cases h; (rename_i hv; exact malformed_of_truncated_or_badVarint (readVarint_error hv)) |
      (cases h; rfl) | cases h

theorem deltaMinis_malformed {W perMini mn inp e} : ∀ {wds left p v}, deltaMinis W perMini mn inp wds left p v
    = .error e → e.kind = 3 := by
  intro wds
  induction wds with
  | nil => intro _ _ _ h; simp [deltaMinis] at h
  | cons w ws ih =>
    intro left p v h
    unfold deltaMinis at h
    simp only at h
    split at h
    · simp at h
    · split at h
      · cases h; rfl
      · split at h
        · cases h; rfl
        · split at h
          · rename_i hm; cases h; exact ih hm
          · cases h

theorem deltaBlocksFrom_malformed {W perMini minis inp e} : ∀ {fuel left p v}, deltaBlocksFrom W perMini minis
    inp fuel left p v = .error e → e.kind = 3 := by
  intro fuel
  induction fuel with
  | zero => intro _ _ _ h; simp [deltaBlocksFrom] at h
  | succ fuel ih =>
    intro left p v h
    unfold deltaBlocksFrom at h
    split at h
    · simp at h
    · split at h
      · rename_i hv; cases h; exact malformed_of_truncated_or_badVarint (readVarint_error hv)
      · split at h
        · cases h; rfl
        · simp only at h
          split at h
          · rename_i hm; cases h; exact deltaMinis_malformed hm
          · split at h
            · rename_i hm; cases h; exact ih hm
            · cases h

/-- Reading delta values fails with a MALFORMED error only (42_delta.md R340). -/
theorem deltaValues_malformed {W hd inp n e} (h : deltaValues W hd inp n = .error e) : e.kind = 3 := by
  unfold deltaValues at h
  split at h
  · cases h
  · split at h
    · rename_i hb; cases h; exact deltaBlocksFrom_malformed hb
    · cases h

/-- The errors a decompressor can raise: MALFORMED, or one of CAPACITY. -/
def DecoderError (e : ErrorCode) : Prop := e.kind = 3 ∨ e = .dstOverflow ∨ e = .dstTooSmall

theorem lz4Extension_error {inp e} : ∀ {fuel ip len}, lz4Extension inp fuel ip len = .error e → DecoderError e
    := by
  intro fuel
  induction fuel with
  | zero => intro _ _ h; cases h; exact .inl rfl
  | succ fuel ih =>
    intro ip len h
    unfold lz4Extension at h
    split at h
    · cases h; exact .inl rfl
    · split at h
      · exact ih h
      · cases h

theorem lz4Length_error {inp nib ip e} (h : lz4Length inp nib ip = .error e) : DecoderError e := by
  unfold lz4Length at h
  split at h
  · exact lz4Extension_error h
  · cases h

theorem lz4Sequences_error {inp cap e} : ∀ {fuel ip o}, lz4Sequences inp cap fuel ip o = .error e →
    DecoderError e := by
  intro fuel
  induction fuel with
  | zero => intro _ _ h; cases h; exact .inl rfl
  | succ fuel ih =>
    intro ip o h
    unfold lz4Sequences at h
    simp only at h
    repeat' split at h
    all_goals first
      | exact ih h
      | (cases h; exact .inl rfl)
      | (cases h; exact .inr (.inl rfl))
      | (cases h; rename_i hl; exact lz4Length_error hl)
      | cases h

/-- What LZ4 decoding can raise (45_lz4.md R510). -/
theorem lz4Decompress_error (inp cap e) (h : lz4Decompress inp cap = .error e) : DecoderError e := by
  unfold lz4Decompress lz4Decode at h
  split at h
  · cases h; rename_i hl; exact lz4Sequences_error hl
  · cases h

theorem snappyElements_error {inp len e} : ∀ {fuel ip out}, snappyElements inp len fuel ip out = .error e →
    DecoderError e := by
  intro fuel
  induction fuel with
  | zero => intro _ _ h; cases h
  | succ fuel ih =>
    intro ip o h
    unfold snappyElements at h
    simp only at h
    repeat' split at h
    all_goals first
      | exact ih h
      | (cases h; exact .inl rfl)
      | cases h

/-- What Snappy decoding can raise (46_snappy.md R560). -/
theorem snappyDecompress_error (inp cap e) (h : snappyDecompress inp cap = .error e) : DecoderError e := by
  unfold snappyDecompress at h
  repeat' split at h
  all_goals first
    | (cases h; rename_i hv; exact .inl (malformed_of_truncated_or_badVarint (readVarint_error hv)))
    | (cases h; rename_i hv; exact snappyElements_error hv)
    | (cases h; exact .inr (.inr rfl))
    | cases h

theorem takeBits_error {inp bp k e} (h : takeBits inp bp k = .error e) : DecoderError e := by
  unfold takeBits at h; split at h <;> cases h; exact .inl rfl

theorem decodeSymFrom_error {table inp e} : ∀ {left l c bp}, decodeSymFrom table inp left l c bp = .error e →
    DecoderError e := by
  intro left
  induction left with
  | zero => intro _ _ _ h; cases h; exact .inl rfl
  | succ left ih =>
    intro l c bp h
    unfold decodeSymFrom at h
    simp only at h
    repeat' split at h
    all_goals first
     | exact ih h
     | (cases h; rename_i hv; exact takeBits_error hv)
     | cases h

theorem takeBased_error {row inp bp e} (h : takeBased row inp bp = .error e) : DecoderError e := by
  unfold takeBased at h
  repeat' split at h
  all_goals first
     | (cases h; rename_i hv; exact takeBits_error hv)
     | (cases h; exact .inl rfl)
     | cases h

theorem inflateCopy_error {dist inp cap s o e} (h : inflateCopy dist inp cap s o = .error e) :
    DecoderError e := by
  unfold inflateCopy at h
  split at h
  · cases h; rename_i hv; exact takeBased_error hv
  · split at h
    · cases h; rename_i hv; exact decodeSymFrom_error hv
    · split at h
      · cases h; rename_i hv; exact takeBased_error hv
      · split at h
        · cases h; exact .inl rfl
        · split at h
          · cases h; exact .inr (.inl rfl)
          · cases h

theorem inflateSymbol_error {dist inp cap s o e} (h : inflateSymbol dist inp cap s o = .error e) :
    DecoderError e := by
  unfold inflateSymbol at h
  split at h
  · split at h
    · cases h; exact .inr (.inl rfl)
    · cases h
  · split at h
    · cases h
    · split at h
      · cases h; rename_i hv; exact inflateCopy_error hv
      · cases h

theorem inflateData_error {lit dist inp cap e} : ∀ {fuel o}, inflateData lit dist inp cap fuel o =
    .error e → DecoderError e := by
  intro fuel
  induction fuel with
  | zero => intro _ h; cases h; exact .inl rfl
  | succ fuel ih =>
    intro o h
    unfold inflateData at h
    split at h
    · cases h; rename_i hv; exact decodeSymFrom_error hv
    · split at h
      · cases h; rename_i hv; exact inflateSymbol_error hv
      · split at h
        · cases h
        · exact ih h

theorem inflateStored_error {inp cap bp out e} (h : inflateStored inp cap bp out = .error e) : DecoderError e
    := by
  unfold inflateStored at h
  simp only at h
  repeat' split at h
  all_goals first
     | (cases h; exact .inl rfl)
     | (cases h; exact .inr (.inl rfl))
     | cases h

theorem readLens_error {table inp want e} : ∀ {fuel bp lens}, readLens table inp want fuel bp lens = .error e →
    DecoderError e := by
  intro fuel
  induction fuel with
  | zero => intro _ _ h; cases h
  | succ fuel ih =>
    intro bp lens h
    unfold readLens at h
    split at h
    · cases h
    · split at h
      · cases h; rename_i hv; exact decodeSymFrom_error hv
      · split at h
        · exact ih h
        · generalize (if _ = 16 then lens.headD 0 else 0) = V at h
          dsimp only at h
          split at h
          · cases h; rename_i hv; exact takeBits_error hv
          · generalize (if _ = 18 then 11 else 3) = W at h
            split at h
            · cases h; exact .inl rfl
            · split at h
              · cases h; exact .inl rfl
              · exact ih h

theorem readClLens_error {inp e} : ∀ {n bp}, readClLens inp n bp = .error e → DecoderError e := by
  intro n
  induction n with
  | zero => intro _ h; cases h
  | succ n ih =>
    intro bp h
    unfold readClLens at h
    repeat' split at h
    all_goals first
     | (cases h; rename_i hv; exact takeBits_error hv)
     | (cases h; rename_i hv; exact ih hv)
     | cases h

theorem except_bind_error {α β : Type} {x : Except ErrorCode α} {f : α → Except ErrorCode β} {e} (h : (x >>= f)
    = .error e) : x = .error e ∨ ∃ a, x = .ok a ∧ f a = .error e := by
  cases x with
  | error a => left; have h' : (Except.error a : Except ErrorCode β) = .error e := h; cases h'; rfl
  | ok a => right; exact ⟨a, rfl, h⟩

theorem readDynamic_error {inp bp e} (h : readDynamic inp bp = .error e) : DecoderError e := by
  unfold readDynamic at h
  rcases except_bind_error h with h | ⟨⟨_, _⟩, -, h⟩
  · exact takeBits_error h
  rcases except_bind_error h with h | ⟨⟨_, _⟩, -, h⟩
  · exact takeBits_error h
  rcases except_bind_error h with h | ⟨⟨_, _⟩, -, h⟩
  · exact takeBits_error h
  simp only at h
  split at h
  · cases h; exact .inl rfl
  rcases except_bind_error h with h | ⟨⟨_, _⟩, -, h⟩
  · exact readClLens_error h
  simp only at h
  split at h
  · cases h; exact .inl rfl
  rcases except_bind_error h with h | ⟨⟨_, _⟩, -, h⟩
  · exact readLens_error h
  simp only at h
  split at h
  · cases h; exact .inl rfl
  split at h
  · cases h
  · cases h; exact .inl rfl

theorem inflateBlocks_error {inp cap e} : ∀ {fuel o}, inflateBlocks inp cap fuel o = .error e → DecoderError e
    := by
  intro fuel
  induction fuel with
  | zero => intro _ h; cases h; exact .inl rfl
  | succ fuel ih =>
    intro o h
    unfold inflateBlocks at h
    rcases except_bind_error h with h | ⟨⟨_, _⟩, -, h⟩
    · exact takeBits_error h
    rcases except_bind_error h with h | ⟨⟨ty, _⟩, -, h⟩
    · exact takeBits_error h
    have hj : ∀ {fin : Nat} {o' : Inflated}, (if fin = 1 then Except.ok o' else inflateBlocks inp cap fuel o')
        = .error e → DecoderError e := by
      intro fin o' h
      split at h
      · cases h
      · exact ih h
    dsimp only at h
    split at h
    · rcases except_bind_error h with h | ⟨⟨_, _⟩, -, h⟩
      · exact inflateStored_error h
      · exact hj h
    · rcases except_bind_error h with h | ⟨_, -, h⟩
      · exact inflateData_error h
      · exact hj h
    · rcases except_bind_error h with h | ⟨⟨_, _⟩, -, h⟩
      · exact readDynamic_error h
      rcases except_bind_error h with h | ⟨_, -, h⟩
      · exact inflateData_error h
      · exact hj h
    · cases h; exact .inl rfl

/-- What DEFLATE decoding can raise (44_deflate.md R430). -/
theorem deflateDecompress_error (inp cap e) (h : deflateDecompress inp cap = .error e) : DecoderError e := by
  unfold deflateDecompress inflate at h
  split at h
  · cases h; rename_i hv; exact inflateBlocks_error hv
  · cases h

end Sys2Proof.Machine
end

