-- ==== Sys2Proof/Laws/Effects.lean ====
section
/-! SUPPORT. What the meaning of any command can do, said once for all commands: `exec_effect`. Statements about
every command follow from it by cases, without unfolding a meaning. -/

namespace Sys2Proof.Machine

/-- What a command that succeeds may do to memory, and the draws after it: nothing; an output at its
destination extent; the unsettled bytes of the bit writer made open; or a flush. -/
inductive MemChange (i : Instr) (s : State) (bw' : BitWriter) : Memory → Nat → Prop
  | same : MemChange i s bw' s.mem s.draws
  | out (x : Extent) (out : List Byte) (hx : dstExtent s.engine i = some x) (hs : x.base + x.len ≤ 2 ^ 32) (hl
      : out.length ≤ x.len) :
      MemChange i s bw' ((s.mem.writeBytes x.base out).scramble (x.base + out.length) (x.base + x.len) s.draws)
          (s.draws + 1)
  | unsettle (x : Extent) (hx : dstExtent s.engine i = some x) (hs : s.engine.bw.Sound → x.base + x.len ≤ 2 ^
      32) (hsub : s.engine.bw.Sound → x.base ≤ bw'.unsettled.base ∧ bw'.unsettled.base + bw'.unsettled.len ≤
      x.base + x.len)
     : MemChange i s bw' (s.mem.scramble bw'.unsettled.base (bw'.unsettled.base + bw'.unsettled.len) s.draws)
         (s.draws + 1)
  | flush (hi : i = .bwFlush) : MemChange i s bw' (s.mem.writeBytes (s.engine.bw.base.toNat +
      s.engine.bw.settled) s.engine.bw.flushBytes) s.draws

/-- The commands that read from the RLE session (41_rle.md R284 to R286). -/
def UsesRleSession (i : Instr) : Prop := i = .rleDecGet ∨ i = .rleDecBatch ∨ i = .rleDecSkip

/-- The commands of the bit writer (40_bitpack.md R220 to R225). -/
def IsWriter (i : Instr) : Prop := i = .bwInit ∨ i = .bwPutBit ∨ (∃ n, i = .bwPut n) ∨ (∃ n, i = .bwPut64 n) ∨
    i = .bwFlush

/-- The commands of the bit reader (40_bitpack.md R230 to R235). -/
def IsReader (i : Instr) : Prop := i = .brInit ∨ i = .brGetBit ∨ (∃ n, i = .brGet n) ∨ (∃ n, i = .brGet64 n)

/-- Everything a command can do: an error of the checks phase; an error of the execute phase; an error that
ends the RLE session; or success. -/
inductive Effect (i : Instr) (s : State) : State → Prop
  | checks (e : ErrorCode) (h : e.kind = 1 ∨ e = .busFault ∨ e = .dstTooSmall) : Effect i s (raise e ⟨0, 0⟩ s)
  | error (e : ErrorCode) (x : Extent) (b : Bool) (ms : List (List Byte)) (hx : dstExtent s.engine i = some x)
      (hs : x.base + x.len ≤ 2 ^ 32)
     (he : e.kind = 3 ∨ e = .dstOverflow ∨ (e = .dstTooSmall ∧ b = false)) (hi : ¬ UsesRleSession i) : Effect i
         s (raise e x (recover b {s with members := ms}))
  | rle (e : ErrorCode) (x : Extent) (b : Bool) (hx : (dstExtent s.engine i = some x ∧ x.base + x.len ≤ 2 ^ 32)
      ∨ (dstExtent s.engine i = none ∧ x = ⟨0, 0⟩))
     (he : e.kind = 3) (hi : UsesRleSession i) : Effect i s (raiseRle e x (recover b s))
  | done (b : Bool) (r : Results) (bw' : BitWriter) (br' : BitReader) (rle' : RleSession) (ms : List (List
      Byte)) (m : Memory) (d : Nat)
     (hm : MemChange i s bw' m d)
     (hbw : (IsWriter i ∧ (s.engine.bw.Sound → bw'.Sound)) ∨ bw' = s.engine.bw)
     (hbr : (IsReader i ∧ (s.engine.br.Sound → br'.Sound)) ∨ br' = s.engine.br)
     (hrle : ((UsesRleSession i ∨ ∃ w, i = .rleDecInit w) ∧ (s.engine.rle.Sound → rle'.Sound)) ∨ rle' =
         s.engine.rle) :
     Effect i s (succeed { s with
       engine := { s.engine with status := { s.engine.status with
           recovered := s.engine.status.recovered || b }, results := r, bw := bw', br := br', rle := rle' },
       members := ms, mem := m, draws := d })

theorem widthError_argument (l a e) (h : widthError l a = some e) : e.kind = 1 := by
  unfold widthError at h; split at h <;> cases h; rfl

theorem elemError_argument (a e) (h : elemError a = some e) : e.kind = 1 := by
  unfold elemError at h; split at h <;> cases h; rfl

theorem levelError_argument (a e) (h : levelError a = some e) : e.kind = 1 := by
  unfold levelError at h; split at h <;> cases h; rfl

theorem dst_inSpace_of_checks {s : State} {f sz a b} (h : checksPhase s.platform (oneShot s.operands f sz a b)
    = none) :
    s.operands.dst.base + s.operands.dst.len ≤ 2 ^ 32 := by
  rw [checksPhase_eq_none_iff] at h
  exact h.2.2.1 _ (by simp [oneShot])

theorem recover_false (s : State) : recover false s = s := by
  rcases s with ⟨⟨_,_,_,⟨_,_,_,r,_⟩,_,_,_,_,_⟩,_,_,_,_,_,_,_⟩; simp [recover]

theorem effect_of_recovered_deliver {i : Instr} {s : State} {x : Extent} {out r} (b ms) (hx : dstExtent
    s.engine i = some x) (hs : x.base + x.len ≤ 2 ^ 32) (hi : ¬UsesRleSession i) :
    Effect i s (deliver x out r (recover b {s with members := ms})) := by
  rcases deliver_cases x out r (recover b {s with members := ms}) with ⟨-, h⟩ | ⟨hl, h⟩
  · rw [h]; exact .error _ _ _ _ hx hs (.inr (.inl rfl)) hi
  · rw [h]
    exact .done b _ _ _ _ ms _ _ (.out x out hx hs hl) (.inr rfl) (.inr rfl) (.inr rfl)

theorem effect_of_deliver {i : Instr} {s : State} {x : Extent} {out r} (hx : dstExtent s.engine i = some x) (hs
    : x.base + x.len ≤ 2 ^ 32) (hi : ¬UsesRleSession i) :
    Effect i s (deliver x out r s) := by
  have := effect_of_recovered_deliver (out := out) (r := r) false s.members hx hs hi
  rwa [recover_false] at this

theorem effect_of_raise {i : Instr} {s : State} {x : Extent} {e} (hx : dstExtent s.engine i = some x) (hs :
    x.base + x.len ≤ 2 ^ 32) (hi : ¬UsesRleSession i) (he : e.kind = 3 ∨ e = .dstOverflow ∨ e = .dstTooSmall) :
    Effect i s (raise e x s) := by
  have := Effect.error (i := i) (s := s) e x false s.members hx hs (by tauto) hi
  rwa [recover_false] at this

theorem effect_of_run {i : Instr} {s t : State} {d : Demand} {body} (he : runCommand d s body = .next t) (hf :
    ∀ e, d.field = some e → e.kind = 1)
    (hb : checksPhase s.platform d = none → Effect i s (body s)) : Effect i s t := by
  rcases runCommand_cases he with ⟨e, h1, rfl⟩ | ⟨h1, rfl⟩
  · exact .checks e (checksPhase_error h1 hf)
  · exact hb h1

theorem effect_of_oneShot {i : Instr} {s t : State} {f sz a b} {body} (he : runCommand (oneShot s.operands f sz
    a b) s body = .next t) (hf : ∀ e, f = some e → e.kind = 1)
    (hb : s.operands.dst.base + s.operands.dst.len ≤ 2 ^ 32 → Effect i s (body s)) : Effect i s t :=
  effect_of_run he hf fun h => hb (dst_inSpace_of_checks h)

theorem effect_of_put {i : Instr} {s t : State} {f n v} (he : putBits f n v s = .next t) (hf : ∀ e, f = some e
    → e.kind = 1) (hi : IsWriter i) (hx : dstExtent s.engine i = some s.engine.bw.extent) : Effect i s t := by
  unfold putBits at he
  refine effect_of_run he hf fun hc => ?_
  rw [checksPhase_eq_none_iff] at hc
  have hroom := hc.2.2.2.2.2.2.2.2
  simp only at hroom
  have same : Effect i s (succeed (unsettle { s with
      engine := { s.engine with
        status := { s.engine.status with recovered := s.engine.status.recovered || false }
        bw := s.engine.bw.put n v } })) := ?_
  · simpa using same
  refine .done false _ _ _ _ _ _ _ (.unsettle _ hx (fun h => h.inSpace) fun h => ?_) (.inl ⟨hi, fun h => ?_⟩)
      (.inr rfl) (.inr rfl)
  · have := h.settled_le; have := h.bitpos_le
    simp [BitWriter.unsettled, BitWriter.put, BitWriter.extent]; omega
  · constructor
    · exact h.cap_lt
    · exact h.inSpace
    · simp [BitWriter.put, length_bitsOf, h.bits_length]
    · exact hroom
    · have := h.settled_le; simp [BitWriter.put]; omega

theorem effect_of_read {i : Instr} {s : State} {n} (hi : IsReader i) : Effect i s (readBitsBody n s) := by
  have := Effect.done (i := i) (s := s) false {s.engine.results with
      val := BitVec.ofNat 32 (getBits (s.bytesOf s.engine.br.extent) s.engine.br.bitpos
      (s.engine.br.deliverable n)), valHi := BitVec.ofNat 32 ((getBits (s.bytesOf s.engine.br.extent)
      s.engine.br.bitpos (s.engine.br.deliverable n))/2^32), count := BitVec.ofNat 32 (s.engine.br.deliverable
      n)} s.engine.bw {s.engine.br with bitpos := s.engine.br.bitpos + s.engine.br.deliverable n} s.engine.rle
      s.members s.mem s.draws .same (.inr rfl) (.inl ⟨hi, fun h => ?_⟩) (.inr rfl)
  · simpa [readBitsBody] using this
  · refine ⟨h.len_lt, h.inSpace, ?_⟩
    have := h.bitpos_le
    simp [BitReader.deliverable]; omega

theorem cursor_sound {x : RleSession} (h : x.Sound) : RleCursor.Sound x.w x.len x.cursor := ⟨h.pos_le, h.run⟩

/-- The RLE session stays sound when it moves. -/
theorem moved_sound {s : State} {max r c} (hn : nextValues s.engine.rle.w (s.bytesOf s.engine.rle.extent) max
    s.engine.rle.cursor = (r, c)) :
   s.engine.rle.Sound → (s.engine.rle.moved c).Sound := by
  intro h
  have hl : (s.bytesOf s.engine.rle.extent).length = s.engine.rle.len := by simp [State.bytesOf,
      RleSession.extent]
  have := nextValues_sound (c := s.engine.rle.cursor) (by rw [hl]; exact cursor_sound h) hn
  rw [hl] at this
  exact ⟨h.len_lt, h.inSpace, h.w_le, this.1, this.2⟩

theorem effect_of_deltaDec {i W E} {s t : State} (h : deltaDec W E s = .next t) (hx : dstExtent s.engine i =
    some s.operands.dst) (hi : ¬UsesRleSession i)
   (hk : ∀ e, deltaHeader W (s.bytesOf s.operands.src) = .error e → e.kind = 3) (hk2 : ∀ hd n e, deltaValues W
       hd (s.bytesOf s.operands.src) n = .error e → e.kind = 3) : Effect i s t := by
  unfold deltaDec at h
  refine effect_of_oneShot h (by simp) fun hs => ?_
  simp only
  split
  · rename_i e he; exact effect_of_raise hx hs hi (.inl (hk _ he))
  · split
    · exact effect_of_raise hx hs hi (.inr (.inr rfl))
    · split
      · rename_i e he; exact effect_of_raise hx hs hi (.inl (hk2 _ _ _ he))
      · exact effect_of_deliver hx hs hi

theorem effect_of_compress {i : Instr} {s t : State} {f d out} (h : compressRun f d out s = .next t) (hf : ∀ e,
    f = some e → e.kind = 1)
  (hx : dstExtent s.engine i = some s.operands.dst) (hi : ¬UsesRleSession i) : Effect i s t := by
  unfold compressRun at h
  refine effect_of_oneShot h hf fun hs => ?_
  have := effect_of_recovered_deliver (s := s) (out := out (s.bytesOf s.operands.src)) (r := { s.engine.results
      with used := s.operands.srcLen }) false (if d then s.members.tail else s.members) hx hs hi
  rwa [recover_false] at this

theorem effect_of_decompress {i : Instr} {s t : State} {dec} (h : decompressRun dec s = .next t)
  (hk : ∀ inp cap e, dec inp cap = .error e → e.kind = 3 ∨ e = .dstOverflow ∨ e = .dstTooSmall)
  (hx : dstExtent s.engine i = some s.operands.dst) (hi : ¬UsesRleSession i) : Effect i s t := by
  unfold decompressRun at h
  refine effect_of_oneShot h (by simp) fun hs => ?_
  simp only
  split
  · rename_i e he; exact effect_of_raise hx hs hi (hk _ _ _ he)
  · exact effect_of_deliver hx hs hi

theorem effect_of_bound {i : Instr} {s t : State} {b} (h : boundRun b s = .next t) : Effect i s t := by
  unfold boundRun at h
  refine effect_of_run h (by simp) fun hc => ?_
  have := Effect.done (i := i) (s := s) false {s.engine.results with
      len := BitVec.ofNat 32 (b s.operands.srcLen.toNat)} s.engine.bw s.engine.br s.engine.rle s.members s.mem
      s.draws .same (.inr rfl) (.inr rfl) (.inr rfl)
  simpa using this

theorem flushed_settled (x : BitWriter) : x.flushed.settled = (x.bitpos + (8 - x.bitpos % 8) % 8) / 8 := rfl

theorem effect_of_rleValues {i : Instr} {s : State} {max dst} {k : List Nat → State → State} (hi :
    UsesRleSession i)
   (hx : (dstExtent s.engine i = some dst ∧ dst.base + dst.len ≤ 2 ^ 32) ∨ (dstExtent s.engine i = none ∧ dst =
       ⟨0, 0⟩))
   (hk : ∀ vs c, nextValues s.engine.rle.w (s.bytesOf s.engine.rle.extent) max s.engine.rle.cursor = (.ok vs,
       c) →
     Effect i s (k vs { recover c.recovered s with
            engine := { (recover c.recovered s).engine with
              rle := s.engine.rle.moved c
              results := { (recover c.recovered s).engine.results with
                  used := BitVec.ofNat 32 c.pos } } })) : Effect i s (withRleValues max dst s k) := by
  rcases withRleValues_cases max dst s k with ⟨e, c, hn, h⟩ | ⟨vs, c, hn, h⟩
  · rw [h]; exact .rle _ _ _ hx (malformed_of_truncated_or_badVarint (nextValues_error hn)) hi
  · rw [h]; exact hk vs c hn

/-- Everything the meaning of a command can do. -/
theorem exec_effect {i : Instr} {s t : State} (h : exec i s = .next t) : Effect i s t := by
  have nr : ∀ {i : Instr}, i ≠ .rleDecGet → i ≠ .rleDecBatch → i ≠ .rleDecSkip → ¬ UsesRleSession i := by
    intro i h1 h2 h3 h; rcases h with h | h | h <;> contradiction
  cases i with
  | pack8 w => exact effect_of_oneShot h (widthError_argument _ _) fun hs => effect_of_deliver rfl hs (nr nofun
      nofun nofun)
  | unpack8 w => exact effect_of_oneShot h (widthError_argument _ _) fun hs => effect_of_deliver rfl hs (nr
      nofun nofun nofun)
  | packBulk w => exact effect_of_oneShot h (widthError_argument _ _) fun hs => effect_of_deliver rfl hs (nr
      nofun nofun nofun)
  | unpackBulk w => exact effect_of_oneShot h (widthError_argument _ _) fun hs => effect_of_deliver rfl hs (nr
      nofun nofun nofun)
  | bwInit =>
    dsimp only [exec, execBwInit] at h
    refine effect_of_run h (by simp) fun hc => ?_
    rw [checksPhase_eq_none_iff] at hc
    have h1 := hc.2.2.1 s.operands.dst (by simp)
    have h2 := hc.2.2.2.2.1 s.operands.dstCap.toNat (by simp)
    have := Effect.done (i := .bwInit) (s := s) false s.engine.results ⟨true, s.operands.dstAddr,
        s.operands.dstCap.toNat, 0, [], 0⟩ s.engine.br s.engine.rle s.members _ _ (.unsettle s.operands.dst rfl
        (fun _ => h1) fun _ => by simp [BitWriter.unsettled, Params.dst]) (.inl ⟨.inl rfl, fun _ => ?_⟩) (.inr
        rfl) (.inr rfl)
    · simpa [succeed, unsettle] using this
    · exact ⟨h2, h1, rfl, by simp, by simp⟩
  | bwPutBit => exact effect_of_put h (by simp) (.inr (.inl rfl)) rfl
  | bwPut n => exact effect_of_put h (widthError_argument _ _) (.inr (.inr (.inl ⟨_, rfl⟩))) rfl
  | bwPut64 n => exact effect_of_put h (widthError_argument _ _) (.inr (.inr (.inr (.inl ⟨_, rfl⟩)))) rfl
  | bwFlush =>
    dsimp only [exec, execBwFlush] at h
    refine effect_of_run h (by simp) fun hc => ?_
    have := Effect.done (i := .bwFlush) (s := s) false {s.engine.results with
        len := BitVec.ofNat 32 s.engine.bw.flushed.settled} s.engine.bw.flushed s.engine.br s.engine.rle
        s.members _ _ (.flush rfl) (.inl ⟨.inr (.inr (.inr (.inr rfl))), fun h => ?_⟩) (.inr rfl) (.inr rfl)
    · simpa [succeed] using this
    · have h1 := h.bits_length; have h2 := h.bitpos_le; have h3 := h.settled_le
      refine ⟨h.cap_lt, h.inSpace, by simp [BitWriter.flushed, h1], ?_, ?_⟩
      · simp [BitWriter.flushed]; omega
      · simp [BitWriter.flushed]; omega
  | brInit =>
    dsimp only [exec, execBrInit] at h
    refine effect_of_run h (by simp) fun hc => ?_
    rw [checksPhase_eq_none_iff] at hc
    have h1 := hc.2.2.1 s.operands.src (by simp)
    have h2 := hc.2.2.2.2.1 s.operands.srcLen.toNat (by simp)
    have := Effect.done (i := .brInit) (s := s) false s.engine.results s.engine.bw ⟨true, s.operands.srcAddr,
        s.operands.srcLen.toNat, 0⟩ s.engine.rle s.members _ _ .same (.inr rfl) (.inl ⟨.inl rfl, fun _ => ⟨h2,
        h1, by simp⟩⟩) (.inr rfl)
    simpa [succeed] using this
  | brGetBit =>
    dsimp only [exec, execBrGetBit] at h
    exact effect_of_run h (by simp) fun _ => effect_of_read (.inr (.inl rfl))
  | brGet n =>
    dsimp only [exec, execBrGet] at h
    exact effect_of_run h (widthError_argument _ _) fun _ => effect_of_read (.inr (.inr (.inl ⟨_, rfl⟩)))
  | brGet64 n =>
    dsimp only [exec, execBrGet64] at h
    exact effect_of_run h (widthError_argument _ _) fun _ => effect_of_read (.inr (.inr (.inr ⟨_, rfl⟩)))
  | rleEnc w => exact effect_of_oneShot h (widthError_argument _ _) fun hs => effect_of_deliver rfl hs (nr
      nofun nofun nofun)
  | rleDecInit w =>
    dsimp only [exec, execRleDecInit] at h
    refine effect_of_run h (widthError_argument _ _) fun hc => ?_
    rw [checksPhase_eq_none_iff] at hc
    have h0 := hc.1
    have h1 := hc.2.2.1 s.operands.src (by simp)
    have h2 := hc.2.2.2.2.1 s.operands.srcLen.toNat (by simp)
    have := Effect.done (i := .rleDecInit w) (s := s) false s.engine.results s.engine.bw s.engine.br ⟨true,
        s.operands.srcAddr, s.operands.srcLen.toNat, w.toNat, 0, .none⟩ s.members _ _ .same (.inr rfl) (.inr
        rfl) (.inl ⟨.inr ⟨_, rfl⟩, fun _ => ⟨h2, h1, (widthError_eq_none _ _).1 h0, by simp, trivial⟩⟩)
    simpa [succeed] using this
  | rleDecGet =>
    dsimp only [exec, execRleDecGet] at h
    refine effect_of_run h (by simp) fun hc => effect_of_rleValues (.inl rfl) (.inr ⟨rfl, rfl⟩) fun vs c hn =>
        ?_
    exact Effect.done (i := .rleDecGet) (s := s) c.recovered _ s.engine.bw s.engine.br _ s.members _ _ .same
        (.inr rfl) (.inr rfl) (.inl ⟨.inl (.inl rfl), moved_sound hn⟩)
  | rleDecBatch =>
    dsimp only [exec, execRleDecBatch] at h
    refine effect_of_run h (by simp) fun hc => ?_
    rw [checksPhase_eq_none_iff] at hc
    have h1 := hc.2.2.1 s.operands.dst (by simp)
    have h2 := hc.2.2.2.2.2.2.2.2
    refine effect_of_rleValues (.inr (.inl rfl)) (.inl ⟨rfl, h1⟩) fun vs c hn => ?_
    have hl : (vs.flatMap (leBytes 4)).length ≤ s.operands.dst.len := by
      rw [length_flatMap_leBytes]
      have := nextValues_length hn
      simp only at h2; simp only [Params.dst]; omega
    let u : State := { recover c.recovered s with
      engine := { (recover c.recovered s).engine with
        rle := s.engine.rle.moved c
        results := { (recover c.recovered s).engine.results with used := BitVec.ofNat 32 c.pos } } }
    rcases deliver_cases s.operands.dst (vs.flatMap (leBytes 4))
      { u.engine.results with count := BitVec.ofNat 32 vs.length } u with ⟨hlt, -⟩ | ⟨-, hd⟩
    · omega
    · show Effect _ s (deliver s.operands.dst (vs.flatMap (leBytes 4)) _ u)
      rw [hd]
      exact Effect.done (i := .rleDecBatch) (s := s) c.recovered _ s.engine.bw s.engine.br _ s.members _ _
          (.out _ _ rfl h1 hl) (.inr rfl) (.inr rfl) (.inl ⟨.inl (.inr (.inl rfl)), moved_sound hn⟩)
  | rleDecSkip =>
    dsimp only [exec, execRleDecSkip] at h
    refine effect_of_run h (by simp) fun hc => effect_of_rleValues (.inr (.inr rfl)) (.inr ⟨rfl, rfl⟩) fun vs c
        hn => ?_
    exact Effect.done (i := .rleDecSkip) (s := s) c.recovered _ s.engine.bw s.engine.br _ s.members _ _ .same
        (.inr rfl) (.inr rfl) (.inl ⟨.inl (.inr (.inr rfl)), moved_sound hn⟩)
  | rleDecLevels16 w =>
    dsimp only [exec, execRleDecLevels16] at h
    refine effect_of_oneShot h (widthError_argument _ _) fun hs => ?_
    split
    · rename_i hn
      exact Effect.error _ _ _ s.members rfl hs (.inl (malformed_of_truncated_or_badVarint (nextValues_error
          hn))) (nr nofun nofun nofun)
    · exact effect_of_recovered_deliver _ s.members rfl hs (nr nofun nofun nofun)
  | deltaEncI32 => exact effect_of_oneShot h (by simp) fun hs => effect_of_deliver rfl hs (nr nofun nofun nofun)
  | deltaEncI64 => exact effect_of_oneShot h (by simp) fun hs => effect_of_deliver rfl hs (nr nofun nofun nofun)
  | deltaDecI32 => exact effect_of_deltaDec h rfl (nr nofun nofun nofun) (fun _ => deltaHeader_malformed) fun _
      _ _ => deltaValues_malformed
  | deltaDecI64 => exact effect_of_deltaDec h rfl (nr nofun nofun nofun) (fun _ => deltaHeader_malformed) fun _
      _ _ => deltaValues_malformed
  | bssEnc w => exact effect_of_oneShot h (elemError_argument _) fun hs => effect_of_deliver rfl hs (nr nofun
      nofun nofun)
  | bssDec w => exact effect_of_oneShot h (elemError_argument _) fun hs => effect_of_deliver rfl hs (nr nofun
      nofun nofun)
  | deflateCompress l => exact effect_of_compress h (levelError_argument _) rfl (nr nofun nofun nofun)
  | deflateDecompress => exact effect_of_decompress h deflateDecompress_error rfl (nr nofun nofun nofun)
  | deflateBound => exact effect_of_bound h
  | lz4Compress l => exact effect_of_compress (f := none) (d := true) (out := fun x => chosenMember
      (lz4Admissible x) (lz4Ref x) s.members) h (by simp) rfl (nr nofun nofun nofun)
  | lz4Decompress => exact effect_of_decompress h lz4Decompress_error rfl (nr nofun nofun nofun)
  | lz4Bound => exact effect_of_bound h
  | snappyCompress l => exact effect_of_compress (f := none) (d := true) (out := fun x => chosenMember
      (snappyAdmissible x) (snappyRef x) s.members) h (by simp) rfl (nr nofun nofun nofun)
  | snappyDecompress => exact effect_of_decompress h snappyDecompress_error rfl (nr nofun nofun nofun)
  | snappyBound => exact effect_of_bound h

/-- Every command answers a next state. -/
theorem exec_next (i : Instr) (s : State) : ∃ t, exec i s = .next t := by
  cases i <;> dsimp only [exec, execPack8, execUnpack8, execPackBulk, execUnpackBulk, execBwInit, execBwPutBit,
    execBwPut, execBwPut64, execBwFlush, execBrInit, execBrGetBit, execBrGet, execBrGet64, execRleEnc, execRleDecInit,
    execRleDecGet, execRleDecBatch, execRleDecSkip, execRleDecLevels16, execDeltaEncI32, execDeltaEncI64,
    execDeltaDecI32, execDeltaDecI64, execBssEnc, execBssDec, execDeflateCompress, execDeflateDecompress,
    execDeflateBound, execLz4Compress, execLz4Decompress, execLz4Bound, execSnappyCompress, execSnappyDecompress,
    execSnappyBound, putBits, deltaEnc, deltaDec, bssRun, compressRun, decompressRun, boundRun] <;>
    exact runCommand_next _ _ _

end Sys2Proof.Machine
end

