-- ==== Sys2Proof/Laws/PerInstr.lean ====
section
/-! SUPPORT. The statement family `OpcodeRow`: for each command, the word the encoder writes keeps the
fixed bits of the command's row of spec/opcode_table.json. -/

/-- Every bit of an assembled word (30_encoding.md R150). -/
theorem Sys2Proof.assemble_getLsbD (op a : BitVec 8) (l : BitVec 4) (k : Nat) :
    (Sys2Proof.assemble op a l).getLsbD k =
      if k < 8 then op.getLsbD k else if k < 16 then a.getLsbD (k - 8) else l.getLsbD (k - 16) := by
  show BitVec.getLsbD (w := 12 + 4 + 8 + 8) (0#12 ++ l ++ a ++ op) k = _
  simp only [BitVec.getLsbD_append, BitVec.getLsbD_zero]
  by_cases h1 : k < 8
  · simp [h1]
  · by_cases h2 : k < 16
    · simp [h1, h2, show k - 8 < 8 by omega]
    · by_cases h3 : k < 20
      · simp [h1, h2, show ¬k - 8 < 8 by omega, show k - 16 < 4 by omega, show k - 8 - 8 = k - 16 by omega]
      · simp [h1, h2, show ¬k - 8 < 8 by omega, show ¬k - 8 - 8 < 4 by omega, show 4 ≤ k - 16 by omega]

namespace Sys2Proof.Laws.OpcodeRow

/-- The fixed bits of a row: all but A where the command uses A, all but L where it uses L
(30_encoding.md R155, R157). -/
def mask : Instr → Word
  | .pack8 _ | .unpack8 _ | .packBulk _ | .unpackBulk _ | .bwPut _ | .bwPut64 _ | .brGet _ | .brGet64 _
  | .rleEnc _ | .rleDecInit _ | .rleDecLevels16 _ | .bssEnc _ | .bssDec _ => 0xFFFF00FF#32
  | .deflateCompress _ | .lz4Compress _ | .snappyCompress _ => 0xFFF0FFFF#32
  | .bwInit | .bwPutBit | .bwFlush | .brInit | .brGetBit | .rleDecGet | .rleDecBatch | .rleDecSkip
  | .deltaEncI32 | .deltaEncI64 | .deltaDecI32 | .deltaDecI64 | .deflateDecompress | .deflateBound
  | .lz4Decompress | .lz4Bound | .snappyDecompress | .snappyBound => 0xFFFFFFFF#32

/-- The fixed bits' values: the opcode of 30_encoding.md R155. -/
def opcode : Instr → Word
  | .pack8 _ => 0x01#32
  | .unpack8 _ => 0x02#32
  | .packBulk _ => 0x03#32
  | .unpackBulk _ => 0x04#32
  | .bwInit => 0x08#32
  | .bwPutBit => 0x09#32
  | .bwPut _ => 0x0A#32
  | .bwPut64 _ => 0x0B#32
  | .bwFlush => 0x0C#32
  | .brInit => 0x10#32
  | .brGetBit => 0x11#32
  | .brGet _ => 0x12#32
  | .brGet64 _ => 0x13#32
  | .rleEnc _ => 0x20#32
  | .rleDecInit _ => 0x21#32
  | .rleDecGet => 0x22#32
  | .rleDecBatch => 0x23#32
  | .rleDecSkip => 0x24#32
  | .rleDecLevels16 _ => 0x25#32
  | .deltaEncI32 => 0x30#32
  | .deltaEncI64 => 0x31#32
  | .deltaDecI32 => 0x32#32
  | .deltaDecI64 => 0x33#32
  | .bssEnc _ => 0x38#32
  | .bssDec _ => 0x39#32
  | .deflateCompress _ => 0x40#32
  | .deflateDecompress => 0x41#32
  | .deflateBound => 0x42#32
  | .lz4Compress _ => 0x44#32
  | .lz4Decompress => 0x45#32
  | .lz4Bound => 0x46#32
  | .snappyCompress _ => 0x48#32
  | .snappyDecompress => 0x49#32
  | .snappyBound => 0x4A#32

/-- The encoded word has the row's fixed bits. -/
def Statement (i : Instr) : Prop := encode i &&& mask i = opcode i

/-- A command that uses A: the other bits are the opcode. -/
theorem of_a (op : BitVec 8) (a : BitVec 8) : assemble op a 0 &&& 0xFFFF00FF#32 = op.zeroExtend 32 := by
  apply BitVec.eq_of_getLsbD_eq
  intro k hk
  rw [BitVec.getLsbD_and, assemble_getLsbD]
  interval_cases k <;> simp

/-- A command that uses L: the other bits are the opcode. -/
theorem of_l (op : BitVec 8) (l : BitVec 4) : assemble op 0 l &&& 0xFFF0FFFF#32 = op.zeroExtend 32 := by
  apply BitVec.eq_of_getLsbD_eq
  intro k hk
  rw [BitVec.getLsbD_and, assemble_getLsbD]
  interval_cases k <;> simp

theorem pack8 (a : BitVec 8) : Statement (.pack8 a) := of_a _ a
theorem unpack8 (a : BitVec 8) : Statement (.unpack8 a) := of_a _ a
theorem packBulk (a : BitVec 8) : Statement (.packBulk a) := of_a _ a
theorem unpackBulk (a : BitVec 8) : Statement (.unpackBulk a) := of_a _ a
theorem bwInit : Statement .bwInit := by unfold Statement; decide
theorem bwPutBit : Statement .bwPutBit := by unfold Statement; decide
theorem bwPut (a : BitVec 8) : Statement (.bwPut a) := of_a _ a
theorem bwPut64 (a : BitVec 8) : Statement (.bwPut64 a) := of_a _ a
theorem bwFlush : Statement .bwFlush := by unfold Statement; decide
theorem brInit : Statement .brInit := by unfold Statement; decide
theorem brGetBit : Statement .brGetBit := by unfold Statement; decide
theorem brGet (a : BitVec 8) : Statement (.brGet a) := of_a _ a
theorem brGet64 (a : BitVec 8) : Statement (.brGet64 a) := of_a _ a
theorem rleEnc (a : BitVec 8) : Statement (.rleEnc a) := of_a _ a
theorem rleDecInit (a : BitVec 8) : Statement (.rleDecInit a) := of_a _ a
theorem rleDecGet : Statement .rleDecGet := by unfold Statement; decide
theorem rleDecBatch : Statement .rleDecBatch := by unfold Statement; decide
theorem rleDecSkip : Statement .rleDecSkip := by unfold Statement; decide
theorem rleDecLevels16 (a : BitVec 8) : Statement (.rleDecLevels16 a) := of_a _ a
theorem deltaEncI32 : Statement .deltaEncI32 := by unfold Statement; decide
theorem deltaEncI64 : Statement .deltaEncI64 := by unfold Statement; decide
theorem deltaDecI32 : Statement .deltaDecI32 := by unfold Statement; decide
theorem deltaDecI64 : Statement .deltaDecI64 := by unfold Statement; decide
theorem bssEnc (a : BitVec 8) : Statement (.bssEnc a) := of_a _ a
theorem bssDec (a : BitVec 8) : Statement (.bssDec a) := of_a _ a
theorem deflateCompress (l : BitVec 4) : Statement (.deflateCompress l) := of_l _ l
theorem deflateDecompress : Statement .deflateDecompress := by unfold Statement; decide
theorem deflateBound : Statement .deflateBound := by unfold Statement; decide
theorem lz4Compress (l : BitVec 4) : Statement (.lz4Compress l) := of_l _ l
theorem lz4Decompress : Statement .lz4Decompress := by unfold Statement; decide
theorem lz4Bound : Statement .lz4Bound := by unfold Statement; decide
theorem snappyCompress (l : BitVec 4) : Statement (.snappyCompress l) := of_l _ l
theorem snappyDecompress : Statement .snappyDecompress := by unfold Statement; decide
theorem snappyBound : Statement .snappyBound := by unfold Statement; decide

end Sys2Proof.Laws.OpcodeRow
end

