-- ==== Sys2Proof/Tests/Slice0.lean ====
section
/-! SUPPORT. Tests: the well-formedness smoke test, every command's decoding from its encoding, one step of every
command on the vectors of 95_test_vectors.md, the register interface, and for every statement with hypotheses a
state that meets them. -/

namespace Sys2Proof.Tests

set_option Elab.async false

open Sys2Proof.Machine

/-! ### Well-formedness: an ill-formed term for each check -/

theorem test_widths_refused : Instr.wellFormed (.pack8 33) = false ∧ Instr.wellFormed (.unpack8 33) = false ∧
    Instr.wellFormed (.packBulk 33) = false ∧ Instr.wellFormed (.unpackBulk 255) = false ∧
    Instr.wellFormed (.rleEnc 33) = false ∧ Instr.wellFormed (.rleDecInit 33) = false ∧
    Instr.wellFormed (.rleDecLevels16 17) = false := by decide

theorem test_counts_refused : Instr.wellFormed (.bwPut 33) = false ∧ Instr.wellFormed (.bwPut64 65) = false ∧
    Instr.wellFormed (.brGet 33) = false ∧ Instr.wellFormed (.brGet64 65) = false := by decide

theorem test_sizes_and_levels_refused : Instr.wellFormed (.bssEnc 0) = false ∧ Instr.wellFormed (.bssDec 0) = false ∧
    Instr.wellFormed (.deflateCompress 10) = false := by decide

theorem test_limits_accepted : Instr.wellFormed (.pack8 32) = true ∧ Instr.wellFormed (.bwPut64 64) = true ∧
    Instr.wellFormed (.rleDecLevels16 16) = true ∧ Instr.wellFormed (.bssEnc 1) = true ∧
    Instr.wellFormed (.bssEnc 255) = true ∧ Instr.wellFormed (.deflateCompress 9) = true := by decide

/-! ### Decoding: words written from 30_encoding.md R150 and R155 -/

theorem test_decode_pack : decode 0x00000401#32 = .ok (.pack8 4) ∧ decode 0x00000402#32 = .ok (.unpack8 4) ∧
    decode 0x00002003#32 = .ok (.packBulk 32) ∧ decode 0x00000004#32 = .ok (.unpackBulk 0) := by decide

theorem test_decode_writer : decode 0x00000008#32 = .ok .bwInit ∧ decode 0x00000009#32 = .ok .bwPutBit ∧
    decode 0x0000200A#32 = .ok (.bwPut 32) ∧ decode 0x0000280B#32 = .ok (.bwPut64 40) ∧
    decode 0x0000000C#32 = .ok .bwFlush := by decide

theorem test_decode_reader : decode 0x00000010#32 = .ok .brInit ∧ decode 0x00000011#32 = .ok .brGetBit ∧
    decode 0x00000712#32 = .ok (.brGet 7) ∧ decode 0x00004113#32 = .ok (.brGet64 65) := by decide

theorem test_decode_rle : decode 0x00000320#32 = .ok (.rleEnc 3) ∧ decode 0x00000321#32 = .ok (.rleDecInit 3) ∧
    decode 0x00000022#32 = .ok .rleDecGet ∧ decode 0x00000023#32 = .ok .rleDecBatch ∧
    decode 0x00000024#32 = .ok .rleDecSkip ∧ decode 0x00000125#32 = .ok (.rleDecLevels16 1) := by decide

theorem test_decode_delta : decode 0x00000030#32 = .ok .deltaEncI32 ∧ decode 0x00000031#32 = .ok .deltaEncI64 ∧
    decode 0x00000032#32 = .ok .deltaDecI32 ∧ decode 0x00000033#32 = .ok .deltaDecI64 := by decide

theorem test_decode_transpose : decode 0x00000438#32 = .ok (.bssEnc 4) ∧ decode 0x0000FF39#32 = .ok (.bssDec 255) := by
  decide

theorem test_decode_deflate : decode 0x00060040#32 = .ok (.deflateCompress 6) ∧
    decode 0x00000041#32 = .ok .deflateDecompress ∧ decode 0x00000042#32 = .ok .deflateBound := by decide

theorem test_decode_lz4 : decode 0x000F0044#32 = .ok (.lz4Compress 15) ∧ decode 0x00000045#32 = .ok .lz4Decompress ∧
    decode 0x00000046#32 = .ok .lz4Bound := by decide

theorem test_decode_snappy : decode 0x000F0048#32 = .ok (.snappyCompress 15) ∧
    decode 0x00000049#32 = .ok .snappyDecompress ∧ decode 0x0000004A#32 = .ok .snappyBound := by decide

/-- The refused words of 95_test_vectors.md 2.1. -/
theorem test_decode_refused : decode 0x00000000#32 = .error .illegalOp ∧ decode 0x0000000D#32 = .error .illegalOp ∧
    decode 0x000000FF#32 = .error .illegalOp ∧ decode 0x00100401#32 = .error .reservedField ∧
    decode 0x00010401#32 = .error .reservedField ∧ decode 0x00000109#32 = .error .reservedField ∧
    decode 0x00102101#32 = .error .reservedField ∧ decode 0x00010042#32 = .error .reservedField := by decide

theorem test_table_words : decodeTableWord 32 0x0000280B = some (.bwPut64 40) ∧ decodeTableWord 8 0x4A = some .snappyBound ∧
    decodeTableWord 32 0 = none ∧ decodeTableWord 64 0x08 = none := by decide

/-! ### States for one step -/

/-- Operands: a source at 0x1000 and a destination at 0x2000. -/
def args (srcLen dstCap count : Word) : Params := ⟨0, 0x1000, srcLen, 0x2000, dstCap, count, 0, 0⟩

/-- An idle engine with these registers, over memory that is 0 but for these bytes from 0x1000 on. -/
def idle (bytes : List Byte) (p : Params) : State :=
  { State.reset with
    engine := { Engine.reset with regs := p }
    mem := (⟨[], []⟩ : Memory).writeBytes 0x1000 bytes }

/-- The same engine after START with this command word. -/
def started (cmd : Word) (bytes : List Byte) (p : Params) : State := (idle bytes { p with cmd := cmd }).start false

/-- The state after one step. -/
def after (s : State) : State :=
  match step s with
  | .next t => t
  | _ => s

/-- The `n` bytes at the destination 0x2000. -/
def output (n : Nat) (s : State) : List Byte := s.mem.readBytes 0x2000 n

/-- Little-endian words. -/
def words (vs : List Nat) : List Byte := vs.flatMap (leBytes 4)

/-- The bytes of ASCII "Hello". -/
def hello : List Byte := [0x48, 0x65, 0x6C, 0x6C, 0x6F]

/-! ### One step of every command: the vectors of 95_test_vectors.md 1, 2.2 to 2.8 -/

theorem test_pack8 :
    let t := after (started 0x00000401 (words [0, 1, 2, 3, 4, 5, 6, 7]) (args 32 4 0))
    output 4 t = [0x10, 0x32, 0x54, 0x76] ∧ t.engine.results = ⟨4, 8, 0, 0, 32⟩ ∧ t.engine.status.word = 2 := by
  decide +kernel

theorem test_pack8_widest : output 32 (after (started 0x00002001 (words [1, 2, 3, 4, 5, 6, 7, 0xFFFFFFFF])
    (args 32 32 0))) = words [1, 2, 3, 4, 5, 6, 7, 0xFFFFFFFF] := by decide +kernel

theorem test_unpack8 :
    let t := after (started 0x00000402 [0x10, 0x32, 0x54, 0x76] (args 4 32 0))
    output 32 t = words [0, 1, 2, 3, 4, 5, 6, 7] ∧ t.engine.results = ⟨32, 8, 0, 0, 4⟩ := by decide +kernel

theorem test_packBulk :
    let t := after (started 0x00000303 (words [1, 2, 3]) (args 12 2 3))
    output 2 t = [0xD1, 0x00] ∧ t.engine.results = ⟨2, 3, 0, 0, 12⟩ := by decide +kernel

theorem test_packBulk_tail : output 6 (after (started 0x00000503 (words [0, 1, 2, 3, 4, 5, 6, 7, 8]) (args 36 6 9))) =
    [0x20, 0x88, 0x41, 0x8A, 0x39, 0x08] := by decide +kernel

/-- The pad bits of the last byte are ignored. -/
theorem test_unpackBulk :
    let t := after (started 0x00000304 [0xD1, 0xF8] (args 2 12 3))
    output 12 t = words [1, 2, 3] ∧ t.engine.results = ⟨12, 3, 0, 0, 2⟩ := by decide +kernel

theorem test_bwInit : (after (started 0x00000008 [] (args 0 0x1FFFFFFF 0))).engine.bw =
    ⟨true, 0x2000, 0x1FFFFFFF, 0, [], 0⟩ := by decide +kernel

/-- A session of `2^29` bytes is RANGE_WRAP. -/
theorem test_bwInit_size : (after (started 0x00000008 [] (args 0 0x20000000 0))).engine.error = 0x0701#32 := by
  decide +kernel

/-- A started engine with a bit-writer session at 0x2000. -/
def writing (cmd : Word) (cap : Nat) (bits : List Bool) (value valueHi : Word) : State :=
  let s := started cmd [] { args 0 0 0 with value := value, valueHi := valueHi }
  { s with engine := { s.engine with bw := ⟨true, 0x2000, cap, bits.length, bits, 0⟩ } }

theorem test_bwPutBit : (after (writing 0x00000009 1 [true, false] 3 0)).engine.bw =
    ⟨true, 0x2000, 1, 3, [true, false, true], 0⟩ := by decide +kernel

/-- The second put of 95_test_vectors.md 2.2 fails, and the session stays. -/
theorem test_bwPutBit_full :
    let t := after (writing 0x00000009 1 (bitsOf 8 0xFF) 1 0)
    t.engine.error = 0x0102#32 ∧ t.engine.bw.bitpos = 8 ∧ t.engine.bw.active = true := by decide +kernel

theorem test_bwPut : (after (writing 0x0000040A 1 [] 0xFFFFFFFA 0)).engine.bw.bits = [false, true, false, true] := by
  decide +kernel

theorem test_bwPut64 : (after (writing 0x0000280B 5 [] 0x3456789A 0x12)).engine.bw.bits = bitsOf 40 0x123456789A := by
  decide +kernel

theorem test_bwFlush :
    let t := after (writing 0x0000000C 5 (bitsOf 40 0x123456789A) 0 0)
    output 5 t = [0x9A, 0x78, 0x56, 0x34, 0x12] ∧ t.engine.results.len = 5 ∧ t.engine.bw.settled = 5 := by
  decide +kernel

/-- A flush in mid-byte pads with 0 bits. -/
theorem test_bwFlush_pads :
    let t := after (writing 0x0000000C 1 [true, false, true] 0 0)
    output 1 t = [0x05] ∧ t.engine.bwBitpos = 8 := by decide +kernel

theorem test_brInit : (after (started 0x00000010 [0xB5, 0x03] (args 2 0 0))).engine.br = ⟨true, 0x1000, 2, 0⟩ := by
  decide +kernel

/-- A started engine with a bit-reader session over these bytes. -/
def reading (cmd : Word) (bytes : List Byte) (bitpos : Nat) : State :=
  let s := started cmd bytes (args 0 0 0)
  { s with engine := { s.engine with br := ⟨true, 0x1000, bytes.length, bitpos⟩ } }

theorem test_brGetBit : (after (reading 0x00000011 [0xB5, 0x03] 1)).engine.results = ⟨0, 1, 0, 0, 0⟩ ∧
    (after (reading 0x00000011 [0xB5, 0x03] 2)).engine.results = ⟨0, 1, 1, 0, 0⟩ := by decide +kernel

/-- Exhaustion delivers the bits that remain, and is no error. -/
theorem test_brGet :
    let t := after (reading 0x00001412 [0xB5, 0x03] 0)
    t.engine.results = ⟨0, 16, 0x03B5, 0, 0⟩ ∧ t.engine.br.bitpos = 16 ∧ t.engine.status.word = 2 := by decide +kernel

theorem test_brGet64 : (after (reading 0x00002813 [0x9A, 0x78, 0x56, 0x34, 0x12] 0)).engine.results =
    ⟨0, 40, 0x3456789A, 0x12, 0⟩ := by decide +kernel

theorem test_rleEnc :
    let t := after (started 0x00000320 (words [1, 2, 3, 4, 5, 6, 7, 0, 2, 2, 2, 2, 2, 2, 2, 2, 2]) (args 68 6 17))
    output 6 t = [0x03, 0xD1, 0x58, 0x1F, 0x12, 0x02] ∧ t.engine.results = ⟨6, 17, 0, 0, 68⟩ := by decide +kernel

theorem test_rleEnc_overflow : (after (started 0x00000320 (words (List.replicate 10 5)) (args 40 1 10))).engine.error =
    0x0202#32 := by decide +kernel

theorem test_rleDecInit : (after (started 0x00000321 [0x14, 0x05] (args 2 0 0))).engine.rle =
    ⟨true, 0x1000, 2, 3, 0, .none⟩ := by decide +kernel

/-- A started engine with a fresh RLE session of width 3 over these bytes. -/
def decoding (cmd : Word) (bytes : List Byte) (dstCap count : Word) : State :=
  let s := started cmd bytes (args 0 dstCap count)
  { s with engine := { s.engine with rle := ⟨true, 0x1000, bytes.length, 3, 0, .none⟩ } }

theorem test_rleDecGet : (after (decoding 0x00000022 [0x03, 0xD1, 0x58, 0x1F, 0x12, 0x02] 0 0)).engine.results =
    ⟨0, 1, 1, 0, 4⟩ := by decide +kernel

/-- A truncated run ends the session. -/
theorem test_rleDecGet_truncated :
    let t := after (decoding 0x00000022 [0x03, 0x51] 0 0)
    t.engine.error = 0x0103#32 ∧ t.engine.sessionWord = 0 ∧ t.engine.status.word = 6 := by decide +kernel

theorem test_rleDecBatch :
    let t := after (decoding 0x00000023 [0x03, 0xD1, 0x58, 0x1F, 0x12, 0x02] 80 20)
    output 68 t = words [1, 2, 3, 4, 5, 6, 7, 0, 2, 2, 2, 2, 2, 2, 2, 2, 2] ∧ t.engine.results = ⟨68, 17, 0, 0, 6⟩ := by
  decide +kernel

/-- A zero-count run is skipped and remembered. -/
theorem test_rleDecBatch_recovered :
    let t := after (decoding 0x00000023 [0x00, 0x07, 0x14, 0x05] 80 20)
    output 40 t = words (List.replicate 10 5) ∧ t.engine.status.word = 0x0A ∧ t.engine.results.used = 4 := by
  decide +kernel

theorem test_rleDecSkip :
    let t := after (decoding 0x00000024 [0x03, 0xD1, 0x58, 0x1F, 0x12, 0x02] 0 3)
    t.engine.results = ⟨0, 3, 0, 0, 4⟩ ∧ t.engine.rle.run = .packed 5 1 3 := by decide +kernel

theorem test_rleDecLevels16 :
    let t := after (started 0x00000125 [0x14, 0x01] (args 2 24 12))
    output 20 t = (List.replicate 10 1).flatMap (leBytes 2) ∧ t.engine.results = ⟨20, 10, 0, 0, 2⟩ := by decide +kernel

theorem test_rleDecLevels16_room : (after (started 0x00000125 [0x14, 0x01] (args 2 20 12))).engine.error = 0x0102#32 := by
  decide +kernel

/-- The 30-byte stream of 95_test_vectors.md 1, scenario 3. -/
def deltaStream : List Byte :=
  [0x80, 0x01, 0x04, 0x04, 0x14, 0x09, 0x05, 0x00, 0x00, 0x00, 0x0F, 0x50] ++ List.replicate 18 0

theorem test_deltaEncI32 :
    let t := after (started 0x00000030 (words [10, 20, 15, 30]) (args 16 64 4))
    output 30 t = deltaStream ∧ t.engine.results = ⟨30, 4, 0, 0, 16⟩ := by decide +kernel

theorem test_deltaEncI32_wraps : output 14 (after (started 0x00000030 (words [0x80000000, 0x7FFFFFFF]) (args 8 64 2))) =
    [0x80, 0x01, 0x04, 0x02, 0xFF, 0xFF, 0xFF, 0xFF, 0x0F, 0x01, 0x00, 0x00, 0x00, 0x00] := by decide +kernel

theorem test_deltaEncI64 : output 10 (after (started 0x00000031 ([1, 2, 3, 4, 5].flatMap (leBytes 8)) (args 40 64 5))) =
    [0x80, 0x01, 0x04, 0x05, 0x02, 0x02, 0x00, 0x00, 0x00, 0x00] := by decide +kernel

theorem test_deltaDecI32 :
    let t := after (started 0x00000032 deltaStream (args 30 8 2))
    output 8 t = words [10, 20] ∧ t.engine.results = ⟨8, 2, 0, 0, 30⟩ := by decide +kernel

/-- Too little room is found after the header. -/
theorem test_deltaDecI32_room : (after (started 0x00000032 deltaStream (args 30 15 4))).engine.error = 0x0102#32 := by
  decide +kernel

theorem test_deltaDecI64 : output 16 (after (started 0x00000033 [0x80, 0x01, 0x04, 0x05, 0x02, 0x02, 0x00, 0x00, 0x00, 0x00]
    (args 10 16 2))) = [1, 2].flatMap (leBytes 8) := by decide +kernel

theorem test_bssEnc :
    let t := after (started 0x00000438 [0x00, 0x00, 0x80, 0x3F, 0x00, 0x00, 0x00, 0x40] (args 8 8 2))
    output 8 t = [0x00, 0x00, 0x00, 0x00, 0x80, 0x00, 0x3F, 0x40] ∧ t.engine.results = ⟨8, 2, 0, 0, 8⟩ := by
  decide +kernel

theorem test_bssDec : output 8 (after (started 0x00000439 [0x00, 0x00, 0x00, 0x00, 0x80, 0x00, 0x3F, 0x40] (args 8 8 2))) =
    [0x00, 0x00, 0x80, 0x3F, 0x00, 0x00, 0x00, 0x40] := by decide +kernel

theorem test_deflateCompress :
    let t := after (started 0x00060040 hello (args 5 10 0))
    output 7 t = [0xF3, 0x48, 0xCD, 0xC9, 0xC9, 0x07, 0x00] ∧ t.engine.results = ⟨7, 0, 0, 0, 5⟩ := by decide +kernel

/-- The stored stream; and of 259 equal bytes, the two streams of a literal and a copy of 258, with symbol 285
and with symbol 284 and extra value 31, worked out from 44_deflate.md R404, R406, R412: both decode, the encoder
never writes the second. -/
theorem test_deflateCompress_stored : (output 10 (after (started 0x00000040 hello (args 5 10 0))) =
    [0x01, 0x05, 0x00, 0xFA, 0xFF] ++ hello) ∧
    deflateAdmissible (List.replicate 259 0x61) [0x4B, 0x1C, 0x05, 0x00] = true ∧
    deflateAdmissible (List.replicate 259 0x61) [0x4B, 0x1C, 0xF9, 0x00, 0x00] = false ∧
    (deflateDecompress [0x4B, 0x1C, 0xF9, 0x00, 0x00] 259).toOption = some (List.replicate 259 0x61, 5) := by
  decide +kernel

/-- A dynamic-Huffman block. -/
theorem test_deflateDecompress :
    let t := after (started 0x00000041 [0x05, 0xC1, 0x01, 0x01, 0x00, 0x00, 0x00, 0x80, 0x90, 0xAD, 0xF9, 0x3F, 0x22, 0x4A,
      0x50, 0x22, 0x03] (args 17 16 0))
    output 16 t = [97, 97, 98, 97, 98, 98, 98, 98, 97, 97, 98, 97, 98, 98, 97, 98] ∧
      t.engine.results = ⟨16, 0, 0, 0, 17⟩ := by decide +kernel

theorem test_deflateDecompress_offset : (after (started 0x00000041 [0x03, 0x02, 0x00] (args 3 16 0))).engine.error =
    0x0903#32 := by decide +kernel

theorem test_deflateBound : (after (started 0x00000042 [] (args 65536 0 0))).engine.results.len = 65546 ∧
    (after (started 0x00000042 [] (args 0xFFFB000F 0 0))).engine.error = 0x0701#32 := by decide +kernel

theorem test_lz4Compress :
    let t := after (started 0x00000044 (List.replicate 20 0x61) (args 20 36 0))
    output 10 t = [0x1A, 0x61, 0x01, 0x00, 0x50, 0x61, 0x61, 0x61, 0x61, 0x61] ∧ t.engine.results = ⟨10, 0, 0, 0, 20⟩ := by
  decide +kernel

/-- A candidate that is admissible is written in place of the reference member; of an empty input the byte 00
is, whatever the candidate (45_lz4.md R500). -/
theorem test_lz4Compress_member :
    let y := 0xF0#8 :: 0x05#8 :: List.replicate 20 0x61#8
    let s := started 0x000F0044 (List.replicate 20 0x61) (args 20 36 0)
    output 22 (after { s with members := [y] }) = y ∧ (after { s with members := [y] }).members = [] ∧
      output 10 (after { s with members := [[0x00]] }) = output 10 (after s) ∧
      output 1 (after { started 0x00000044 [] (args 0 1 0) with members := [[0x05]] }) = [0x00] := by decide +kernel

theorem test_lz4Decompress :
    let t := after (started 0x00000045 [0x43, 0x48, 0x69, 0x21, 0x21, 0x04, 0x00, 0x50, 0x21, 0x48, 0x69, 0x21, 0x21]
      (args 13 16 0))
    output 16 t = (List.replicate 4 [0x48, 0x69, 0x21, 0x21]).flatten ∧ t.engine.results = ⟨16, 0, 0, 0, 13⟩ := by
  decide +kernel

theorem test_lz4Decompress_offset : (after (started 0x00000045 [0x10, 0x61, 0x02, 0x00] (args 4 16 0))).engine.error =
    0x0903#32 := by decide +kernel

theorem test_lz4Bound : (after (started 0x00000046 [] (args 100000 0 0))).engine.results.len = 100408 := by decide +kernel

theorem test_snappyCompress :
    let t := after (started 0x00000048 (List.replicate 20 0x61) (args 20 56 0))
    output 6 t = [0x14, 0x00, 0x61, 0x4A, 0x01, 0x00] ∧ t.engine.results = ⟨6, 0, 0, 0, 20⟩ := by decide +kernel

theorem test_snappyDecompress :
    let t := after (started 0x00000049 [0x03, 0x00, 0x61, 0x07, 0x01, 0x00, 0x00, 0x00] (args 8 3 0))
    output 3 t = [0x61, 0x61, 0x61] ∧ t.engine.results = ⟨3, 0, 0, 0, 8⟩ := by decide +kernel

theorem test_snappyDecompress_room : (after (started 0x00000049 [0x05, 0x10, 0x48, 0x65, 0x6C, 0x6C, 0x6F]
    (args 7 4 0))).engine.error = 0x0102#32 := by decide +kernel

theorem test_snappyBound : (after (started 0x0000004A [] (args 16 0 0))).engine.results.len = 50 := by decide +kernel

/-! ### The register interface: 95_test_vectors.md 2.1 -/

/-- The machine before one action of the host. -/
def before (s : State) (ev : Event) : State := { s with inbox := [ev] }

theorem test_reset_reads : (after (before State.reset (.regRead 0x00 4))).hostData = some 0x43515431#32 ∧
    (after (before State.reset (.regRead 0x08 4))).hostData = some 0 ∧
    (after (before State.reset (.regRead 0x4C 4))).hostData = some 0 ∧
    (after (before State.reset (.regRead 0x50 4))).hostData = some 0 := by decide +kernel

theorem test_start : (after (before State.reset (.regWrite 0x04 4 3))).engine.status.word = 1 ∧
    (after (before State.reset (.regWrite 0x04 4 3))).engine.irqEn = true := by decide +kernel

theorem test_status_clear :
    let s := { idle [] (args 0 0 0) with engine.status := ⟨false, true, true, true, true⟩, engine.irqEn := true }
    (after (before s (.regWrite 0x08 4 0x06))).engine.status.word = 0x18 ∧
      (after (before s (.regWrite 0x08 4 0x06))).engine.irq = false ∧ s.engine.irq = true := by decide +kernel

theorem test_write_while_busy :
    let s := after (before (started 0x00000042 [] (args 30 0 0)) (.regWrite 0x10 4 5))
    s.engine.regs.srcAddr = 0x1000 ∧ (after s).engine.status.word = 0x12 ∧ (after s).engine.results.len = 35 := by
  decide +kernel

/-- A start through the register interface runs the command that CMD holds. -/
theorem test_withFetchWord : (after (State.reset.withFetchWord 32 0x00000042)).engine.results.len = 5 := by
  decide +kernel

theorem test_reset_while_busy :
    let s := after (before (writing 0x0000000C 1 [true] 0 0) .resetPin)
    s.engine = Engine.reset ∧ s.mem.holes.length = 1 := by decide +kernel

/-! ### Witnesses: for every statement with hypotheses, a state and operands that meet them -/

theorem usable_of (s : State) (x : Extent) (h : (x.inSpace && s.platform.reaches x) = true) : Usable s x :=
  (usable_iff s x).2 (by simpa using h)

theorem apart_of (x y : Extent) (h : x.overlaps y = false) : Apart x y := (overlaps_eq_false_iff x y).1 h

theorem not_apart_of (x y : Extent) (h : x.overlaps y = true) : ¬Apart x y := fun ha => by
  rw [(overlaps_eq_false_iff x y).2 ha] at h; cases h

theorem ready_of (s : State) (size needSrc needDst : Nat)
    (h : (s.operands.src.inSpace && s.platform.reaches s.operands.src && (s.operands.dst.inSpace &&
      s.platform.reaches s.operands.dst) && !s.operands.src.overlaps s.operands.dst && decide (size < 2 ^ 32) &&
      decide (needSrc ≤ s.operands.srcLen.toNat) && decide (needDst ≤ s.operands.dstCap.toNat)) = true) :
    OneShotReady s size needSrc needDst := by
  simp only [Bool.and_eq_true, Bool.not_eq_true', decide_eq_true_eq] at h
  exact ⟨usable_of _ _ (by simp [h]), usable_of _ _ (by simp [h]), apart_of _ _ (by simp [h]), by simpa using h.1.1.2,
    by simp [h], by simp [h]⟩

/-- The state after a command's meaning. -/
def ran (i : Instr) (s : State) : State :=
  match exec i s with
  | .next t => t
  | _ => s

theorem exec_ran (i : Instr) (s : State) : exec i s = .next (ran i s) := by
  obtain ⟨t, h⟩ := exec_next i s
  unfold ran; rw [h]

/-- Every opcode of 30_encoding.md R155. -/
def legalOps : List Nat := [0x01, 0x02, 0x03, 0x04, 0x08, 0x09, 0x0A, 0x0B, 0x0C, 0x10, 0x11, 0x12, 0x13, 0x20, 0x21, 0x22,
  0x23, 0x24, 0x25, 0x30, 0x31, 0x32, 0x33, 0x38, 0x39, 0x40, 0x41, 0x42, 0x44, 0x45, 0x46, 0x48, 0x49, 0x4A]

theorem witness_EncodeOfDecode : decode 0x00060040#32 = .ok (.deflateCompress 6) := by decide

theorem witness_IllegalOps : ∀ n ∈ [0x00, 0x0D, 0x4B, 0xFF],
    let s := started (BitVec.ofNat 32 n) [] (args 0 0 0)
    s.engine.status.busy = true ∧ s.inbox = [] ∧ s.operands.cmd.toNat % 256 ∉ legalOps := by decide +kernel

/-- A bit above L, an unused L and an unused A, each at its lowest bit; and a word with no fault. -/
theorem witness_ReservedFields : ∀ n ∈ [0x00100401, 0x00010401, 0x00000109, 0x00000401],
    decode (BitVec.ofNat 32 n) ≠ .error .illegalOp := by decide

theorem witness_BadWordEndsInError :
    ∀ c ∈ [(0x0000000D#32, DecodeError.illegalOp), (0x80000009#32, DecodeError.reservedField)],
      (started c.1 [] (args 0 0 0)).engine.status.busy = true ∧ (started c.1 [] (args 0 0 0)).inbox = [] ∧
        decode (started c.1 [] (args 0 0 0)).operands.cmd = .error c.2 := by decide +kernel

theorem witness_FieldsOutOfRange : 32 < (33#8).toNat ∧ 64 < (65#8).toNat ∧ 16 < (17#8).toNat ∧ 9 < (10#4).toNat := by
  decide

theorem witness_StepRunsTheCommand :
    let s := started 0x00000008 [] (args 0 0 0)
    s.engine.status.busy = true ∧ decode s.operands.cmd = .ok .bwInit ∧ s.inbox = [] ∧
      (before s .engineTurn).inbox = [.engineTurn] := by decide +kernel

/-- A started machine is sound. -/
theorem started_sound : Sound (started 0x00000008 [0x14, 0x05] (args 2 8 0)) where
  mem_wf := by decide +kernel
  cells_lt := by decide +kernel
  holes_le := by decide +kernel
  tags_lt := by decide +kernel
  engine :=
    { latched_iff := by decide +kernel
      captured := fun _ h => (Option.some.inj h).symm
      quiet := by decide +kernel
      err_error := by decide +kernel
      error_known := .inl rfl
      writer := ⟨by decide +kernel, by decide +kernel, by decide +kernel, by decide +kernel, by decide +kernel⟩
      reader := ⟨by decide +kernel, by decide +kernel, by decide +kernel⟩
      decoder := ⟨by decide +kernel, by decide +kernel, by decide +kernel, by decide +kernel, trivial⟩ }
  peers := fun _ h => nomatch h

theorem witness_StepKeepsSound : ∃ s t : State, Sound s ∧ step s = .next t :=
  ⟨_, _, started_sound, exec_ran .bwInit (started 0x00000008 [0x14, 0x05] (args 2 8 0))⟩

/-- An idle engine, a running command with a destination, and a running flush with unsettled bytes. -/
theorem witness_ResetInput :
    (before (idle [] (args 0 0 0)) .resetPin).inbox = [.resetPin] ∧
      (before (idle [] (args 0 0 0)) .resetPin).engine.status.busy = false ∧
      (∃ e, decode (before (started 0x00000000 [] (args 0 0 0)) .resetPin).operands.cmd = .error e) ∧
      (let s := before (started 0x00000401 [] (args 32 4 0)) .resetPin
      s.engine.status.busy = true ∧ decode s.operands.cmd = .ok (.pack8 4) ∧
        dstExtent s.engine (.pack8 4) = some ⟨0x2000, 4⟩ ∧ Extent.contains ⟨0x2000, 4⟩ 0x2003 = true) ∧
      let s := before (writing 0x0000000C 2 [true] 0 0) .resetPin
      s.engine.status.busy = true ∧ decode s.operands.cmd = .ok .bwFlush ∧
        Extent.contains ⟨s.engine.bw.base.toNat + s.engine.bw.settled, s.engine.bw.cap - s.engine.bw.settled⟩ 0x2001 =
          true := ⟨rfl, rfl, ⟨.illegalOp, by decide +kernel⟩, by decide +kernel⟩

/-- The last offset of the block while busy; an idle write to STATUS that a step answers; a command that ends. -/
theorem witness_WritesWhileBusy :
    (let s := before (started 0x00000008 [] (args 0 0 0)) (.regWrite 0xFC 4 1)
    s.inbox = [.regWrite (s.platform.engineBase + 0xFC) 4 1] ∧ s.engine.status.busy = true) ∧
      (∃ t, step (before (idle [] (args 0 0 0)) (.regWrite 0x08 4 0x10)) = .next t) ∧
      ∃ t, exec .bwInit (idle [] (args 0 0 0)) = .next t :=
  ⟨by decide +kernel, ⟨_, rfl⟩, exec_next _ _⟩

theorem witness_RegisterWrites : ∀ off ∈ [0x00, 0x08, 0x0C, 0x10, 0x14, 0x18, 0x1C, 0x20, 0x24, 0x28, 0x2C, 0xFC],
    off % 4 = 0 ∧ off ≤ 0xFC ∧ off ≠ 0x04 ∧
      (before State.reset (.regWrite off 4 0xFFFFFFFF)).inbox =
        [.regWrite (State.reset.platform.engineBase + off) 4 0xFFFFFFFF] ∧
      State.reset.engine.status.busy = false := by decide +kernel

theorem witness_RegisterReads : ∀ off ∈ [0x00, 0x04, 0x08, 0x0C, 0x10, 0x14, 0x18, 0x1C, 0x20, 0x24, 0x28, 0x2C, 0x30, 0x34,
      0x38, 0x3C, 0x40, 0x44, 0x48, 0x4C, 0x50, 0xFC],
    off % 4 = 0 ∧ off ≤ 0xFC ∧
      (before State.reset (.regRead off 4)).inbox = [.regRead (State.reset.platform.engineBase + off) 4] ∧
      State.reset.engine.status.busy = false := by decide +kernel

theorem witness_ReadsWhileBusy :
    Sound (before (started 0x00000008 [0x14, 0x05] (args 2 8 0)) (.regRead 0x2C 4)) ∧
      ∀ off ∈ [0x00, 0x04, 0x08, 0x0C, 0x10, 0x14, 0x18, 0x1C, 0x20, 0x24, 0x28, 0x2C, 0x4C, 0x40, 0x50, 0xFC],
        off % 4 = 0 ∧ off ≤ 0xFC ∧
          (started 0x00000008 [0x14, 0x05] (args 2 8 0)).engine.status.busy = true :=
  ⟨⟨started_sound.1, started_sound.2, started_sound.3, started_sound.4, started_sound.5, started_sound.6⟩,
    by decide +kernel⟩

/-- A short access, an address that is not a multiple of 4, and the first address after the block. -/
theorem witness_OtherAccessesRefused : ∀ x ∈ [(0x04, 2), (0x06, 4), (0x100, 4)],
    ¬(x.2 = 4 ∧ ∃ off, off % 4 = 0 ∧ off ≤ 0xFC ∧ x.1 = State.reset.platform.engineBase + off) := by
  intro x hx
  simp only [List.mem_cons, List.not_mem_nil, or_false] at hx
  rintro ⟨h, off, h1, h2, h3⟩
  simp only [State.reset] at h3
  rcases hx with rfl | rfl | rfl <;> simp only at h h3 <;> omega

theorem witness_InterruptOutput : (∃ t, exec .bwInit State.reset = .next t) ∧
    (∃ t, step (before State.reset (.regWrite 0x08 4 2)) = .next t) ∧
    (∃ t, step (before State.reset (.regWrite 0x04 4 2)) = .next t) ∧ State.reset.engine.status.busy = false :=
  ⟨exec_next _ _, ⟨_, rfl⟩, ⟨_, rfl⟩, rfl⟩

/-- A running unpack with a session of each kind open. -/
def crowded : State :=
  let s := started 0x00000402 [0x10, 0x32, 0x54, 0x76] (args 4 32 0)
  { s with engine := { s.engine with
      bw := ⟨true, 0x3000, 4, 0, [], 0⟩, br := ⟨true, 0x4000, 4, 0⟩, rle := ⟨true, 0x5000, 4, 3, 0, .none⟩ } }

/-- The running unpack beside a bit writer with two settled bytes of four. -/
def settledTwo : Engine := { crowded.engine with bw := ⟨true, 0x3000, 4, 20, bitsOf 20 0x21436, 2⟩ }

/-- A store just below the source of the running command, and at the top of memory; a load of the running
command's source, just below and above its destination, of each reader's extent, of the last settled byte, just
above the bit writer's extent and at the top of memory. -/
theorem witness_HostMemoryAccess : (∀ x ∈ [(0x0FFF, [1#8]), (0xFFFFFFFF, [1#8])], x.1 + x.2.length ≤ 2 ^ 32 ∧
    ∀ e ∈ crowded.engines, (∀ y, e.busySrc = some y → Apart y ⟨x.1, x.2.length⟩) ∧
      (∀ y, e.busyDst = some y → Apart y ⟨x.1, x.2.length⟩) ∧
      (e.bw.active = true → Apart e.bw.extent ⟨x.1, x.2.length⟩) ∧
      (e.br.active = true → Apart e.br.extent ⟨x.1, x.2.length⟩) ∧
      (e.rle.active = true → Apart e.rle.extent ⟨x.1, x.2.length⟩)) ∧
    ∀ addr ∈ [0x1000, 0x1FFF, 0x2020, 0x4000, 0x5003, 0x3001, 0x3004, 0xFFFFFFFF], addr < 2 ^ 32 ∧
      ∀ e ∈ ({ crowded with engine := settledTwo } : State).engines,
        (∀ x, e.busyDst = some x → x.contains addr = false) ∧
        (e.bw.active = true → addr < e.bw.base.toNat + e.bw.settled ∨ e.bw.base.toNat + e.bw.cap ≤ addr) := by
  have hsrc : crowded.engine.busySrc = some ⟨0x1000, 4⟩ := by decide +kernel
  have hdst : crowded.engine.busyDst = some ⟨0x2000, 32⟩ := by decide +kernel
  have hdst' : settledTwo.busyDst = some ⟨0x2000, 32⟩ := by decide +kernel
  refine ⟨fun x hx => ?_, fun addr ha => ?_⟩
  · refine ⟨by simp only [List.mem_cons, List.not_mem_nil, or_false] at hx; rcases hx with rfl | rfl <;> decide,
      fun e he => ?_⟩
    obtain rfl : e = crowded.engine := List.mem_singleton.1 he
    rw [hsrc, hdst]
    simp only [List.mem_cons, List.not_mem_nil, or_false] at hx
    rcases hx with rfl | rfl <;>
      exact ⟨by rintro y ⟨⟩; exact apart_of _ _ (by decide), by rintro y ⟨⟩; exact apart_of _ _ (by decide),
        fun _ => apart_of _ _ (by decide), fun _ => apart_of _ _ (by decide), fun _ => apart_of _ _ (by decide)⟩
  · have := (by decide : ∀ a ∈ [0x1000, 0x1FFF, 0x2020, 0x4000, 0x5003, 0x3001, 0x3004, 0xFFFFFFFF], a < 2 ^ 32 ∧
      Extent.contains ⟨0x2000, 32⟩ a = false ∧ (a < 0x3002 ∨ 0x3004 ≤ a)) addr ha
    refine ⟨this.1, fun e he => ?_⟩
    obtain rfl : e = settledTwo := List.mem_singleton.1 he
    rw [hdst']
    exact ⟨by rintro x ⟨⟩; exact this.2.1, fun _ => this.2.2⟩

/-- A PACK8 next to another engine's running UNPACK8 of the same source, into bytes just above its destination. -/
def beside : Engine :=
  { Engine.reset with regs := { args 32 4 0 with cmd := 0x00000401, dstAddr := 0x2020 } }

/-- START with IRQ_EN, beside a running engine. -/
theorem witness_CtrlRegister :
    let s := before { idle [] (args 0 0 0) with engine := beside, peers := [crowded.engine] } (.regWrite 0x04 4 3)
    let run : Engine := { s.engine with
      irqEn := true, latched := some s.engine.regs, status := ⟨true, false, false, false, false⟩, error := 0
      results := ⟨0, 0, 0, 0, 0⟩ }
    s.inbox = [.regWrite (s.platform.engineBase + 0x04) 4 3] ∧ s.engine.status.busy = false ∧
      (∀ e ∈ s.peers, ∀ x y, run.busyDst = some x → e.busySrc = some y ∨ e.busyDst = some y → Apart x y) ∧
      (∀ e ∈ s.peers, ∀ x y, run.busySrc = some x → e.busyDst = some y → Apart x y) ∧
      (before s (.regRead 0x04 4)).inbox = [.regRead (s.platform.engineBase + 0x04) 4] := by
  have hsrc : crowded.engine.busySrc = some ⟨0x1000, 4⟩ := by decide +kernel
  have hdst : crowded.engine.busyDst = some ⟨0x2000, 32⟩ := by decide +kernel
  intro s run
  have rsrc : run.busySrc = some ⟨0x1000, 32⟩ := by decide +kernel
  have rdst : run.busyDst = some ⟨0x2020, 4⟩ := by decide +kernel
  refine ⟨rfl, rfl, fun e he x y hx hy => ?_, fun e he x y hx hy => ?_, rfl⟩ <;> obtain rfl := List.mem_singleton.1 he
  · rw [rdst] at hx; rw [hsrc, hdst] at hy; cases hx
    rcases hy with h | h <;> cases h <;> exact apart_of _ _ (by decide)
  · rw [rsrc] at hx; rw [hdst] at hy; cases hx; cases hy; exact apart_of _ _ (by decide)

/-- A store of one byte that meets each kind of extent at its last byte, the two kinds of a load, and a START that
would write the last byte of a running command's source, or read the last byte of its destination. -/
theorem witness_HostDutiesRefused : crowded.engine ∈ crowded.engines ∧
    crowded.engine.busySrc = some ⟨0x1000, 4⟩ ∧ ¬Apart ⟨0x1000, 4⟩ ⟨0x1003, 1⟩ ∧
    crowded.engine.busyDst = some ⟨0x2000, 32⟩ ∧ ¬Apart ⟨0x2000, 32⟩ ⟨0x201F, 1⟩ ∧
    crowded.engine.bw.active = true ∧ ¬Apart crowded.engine.bw.extent ⟨0x3003, 1⟩ ∧
    crowded.engine.br.active = true ∧ ¬Apart crowded.engine.br.extent ⟨0x4003, 1⟩ ∧
    crowded.engine.rle.active = true ∧ ¬Apart crowded.engine.rle.extent ⟨0x5003, 1⟩ ∧
    Extent.contains ⟨0x2000, 32⟩ 0x201F = true ∧
    Extent.contains ⟨crowded.engine.bw.base.toNat + crowded.engine.bw.settled,
      crowded.engine.bw.cap - crowded.engine.bw.settled⟩ 0x3003 = true ∧
    (let run := fun p : Params => { beside with
      regs := { p with cmd := 0x00000401 }, latched := some { p with cmd := 0x00000401 }
      status := { beside.status with busy := true } }
    (run { args 32 4 0 with srcAddr := 0x6000, dstAddr := 0x0FFD }).busyDst = some ⟨0x0FFD, 4⟩ ∧
      ¬Apart ⟨0x0FFD, 4⟩ ⟨0x1000, 4⟩ ∧
      (run { args 32 4 0 with srcAddr := 0x201F, dstAddr := 0x6000 }).busySrc = some ⟨0x201F, 32⟩ ∧
      ¬Apart ⟨0x201F, 32⟩ ⟨0x2000, 32⟩) :=
  ⟨.head _, by decide +kernel, not_apart_of _ _ (by decide), by decide +kernel, not_apart_of _ _ (by decide), rfl,
    not_apart_of _ _ (by decide), rfl, not_apart_of _ _ (by decide), rfl, not_apart_of _ _ (by decide), by decide,
    by decide +kernel, by decide +kernel, not_apart_of _ _ (by decide), by decide +kernel, not_apart_of _ _ (by decide)⟩

theorem witness_EnginesShareOnlyMemory :
    let s := { idle [] (args 0 0 0) with peers := [Engine.reset] }
    (before s (.regRead 0 4)).inbox = [.regRead 0 4] ∧ (∀ k, Event.regRead 0 4 ≠ .select k) ∧
      (∃ t, step (before s (.regRead 0 4)) = .next t) ∧ (before s (.select 0)).inbox = [.select 0] ∧
      (before s (.select 0)).peers[0]? = some Engine.reset ∧ (before s (.select 1)).peers.length ≤ 1 ∧
      ∃ t, exec (.bwInit) s = .next t :=
  ⟨rfl, nofun, ⟨_, rfl⟩, rfl, rfl, le_refl _, exec_next _ _⟩

theorem witness_EveryStartedCommandCompletes :
    let s := { started 0x00000008 [] (args 0 0 0) with peers := [(started 0x00000010 [] (args 0 0 0)).engine] }
    s.inbox = [] ∧ ∀ e ∈ s.engines, e.status.busy = true := by decide +kernel

/-- Both ends of a command occur. -/
theorem witness_EveryCommandCompletes : (ran .bwInit (idle [] (args 0 0 0))).engine.status.err = false ∧
    (ran .bwFlush (idle [] (args 0 0 0))).engine.status.err = true := by decide +kernel

theorem witness_ErrorValues : ErrorCode.illegalOp.value = ErrorCode.illegalOp.value := rfl

/-- An error of the checks phase, one of the execute phase, and one that ends the RLE session. -/
theorem witness_ErrorEffects :
    (∃ t, exec .bwFlush (idle [] (args 0 0 0)) = .next t ∧ t.engine.status.err = true ∧ t.engine.error = 0x0601#32) ∧
      (∃ t, exec .deflateDecompress (idle [0x07] (args 1 4 0)) = .next t ∧ t.engine.status.err = true ∧
        t.engine.error = 0x0503#32 ∧ dstExtent Engine.reset .deflateDecompress ≠ none) ∧
      ∃ t, exec .rleDecGet (decoding 0x00000022 [0x14] 0 0) = .next t ∧ t.engine.status.err = true ∧
        t.engine.error = 0x0103#32 :=
  ⟨⟨_, exec_ran _ _, by decide +kernel⟩, ⟨_, exec_ran _ _, by decide +kernel⟩, ⟨_, exec_ran _ _, by decide +kernel⟩⟩

theorem witness_WritesOnlyTheDestination :
    (writing 0x0000000C 5 (bitsOf 40 0x123456789A) 0 0).engine.bw.Sound ∧
      (∃ t, exec .bwFlush (writing 0x0000000C 5 (bitsOf 40 0x123456789A) 0 0) = .next t) ∧
      ∀ x, dstExtent (writing 0x0000000C 5 (bitsOf 40 0x123456789A) 0 0).engine .bwFlush = some x →
        x.contains 0x2005 = false :=
  ⟨⟨by decide +kernel, by decide +kernel, by decide +kernel, by decide +kernel, by decide +kernel⟩, exec_next _ _,
    by rintro x ⟨⟩; decide +kernel⟩

/-- Memory that differs just above the source. -/
theorem witness_ReadsOnlyTheSource :
    let s := idle (words [0, 1, 2, 3, 4, 5, 6, 7]) (args 32 4 0)
    (∀ x, srcExtent s.engine (.pack8 4) = some x → ∀ a, x.contains a = true →
      (s.mem.write 0x1020 7).read a = s.mem.read a) ∧ ∃ t, exec (.pack8 4) s = .next t := by
  refine ⟨fun x hx a ha => ?_, exec_next _ _⟩
  obtain rfl : x = ⟨0x1000, 32⟩ := (Option.some.inj hx).symm
  rw [contains_iff] at ha
  rw [read_write, if_neg (by simp only at ha; omega)]

theorem witness_SessionsIndependent :
    (Instr.brInit ≠ .bwInit ∧ Instr.brInit ≠ .bwPutBit ∧ (∀ n, Instr.brInit ≠ .bwPut n) ∧
      (∀ n, Instr.brInit ≠ .bwPut64 n) ∧ Instr.brInit ≠ .bwFlush) ∧
    (Instr.bwInit ≠ .brInit ∧ Instr.bwInit ≠ .brGetBit ∧ (∀ n, Instr.bwInit ≠ .brGet n) ∧
      ∀ n, Instr.bwInit ≠ .brGet64 n) ∧
    ((∀ w, Instr.rleDecLevels16 1 ≠ .rleDecInit w) ∧ Instr.rleDecLevels16 1 ≠ .rleDecGet ∧
      Instr.rleDecLevels16 1 ≠ .rleDecBatch ∧ Instr.rleDecLevels16 1 ≠ .rleDecSkip) ∧
    ∃ t, exec .brInit (idle [] (args 0 0 0)) = .next t :=
  ⟨⟨nofun, nofun, nofun, nofun, nofun⟩, ⟨nofun, nofun, nofun, nofun⟩, ⟨nofun, nofun, nofun, nofun⟩, exec_next _ _⟩

theorem witness_SessionRequired :
    let e := (idle [] (args 0 0 0)).engine
    e.bw.active = false ∧ e.br.active = false ∧ e.rle.active = false ∧ (32#8).toNat ≤ 32 ∧ (64#8).toNat ≤ 64 := by
  decide +kernel

/-- Operands for PACK_BULK with this source, destination and count. -/
def bulk (src srcLen dst dstCap count : Word) (blocked : List (Nat × Nat)) : State :=
  { idle [] ⟨0, src, srcLen, dst, dstCap, count, 0, 0⟩ with platform := ⟨0, blocked⟩ }

/-- Each check's boundary: a source or destination one byte past the address space, a size of `2^32`, a source one
byte short, extents that share one byte, a blocked byte, a destination one byte short, and none of these. -/
theorem witness_CheckOrder : 32 < (33#8).toNat ∧ (32#8).toNat ≤ 32 ∧
    2 ^ 32 < (0xFFFFFFFF#32).toNat + (2#32).toNat ∧ (0xFFFFFFFF#32).toNat + (1#32).toNat ≤ 2 ^ 32 ∧
    2 ^ 32 ≤ 4 * (0x40000000#32).toNat ∧ 4 * (0x3FFFFFFF#32).toNat < 2 ^ 32 ∧
    (31#32).toNat < 4 * (8#32).toNat ∧ 4 * (8#32).toNat ≤ (32#32).toNat ∧
    ¬Apart (bulk 0x1000 32 0x101F 32 8 []).operands.src (bulk 0x1000 32 0x101F 32 8 []).operands.dst ∧
    Apart (bulk 0x1000 32 0x1020 32 8 []).operands.src (bulk 0x1000 32 0x1020 32 8 []).operands.dst ∧
    ¬Usable (bulk 0x1000 32 0x1020 32 8 [(0x103F, 0x1040)]) (bulk 0x1000 32 0x1020 32 8 []).operands.dst ∧
    Usable (bulk 0x1000 32 0x1020 32 8 [(0x1040, 0x1041)]) (bulk 0x1000 32 0x1020 32 8 []).operands.src ∧
    Usable (bulk 0x1000 32 0x1020 32 8 [(0x1040, 0x1041)]) (bulk 0x1000 32 0x1020 32 8 []).operands.dst ∧
    8 * (31#32).toNat < (8#32).toNat * (32#8).toNat ∧ (8#32).toNat * (32#8).toNat ≤ 8 * (32#32).toNat := by
  refine ⟨by decide, by decide, by decide, by decide, by decide, by decide, by decide, by decide,
    not_apart_of _ _ (by decide +kernel), apart_of _ _ (by decide +kernel), fun h => ?_,
    usable_of _ _ (by decide +kernel), usable_of _ _ (by decide +kernel), by decide, by decide⟩
  have := ((usable_iff _ _).1 h).2
  revert this
  decide +kernel

/-- Room one byte short of the output of each command. -/
theorem witness_OutputTooLong :
    (let s := idle (words (List.replicate 10 5)) (args 40 1 10)
    (32#8).toNat ≤ 32 ∧ OneShotReady s 40 40 0 ∧ 1 < (rleEncode 3 (s.mem.values 0x1000 4 10)).length) ∧
      (let s := idle (words [10, 20, 15, 30]) (args 16 29 4)
      OneShotReady s 16 16 0 ∧ 29 < (deltaEncode 32 (s.mem.values 0x1000 4 4)).length) ∧
      (let s := idle ([1, 2].flatMap (leBytes 8)) (args 16 9 2)
      OneShotReady s 16 16 0 ∧ 9 < (deltaEncode 64 (s.mem.values 0x1000 8 2)).length) ∧
      let s := idle hello (args 5 4 0)
      let x := s.mem.readBytes 0x1000 5
      OneShotReady s 0 0 0 ∧ (9#4).toNat ≤ 9 ∧ 4 < (deflateMember 9 [] x).length ∧
        4 < (chosenMember (lz4Admissible x) (lz4Ref x) []).length ∧
        4 < (chosenMember (snappyAdmissible x) (snappyRef x) []).length := by
  refine ⟨⟨by decide, ready_of _ _ _ _ (by decide +kernel), ?_⟩, ⟨ready_of _ _ _ _ (by decide +kernel), ?_⟩,
    ⟨ready_of _ _ _ _ (by decide +kernel), ?_⟩, ready_of _ _ _ _ (by decide +kernel), by decide, ?_, ?_, ?_⟩
  · rw [← leElems_readBytes]; decide +kernel
  · rw [← leElems_readBytes]; decide +kernel
  · rw [← leElems_readBytes]; decide +kernel
  · decide +kernel
  · decide +kernel
  · decide +kernel

/-- The widest and the narrowest width, with room exactly enough, and no value at all. -/
theorem witness_PackCommands : (32#8).toNat ≤ 32 ∧ OneShotReady (idle [] (args 32 32 0)) 0 32 (32#8).toNat ∧
    OneShotReady (idle [] (args 32 0 0)) 0 32 (0#8).toNat ∧
    OneShotReady (idle [] (args 12 2 3)) (4 * 3) (4 * 3) ((3 * (3#8).toNat + 7) / 8) ∧
    OneShotReady (idle [] (args 0 0 0)) (4 * 0) (4 * 0) ((0 * (7#8).toNat + 7) / 8) :=
  ⟨by decide, ready_of _ _ _ _ (by decide +kernel), ready_of _ _ _ _ (by decide +kernel),
    ready_of _ _ _ _ (by decide +kernel), ready_of _ _ _ _ (by decide +kernel)⟩

theorem witness_UnpackCommands : (32#8).toNat ≤ 32 ∧ OneShotReady (idle [] (args 32 32 0)) 0 (32#8).toNat 32 ∧
    OneShotReady (idle [] (args 0 32 0)) 0 (0#8).toNat 32 ∧
    OneShotReady (idle [] (args 2 12 3)) (4 * 3) ((3 * (3#8).toNat + 7) / 8) (4 * 3) :=
  ⟨by decide, ready_of _ _ _ _ (by decide +kernel), ready_of _ _ _ _ (by decide +kernel),
    ready_of _ _ _ _ (by decide +kernel)⟩

/-- Two bytes that hold three values of width 3, their pad bits 0; and a value that was unpacked. -/
theorem witness_PackUnpackInverse : [0xD1#8, 0x00#8].length = (3 * 3 + 7) / 8 ∧
    [5, 1, 7].length * 3 ≤ 15 ∧ 15 < 8 * (packBits 3 [5, 1, 7]).length ∧
    (∀ k, k < 16 → 3 * 3 ≤ k → ([0xD1#8, 0x00#8].getD (k / 8) 0).getLsbD (k % 8) = false) ∧
    2 < [5, 1, 7].length ∧ 2 < 3 ∧ 1 ∈ unpackBits [0xD1#8, 0x00#8] 3 3 := by decide +kernel

/-- The longest session. -/
theorem witness_SessionInits :
    let s := idle [] (args 0x1FFFFFFF 0x1FFFFFFF 0)
    Usable s s.operands.dst ∧ s.operands.dstCap.toNat < 2 ^ 29 ∧ Usable s s.operands.src ∧
      s.operands.srcLen.toNat < 2 ^ 29 ∧ (32#8).toNat ≤ 32 :=
  ⟨usable_of _ _ (by decide +kernel), by decide +kernel, usable_of _ _ (by decide +kernel), by decide +kernel, by decide⟩

/-- Room for exactly 32 and 64 bits, and for one bit less than each. -/
theorem witness_WriterPuts :
    let b := (writing 0x0000000A 12 (List.replicate 32 true) 0 0).engine.bw
    let c := (writing 0x0000000A 12 (List.replicate 64 true) 0 0).engine.bw
    b.active = true ∧ c.active = true ∧ c.bitpos + (32#8).toNat ≤ 8 * c.cap ∧ b.bitpos + (64#8).toNat ≤ 8 * b.cap ∧
      8 * c.cap < c.bitpos + 33 ∧ 8 * b.cap < b.bitpos + 65 ∧ (32#8).toNat ≤ 32 ∧ (64#8).toNat ≤ 64 := by
  decide +kernel

theorem witness_WriterFlush :
    let s := writing 0x0000000C 1 [true, false, true] 0 0
    s.engine.bw.active = true ∧ s.engine.bw.Sound ∧ s.engine.bw.settled ≤ 0 ∧ 0 < (s.engine.bw.bitpos + 5) / 8 :=
  ⟨by decide +kernel,
    ⟨by decide +kernel, by decide +kernel, by decide +kernel, by decide +kernel, by decide +kernel⟩,
    by decide +kernel, by decide +kernel⟩

theorem witness_ReaderGets : (reading 0x00000011 [0xB5, 0x03] 0).engine.br.active = true ∧ (32#8).toNat ≤ 32 ∧
    (64#8).toNat ≤ 64 ∧ 1 < min 32 (8 * (reading 0x00000011 [0xB5, 0x03] 0).engine.br.len) := by decide +kernel

theorem witness_RleEncodeCommand :
    let s := idle (words (List.replicate 10 5)) (args 40 2 10)
    (3#8).toNat ≤ 32 ∧ OneShotReady s 40 40 0 ∧ (rleEncode 3 (s.mem.values 0x1000 4 10)).length ≤ 2 := by
  refine ⟨by decide, ready_of _ _ _ _ (by decide +kernel), ?_⟩
  rw [← leElems_readBytes]; decide +kernel

theorem witness_RleRoundTrip : ∃ w vs, w ≤ 32 ∧ rleEncode w vs = [0x14, 0x05] :=
  ⟨3, List.replicate 10 5, by decide, by decide +kernel⟩

/-- A session with a last repeat value, with a last packed value, and at END. -/
theorem witness_RleGet :
    let s := fun (run : RleRun) (pos : Nat) => { decoding 0x00000022 [0x03, 0xD1, 0x58, 0x1F] 0 0 with
      engine.rle := ⟨true, 0x1000, 4, 3, pos, run⟩ }
    (∀ run, (s run 4).engine.rle.active = true) ∧ (s (.rep 1 5) 4).engine.rle.run = .rep 1 5 ∧
      (s (.packed 1 1 7) 4).engine.rle.run = .packed 1 1 7 ∧ 8 * 1 + (7 + 1) * 3 ≤ 8 * 4 ∧ 0 < 3 ∧
      (s .none 4).engine.rle.run = .none ∧ (s .none 4).engine.rle.len ≤ (s .none 4).engine.rle.pos :=
  ⟨fun _ => rfl, rfl, rfl, by decide, by decide, rfl, by decide⟩

/-- Values found, for one and for twenty; and a malformed header. The destination holds exactly the room. -/
theorem witness_RleSessionCommands :
    (let s := decoding 0x00000023 [0x03, 0xD1, 0x58, 0x1F, 0x12, 0x02] 80 20
    s.engine.rle.active = true ∧ s.operands.count.toNat = 20 ∧ Usable s s.operands.dst ∧
      Apart s.engine.rle.extent s.operands.dst ∧ 4 * 20 ≤ s.operands.dstCap.toNat ∧
      nextValues 3 (s.mem.readBytes 0x1000 6) 1 ⟨0, .none, false⟩ = (.ok [1], ⟨4, .packed 7 1 1, false⟩) ∧
      nextValues 3 (s.mem.readBytes 0x1000 6) 20 ⟨0, .none, false⟩ =
        (.ok [1, 2, 3, 4, 5, 6, 7, 0, 2, 2, 2, 2, 2, 2, 2, 2, 2], ⟨6, .none, false⟩)) ∧
      let s := decoding 0x00000023 [0x14] 80 20
      s.engine.rle.active = true ∧ Usable s s.operands.dst ∧ Apart s.engine.rle.extent s.operands.dst ∧
        nextValues 3 (s.mem.readBytes 0x1000 1) 1 ⟨0, .none, false⟩ = (.error .truncated, ⟨0, .none, false⟩) ∧
        nextValues 3 (s.mem.readBytes 0x1000 1) 20 ⟨0, .none, false⟩ = (.error .truncated, ⟨0, .none, false⟩) :=
  ⟨⟨by decide +kernel, by decide +kernel, usable_of _ _ (by decide +kernel), apart_of _ _ (by decide +kernel),
      by decide +kernel, by decide +kernel, by decide +kernel⟩,
    by decide +kernel, usable_of _ _ (by decide +kernel), apart_of _ _ (by decide +kernel), by decide +kernel,
    by decide +kernel⟩

/-- A zero-count repeat run whose value ends the input, and a zero-count packed run. -/
theorem witness_RleZeroRun :
    (0 < [0x00#8, 0x07#8].length ∧ readVarint 32 [0x00, 0x07] 0 = .ok (0, 1) ∧ 1 + (3 + 7) / 8 ≤ [0x00#8, 0x07#8].length) ∧
      readVarint 32 [0x01, 0x14, 0x05] 0 = .ok (1, 1) ∧ 1 ≤ [0x01#8, 0x14#8, 0x05#8].length := by decide +kernel

theorem witness_RleLevels :
    let s := idle [0x14, 0x01] (args 2 24 12)
    (16#8).toNat ≤ 16 ∧ OneShotReady s (2 * 12) 0 (2 * 12) ∧
      nextValues 1 (s.mem.readBytes 0x1000 2) 12 ⟨0, .none, false⟩ = (.ok (List.replicate 10 1), ⟨2, .none, false⟩) :=
  ⟨by decide, ready_of _ _ _ _ (by decide +kernel), by decide +kernel⟩

theorem witness_VarintRoundTrip : 0xFFFFFFFF < 2 ^ 32 ∧ 0xFFFFFFFFFFFFFFFF < 2 ^ 64 := by decide

theorem witness_ZigZag : 0x80000000 < 2 ^ 32 ∧ zigzag 32 0x80000000 = 0xFFFFFFFF ∧ 0x8000000000000000 < 2 ^ 64 := by decide

theorem witness_DeltaEncodeCommands :
    (let s := idle (words [10, 20, 15, 30]) (args 16 30 4)
    OneShotReady s (4 * 4) (4 * 4) 0 ∧ (deltaEncode 32 (s.mem.values 0x1000 4 4)).length ≤ 30) ∧
      let s := idle ([1, 2].flatMap (leBytes 8)) (args 16 10 2)
      OneShotReady s (8 * 2) (8 * 2) 0 ∧ (deltaEncode 64 (s.mem.values 0x1000 8 2)).length ≤ 10 := by
  refine ⟨⟨ready_of _ _ _ _ (by decide +kernel), ?_⟩, ready_of _ _ _ _ (by decide +kernel), ?_⟩
  · rw [← leElems_readBytes]; decide +kernel
  · rw [← leElems_readBytes]; decide +kernel

/-- Exactly the room for two values, and one byte less; at both widths. -/
theorem witness_DeltaDecodeCommands :
    OneShotReady (idle deltaStream (args 30 8 2)) 0 0 0 ∧ OneShotReady (idle deltaStream (args 30 16 2)) 0 0 0 ∧
      deltaHeader 32 deltaStream = .ok ⟨32, 4, 4, 10, 5⟩ ∧ deltaHeader 64 deltaStream = .ok ⟨32, 4, 4, 10, 5⟩ ∧
      deltaValues 32 ⟨32, 4, 4, 10, 5⟩ deltaStream 2 = .ok ([10, 20], 30) ∧
      deltaValues 64 ⟨32, 4, 4, 10, 5⟩ deltaStream 2 = .ok ([10, 20], 30) ∧
      7 < 4 * min 2 4 ∧ 4 * min 2 4 ≤ 8 ∧ 15 < 8 * min 2 4 ∧ 8 * min 2 4 ≤ 16 :=
  ⟨ready_of _ _ _ _ (by decide +kernel), ready_of _ _ _ _ (by decide +kernel), by decide +kernel, by decide +kernel,
    by decide +kernel, by decide +kernel, by decide, by decide, by decide, by decide⟩

theorem witness_DeltaRoundTrip : (∀ v ∈ [0x80000000, 0x7FFFFFFF], v < 2 ^ 32) ∧
    (∀ v ∈ [0, 0x7FFFFFFFFFFFFFFF, 0x8000000000000000], v < 2 ^ 64) ∧ [0, 1, 2].length < 2 ^ 32 := by decide

/-- One value of 255 bytes, and values of one byte. -/
theorem witness_TransposeCommands : 1 ≤ (255#8).toNat ∧
    OneShotReady (idle [] (args 255 255 1)) (1 * (255#8).toNat) (1 * (255#8).toNat) (1 * (255#8).toNat) ∧
    1 ≤ (1#8).toNat ∧ OneShotReady (idle [] (args 3 3 3)) (3 * (1#8).toNat) (3 * (1#8).toNat) (3 * (1#8).toNat) :=
  ⟨by decide, ready_of _ _ _ _ (by decide +kernel), by decide, ready_of _ _ _ _ (by decide +kernel)⟩

theorem witness_TransposeInverse : 1 ≤ 3 ∧ [0#8, 1, 2, 3, 4, 5].length = 2 * 3 := by decide

/-- Room exactly enough for each compressor. -/
theorem witness_CompressCommands :
    let x := (idle hello (args 5 10 0)).mem.readBytes 0x1000 5
    OneShotReady (idle hello (args 5 10 0)) 0 0 0 ∧ (storedStream x).length ≤ 10 ∧ 1 ≤ (9#4).toNat ∧ (9#4).toNat ≤ 9 ∧
      (chosenMember (deflateAdmissible x) (deflateRef 9 x) []).length ≤ 10 ∧
      (chosenMember (lz4Admissible x) (lz4Ref x) []).length ≤ 10 ∧
      (chosenMember (snappyAdmissible x) (snappyRef x) []).length ≤ 10 ∧
      OneShotReady (idle [] (args 0 1 0)) 0 0 0 ∧ (idle [] (args 0 1 0)).operands.srcLen = 0 ∧
      [0x00#8].length ≤ (idle [] (args 0 1 0)).operands.dstCap.toNat :=
  ⟨ready_of _ _ _ _ (by decide +kernel), by decide +kernel, by decide, by decide, by decide +kernel, by decide +kernel,
    by decide +kernel, ready_of _ _ _ _ (by decide +kernel), by decide +kernel, by decide +kernel⟩

/-- Room for exactly each bound of five bytes. -/
theorem witness_CompressWithinBound : OneShotReady (idle hello (args 5 10 0)) 0 0 0 ∧
    OneShotReady (idle hello (args 5 21 0)) 0 0 0 ∧ OneShotReady (idle hello (args 5 37 0)) 0 0 0 ∧
    5 + 5 * (5 / 65535 + 1) ≤ 10 ∧ 5 + 5 / 255 + 16 ≤ 21 ∧ 32 + 5 + 5 / 6 ≤ 37 ∧ (9#4).toNat ≤ 9 :=
  ⟨ready_of _ _ _ _ (by decide +kernel), ready_of _ _ _ _ (by decide +kernel), ready_of _ _ _ _ (by decide +kernel),
    by decide, by decide, by decide, by decide⟩

/-- For each decoder, a source it decodes with exactly the room, and one it refuses. -/
theorem witness_DecompressCommands : OneShotReady (idle hello (args 5 5 0)) 0 0 0 ∧
    deflateDecompress [0xF3, 0x48, 0xCD, 0xC9, 0xC9, 0x07, 0x00] 5 = .ok (hello, 7) ∧
    deflateDecompress [0x07] 5 = .error .badBlockType ∧ lz4Decompress (0x50 :: hello) 5 = .ok (hello, 6) ∧
    lz4Decompress [0xF0] 5 = .error .truncated ∧ snappyDecompress (0x05 :: 0x10 :: hello) 5 = .ok (hello, 7) ∧
    snappyDecompress (0x05 :: 0x10 :: hello) 4 = .error .dstTooSmall :=
  ⟨ready_of _ _ _ _ (by decide +kernel), by decide +kernel, by decide +kernel, by decide +kernel, by decide +kernel,
    by decide +kernel, by decide +kernel⟩

/-- The longest source whose bound fits, and the next one, for each bound. -/
theorem witness_BoundCommands :
    (0xFFFB000E + 5 * (0xFFFB000E / 65535 + 1) < 2 ^ 32 ∧ 2 ^ 32 ≤ 0xFFFB000F + 5 * (0xFFFB000F / 65535 + 1)) ∧
      (0xFEFFFFF0 + 0xFEFFFFF0 / 255 + 16 < 2 ^ 32 ∧ 2 ^ 32 ≤ 0xFEFFFFF1 + 0xFEFFFFF1 / 255 + 16) ∧
      32 + 0xDB6DB6BF + 0xDB6DB6BF / 6 < 2 ^ 32 ∧ 2 ^ 32 ≤ 32 + 0xDB6DB6C0 + 0xDB6DB6C0 / 6 := by decide

theorem witness_DeflateRoundTrip : 9 ≤ 9 ∧ hello.length ≤ 5 := by decide

theorem witness_LzFourRoundTrip : hello.length + hello.length / 255 + 16 < 2 ^ 32 ∧ hello.length ≤ 5 := by decide

theorem witness_SnappyRoundTrip : 32 + hello.length + hello.length / 6 < 2 ^ 32 ∧ hello.length ≤ 5 := by decide

end Sys2Proof.Tests
end

section
/-! ## The register interface and the invariant

The rules of buffer memory, of one engine and of each host action, and from them the statements of 10_state.md: a
step keeps the invariant, a command leaves the sessions of the other families alone, and what each register access
does. -/

namespace Sys2Proof.Machine

/-! ### Memory with its draws -/

/-- What the invariant asks of buffer memory when `draws` free values were drawn (20_memory.md R100, R108). -/
structure Memory.Sound (m : Memory) (draws : Nat) : Prop where
  wf : m.wf
  bounded : m.bounded
  tags_lt : ∀ h ∈ m.holes, h.tag < draws

theorem sound_iff (s : State) :
    Sound s ↔ s.mem.Sound s.draws ∧ s.engine.Sound ∧ ∀ e ∈ s.peers, e.Sound :=
  ⟨fun h => ⟨⟨h.mem_wf, ⟨h.cells_lt, h.holes_le⟩, h.tags_lt⟩, h.engine, h.peers⟩,
    fun ⟨hm, he, hp⟩ => ⟨hm.wf, hm.bounded.1, hm.bounded.2, hm.tags_lt, he, hp⟩⟩

theorem Sound.mem {s : State} (h : Sound s) : s.mem.Sound s.draws := ((sound_iff s).1 h).1

theorem Memory.Sound.mono {m : Memory} {d d' : Nat} (h : m.Sound d) (hd : d ≤ d') : m.Sound d' :=
  ⟨h.wf, h.bounded, fun g hg => (h.tags_lt g hg).trans_le hd⟩

/-- Taking addresses out of the holes draws nothing: what is left keeps its draw. -/
theorem exists_tag_of_mem_punch {g : Hole} {lo hi : Nat} {hs : List Hole} (hg : g ∈ punch lo hi hs) :
    ∃ h ∈ hs, g.tag = h.tag := by
  induction hs with
  | nil => cases hg
  | cons h hs ih =>
    simp only [punch, clipHole, List.mem_append] at hg
    rcases hg with (hg | hg) | hg
    · split at hg
      · obtain rfl := List.mem_singleton.1 hg
        exact ⟨h, List.mem_cons_self, rfl⟩
      · cases hg
    · split at hg
      · obtain rfl := List.mem_singleton.1 hg
        exact ⟨h, List.mem_cons_self, rfl⟩
      · cases hg
    · obtain ⟨k, hk, htag⟩ := ih hg
      exact ⟨k, List.mem_cons_of_mem h hk, htag⟩

theorem punch_tags_lt {lo hi d : Nat} {hs : List Hole} (h : ∀ g ∈ hs, g.tag < d) :
    ∀ g ∈ punch lo hi hs, g.tag < d := fun g hg => by
  obtain ⟨k, hk, htag⟩ := exists_tag_of_mem_punch hg
  exact htag ▸ h k hk

theorem writeBytes_tags_lt {d : Nat} (bs : List Byte) {m : Memory} (h : ∀ g ∈ m.holes, g.tag < d) (a : Nat) :
    ∀ g ∈ (m.writeBytes a bs).holes, g.tag < d := by
  induction bs generalizing m a with
  | nil => exact h
  | cons b bs ih => exact ih (m := m.write a b) (punch_tags_lt h) (a + 1)

theorem scramble_tags_lt {m : Memory} {lo hi tag d : Nat} (h : ∀ g ∈ m.holes, g.tag < d) (ht : tag < d) :
    ∀ g ∈ (m.scramble lo hi tag).holes, g.tag < d := by
  unfold Memory.scramble
  split
  · intro g hg
    rcases mem_insertHole.1 hg with rfl | hg
    · exact ht
    · exact punch_tags_lt h g hg
  · exact h

theorem Memory.Sound.writeBytes {m : Memory} {d a : Nat} {bs : List Byte} (h : m.Sound d)
    (ha : a + bs.length ≤ Config.addrSpace) : (m.writeBytes a bs).Sound d :=
  ⟨writeBytes_wf bs h.wf a, writeBytes_bounded bs h.bounded ha, writeBytes_tags_lt bs h.tags_lt a⟩

/-- Bytes that take the next draw leave memory sound for every later count of draws. -/
theorem Memory.Sound.scramble {m : Memory} {d d' lo hi : Nat} (h : m.Sound d) (hd : d < d')
    (hhi : lo < hi → hi ≤ Config.addrSpace) : (m.scramble lo hi d).Sound d' :=
  ⟨scramble_wf h.wf lo hi d, scramble_bounded h.bounded hhi, scramble_tags_lt (h.mono hd.le).tags_lt hd⟩

/-! ### One engine -/

theorem value_ne_zero (c : ErrorCode) : c.value ≠ 0 := by cases c <;> decide

/-- An engine with nothing latched and BUSY = 0 owes only the laws of ERROR and of the sessions. -/
theorem Engine.Sound.of_idle {e : Engine} (hl : e.latched = none) (hb : e.status.busy = false)
    (herr : e.status.err = true → e.error ≠ 0) (hk : e.error = 0 ∨ ∃ c : ErrorCode, e.error = c.value)
    (hw : e.bw.Sound) (hr : e.br.Sound) (hd : e.rle.Sound) : e.Sound where
  latched_iff := by rw [hl, hb]; rfl
  captured p hp := by rw [hl] at hp; cases hp
  quiet hbusy := by rw [hb] at hbusy; cases hbusy
  err_error := herr
  error_known := hk
  writer := hw
  reader := hr
  decoder := hd

theorem Engine.Sound.latched_eq_none {e : Engine} (h : e.Sound) (hb : e.status.busy = false) : e.latched = none := by
  simpa [hb] using h.latched_iff

theorem Engine.reset_sound : Engine.reset.Sound :=
  .of_idle rfl rfl nofun (.inl rfl)
    ⟨by decide, by decide, rfl, le_rfl, le_rfl⟩ ⟨by decide, by decide, le_rfl⟩
    ⟨by decide, by decide, by decide, le_rfl, trivial⟩

theorem Engine.Sound.start {e : Engine} (h : e.Sound) (b : Bool) : (e.start b).Sound where
  latched_iff := rfl
  captured _ hp := (Option.some.inj hp).symm
  quiet _ := ⟨rfl, rfl, rfl, rfl⟩
  err_error := nofun
  error_known := .inl rfl
  writer := h.writer
  reader := h.reader
  decoder := h.decoder

/-- An idle engine may take any registers and IRQ_EN, and a STATUS in which no ERR rose: what the host writes to it
(10_state.md R53 to R61). -/
theorem Engine.Sound.idle_write {e : Engine} (h : e.Sound) (hb : e.status.busy = false) {u : Status}
    (hu : u.busy = false) (herr : u.err = true → e.status.err = true) (q : Bool) (r : Params) :
    { e with status := u, irqEn := q, regs := r }.Sound :=
  .of_idle (h.latched_eq_none hb) hu (fun hue => h.err_error (herr hue)) h.error_known h.writer h.reader h.decoder

/-! ### The ends of a command -/

theorem recover_sound {s : State} (h : Sound s) (b : Bool) : Sound (recover b s) :=
  { h with engine := { h.engine with } }

theorem succeed_sound {s : State} (h : Sound s) : Sound (succeed s) :=
  { h with
    engine := .of_idle rfl rfl nofun h.engine.error_known h.engine.writer h.engine.reader h.engine.decoder }

theorem raise_sound {s : State} (h : Sound s) (e : ErrorCode) {x : Extent}
    (hx : x.base + x.len ≤ Config.addrSpace) : Sound (raise e x s) := by
  refine (sound_iff _).2 ⟨?_, .of_idle rfl rfl (fun _ => value_ne_zero e) (.inr ⟨e, rfl⟩) h.engine.writer
    h.engine.reader h.engine.decoder, h.peers⟩
  rw [raise_mem, raise_draws]
  split
  · exact h.mem.scramble (by omega) fun _ => hx
  · exact h.mem.mono (by omega)

theorem raiseRle_sound {s : State} (h : Sound s) (e : ErrorCode) {x : Extent}
    (hx : x.base + x.len ≤ Config.addrSpace) : Sound (raiseRle e x s) :=
  have ht := raise_sound h e hx
  { ht with engine := { ht.engine with decoder := { ht.engine.decoder with } } }

/-! ### What a command does to a sound state -/

theorem flushed_settled_le_cap {x : BitWriter} (h : x.Sound) : x.flushed.settled ≤ x.cap := by
  have := h.bitpos_le
  rw [flushed_settled]
  omega

/-- Each way a command that succeeds changes memory keeps it sound (20_memory.md R107, R108). -/
theorem MemChange.sound {i : Instr} {s : State} {bw' : BitWriter} {m : Memory} {d : Nat} (h : Sound s)
    (hm : MemChange i s bw' m d) : m.Sound d := by
  cases hm with
  | same => exact h.mem
  | out x out hx hs hl =>
    have hw : (s.mem.writeBytes x.base out).Sound s.draws := h.mem.writeBytes (by rw [Config.addrSpace]; omega)
    exact hw.scramble (Nat.lt_succ_self _) fun _ => hs
  | unsettle x hx hs hsub =>
    exact h.mem.scramble (Nat.lt_succ_self _) fun _ => (hsub h.engine.writer).2.trans (hs h.engine.writer)
  | flush hi =>
    have hcap := flushed_settled_le_cap h.engine.writer
    have hspace := h.engine.writer.inSpace
    have hsettled := h.engine.writer.settled_le
    have hbits := h.engine.writer.bitpos_le
    refine h.mem.writeBytes ?_
    rw [BitWriter.flushBytes, length_bytesOfBits]
    omega

/-- A session a command moved soundly, or left alone, is sound. -/
theorem sound_of_moved_or_kept {α : Type} {P : α → Prop} {c : Prop} {x x' : α} (hx : P x)
    (h : (c ∧ (P x → P x')) ∨ x' = x) : P x' := by
  rcases h with ⟨-, hmove⟩ | rfl
  · exact hmove hx
  · exact hx

/-- Every end of a command keeps the invariant (60_exceptions.md R602, R610). -/
theorem Effect.sound {i : Instr} {s t : State} (h : Sound s) (he : Effect i s t) : Sound t := by
  cases he with
  | checks e _ => exact raise_sound h e (by decide)
  | error e x b ms hx hs _ _ => exact raise_sound (recover_sound (s := { s with members := ms }) { h with } b) e hs
  | rle e x b hx _ _ =>
    refine raiseRle_sound (recover_sound h b) e ?_
    rcases hx with ⟨-, hs⟩ | ⟨-, rfl⟩
    · exact hs
    · decide
  | done b r bw' br' rle' ms m d hm hbw hbr hrle =>
    have hmem := hm.sound h
    exact (sound_iff _).2 ⟨hmem, .of_idle rfl rfl nofun h.engine.error_known
      (sound_of_moved_or_kept h.engine.writer hbw) (sound_of_moved_or_kept h.engine.reader hbr)
      (sound_of_moved_or_kept h.engine.decoder hrle), h.peers⟩

theorem engineTurn_sound {s t : State} (h : Sound s) (ht : engineTurn s = .next t) : Sound t := by
  unfold engineTurn at ht
  split at ht
  · split at ht
    · exact (exec_effect ht).sound h
    · cases ht
      exact raise_sound h _ (by decide)
  · cases ht
    exact h

/-! ### What a host action can do -/

theorem selectEngine_next {k : Nat} {s t : State} (h : selectEngine k s = .next t) :
    ∃ e ∈ s.peers, t = { s with engine := e, peers := s.peers.set k s.engine } := by
  unfold selectEngine at h
  split at h
  · cases h
  · next e he =>
    cases h
    exact ⟨e, List.mem_of_getElem? he, rfl⟩

theorem startChecked_next {b : Bool} {s t : State} (h : startChecked b s = .next t) : t = s.start b := by
  simp only [startChecked] at h
  split at h
  · cases h
  · cases h
    rfl

theorem hostStore_next {addr : Nat} {bytes : List Byte} {s t : State} (h : hostStore addr bytes s = .next t) :
    addr + bytes.length ≤ Config.addrSpace ∧ t = { s with mem := s.mem.writeBytes addr bytes } := by
  simp only [hostStore] at h
  split at h
  · cases h
  · next hspace =>
    split at h
    · cases h
    · cases h
      exact ⟨(inSpace_iff _).1 (by simpa using hspace), rfl⟩

theorem hostLoad_next {addr : Nat} {s t : State} (h : hostLoad addr s = .next t) :
    t = { s with hostData := some ((s.mem.read addr).zeroExtend 32) } := by
  simp only [hostLoad] at h
  split at h
  · cases h
  · split at h
    · cases h
    · cases h
      rfl

/-- A read of a register changes what the host holds, and the draws. -/
theorem readReg_eq (r : Reg) (s : State) :
    ∃ v d, s.draws ≤ d ∧ readReg r s = { s with hostData := some v, draws := d } := by
  unfold readReg
  split
  · exact ⟨_, _, Nat.le_succ _, rfl⟩
  · exact ⟨_, _, le_rfl, rfl⟩

theorem writeReg_busy (r : Reg) (v : Word) {s : State} (hb : s.engine.status.busy = true) :
    writeReg r v s = .next { s with engine := { s.engine with
      status := { s.engine.status with ignored := true } } } := if_pos hb

theorem writeReg_ctrl (v : Word) {s : State} (hb : s.engine.status.busy = false) :
    writeReg .ctrl v s = if v.getLsbD 0 then startChecked (v.getLsbD 1) s
      else .next { s with engine := { s.engine with irqEn := v.getLsbD 1 } } :=
  if_neg (by rw [hb]; decide)

/-- A write to any register but CTRL while idle (10_state.md R52 to R69). -/
theorem writeReg_idle {r : Reg} (hr : r ≠ .ctrl) (v : Word) {s : State} (hb : s.engine.status.busy = false) :
    writeReg r v s = .next { s with engine := { s.engine with
      status := if r = .status then s.engine.status.writeOneToClear v else s.engine.status
      regs := s.engine.regs.set r v } } := by
  refine (if_neg (by rw [hb]; decide)).trans ?_
  cases r with
  | ctrl => contradiction
  | _ => rfl

/-! ### A host action on a sound state -/

theorem selectEngine_sound {k : Nat} {s t : State} (h : Sound s) (ht : selectEngine k s = .next t) : Sound t := by
  obtain ⟨e, he, rfl⟩ := selectEngine_next ht
  refine { h with engine := h.peers e he, peers := fun f hf => ?_ }
  rcases List.mem_or_eq_of_mem_set hf with hf | rfl
  · exact h.peers f hf
  · exact h.engine

theorem writeReg_sound {r : Reg} {v : Word} {s t : State} (h : Sound s) (ht : writeReg r v s = .next t) : Sound t := by
  cases hb : s.engine.status.busy with
  | true =>
    rw [writeReg_busy r v hb] at ht
    cases ht
    exact { h with engine := { h.engine with } }
  | false =>
    by_cases hr : r = .ctrl
    · rw [hr, writeReg_ctrl v hb] at ht
      split at ht
      · obtain rfl := startChecked_next ht
        exact { h with engine := h.engine.start _ }
      · cases ht
        exact { h with engine := h.engine.idle_write hb hb id _ _ }
    · rw [writeReg_idle hr v hb] at ht
      cases ht
      refine { h with engine := h.engine.idle_write hb ?_ (fun herr => ?_) _ _ }
      · split
        · exact hb
        · exact hb
      · split at herr
        · exact (Bool.and_eq_true_iff.1 herr).1
        · exact herr

theorem readReg_sound (r : Reg) {s : State} (h : Sound s) : Sound (readReg r s) := by
  obtain ⟨v, d, hd, heq⟩ := readReg_eq r s
  rw [heq]
  exact (sound_iff _).2 ⟨h.mem.mono hd, h.engine, h.peers⟩

theorem clip_end_le {x : Extent} (h : x.clip.base < x.clip.base + x.clip.len) :
    x.clip.base + x.clip.len ≤ Config.addrSpace := by
  simp only [Extent.clip] at h ⊢
  omega

theorem applyReset_sound {s : State} (h : Sound s) : Sound (applyReset s) := by
  unfold applyReset
  split
  · exact { h with engine := Engine.reset_sound }
  · exact (sound_iff _).2 ⟨h.mem.scramble (Nat.lt_succ_self _) clip_end_le, Engine.reset_sound, h.peers⟩

theorem hostAction_sound {ev : Event} {s t : State} (h : Sound s) (ht : hostAction ev s = .next t) : Sound t := by
  cases ev with
  | engineTurn => cases ht; exact h
  | select k => exact selectEngine_sound h ht
  | regWrite addr width v =>
    simp only [hostAction] at ht
    split at ht
    · cases ht
    · exact writeReg_sound h ht
  | regRead addr width =>
    simp only [hostAction] at ht
    split at ht
    · cases ht
    · cases ht
      exact readReg_sound _ h
  | memStore addr bytes =>
    obtain ⟨hspace, rfl⟩ := hostStore_next ht
    exact (sound_iff _).2 ⟨h.mem.writeBytes hspace, h.engine, h.peers⟩
  | memLoad addr =>
    obtain rfl := hostLoad_next ht
    exact { h with }
  | resetPin => cases ht; exact applyReset_sound h

/-! ### Steps -/

/-- A step is the engine's turn, a host action, or the turn to an engine that runs a command (log entries 2, 5). -/
theorem step_cases {s t : State} (h : step s = .next t) :
    (∃ rest, engineTurn { s with inbox := rest } = .next t) ∨ (∃ k, selectEngine k s = .next t) ∨
      ∃ ev rest, hostAction ev { s with inbox := rest } = .next t := by
  unfold step at h
  split at h
  · next hin =>
    split at h
    · exact .inl ⟨s.inbox, h⟩
    · exact .inr (.inl ⟨_, h⟩)
  · exact .inl ⟨_, h⟩
  · exact .inr (.inr ⟨_, _, h⟩)

/-- Settles O11: whatever gives the step, its state differs from a sound one only in the inbox, and each of the three
kinds of step keeps the invariant. -/
theorem stepKeepsSound : Obligations.StepKeepsSound := by
  intro s t h ht
  rcases step_cases ht with ⟨rest, ht⟩ | ⟨k, ht⟩ | ⟨ev, rest, ht⟩
  · exact engineTurn_sound (s := { s with inbox := rest }) { h with } ht
  · exact selectEngine_sound h ht
  · exact hostAction_sound (s := { s with inbox := rest }) { h with } ht

/-! ### Commands and the sessions they do not use -/

/-- The machine with each session of the addressed engine replaced by its image. With `id` for the sessions a command
uses, this says of the command that it neither reads nor changes the others (10_state.md R73). -/
def State.mapSessions (fw : BitWriter → BitWriter) (fr : BitReader → BitReader) (fl : RleSession → RleSession)
    (s : State) : State :=
  { s with engine := { s.engine with bw := fw s.engine.bw, br := fr s.engine.br, rle := fl s.engine.rle } }

section
variable {fw : BitWriter → BitWriter} {fr : BitReader → BitReader} {fl : RleSession → RleSession}

@[simp] theorem bytesOf_mapSessions (s : State) (x : Extent) : (s.mapSessions fw fr fl).bytesOf x = s.bytesOf x := rfl

@[simp] theorem operands_mapSessions (s : State) : (s.mapSessions fw fr fl).operands = s.operands := rfl
@[simp] theorem mem_mapSessions (s : State) : (s.mapSessions fw fr fl).mem = s.mem := rfl
@[simp] theorem results_mapSessions (s : State) : (s.mapSessions fw fr fl).engine.results = s.engine.results := rfl
@[simp] theorem rle_mapSessions (s : State) : (s.mapSessions fw fr id).engine.rle = s.engine.rle := rfl

theorem deliver_mapSessions (x : Extent) (out : List Byte) (r : Results) (s : State) :
    deliver x out r (s.mapSessions fw fr fl) = (deliver x out r s).mapSessions fw fr fl := by
  unfold deliver
  split <;> rfl

/-- A command whose checks ask the same with other sessions in place goes along with them where its execute phase
does. -/
theorem runCommand_mapSessions {d : Demand} {s t : State} {body : State → State} (h : runCommand d s body = .next t)
    (hbody : body (s.mapSessions fw fr fl) = (body s).mapSessions fw fr fl) :
    runCommand d (s.mapSessions fw fr fl) body = .next (t.mapSessions fw fr fl) := by
  rcases runCommand_cases h with ⟨e, hc, rfl⟩ | ⟨hc, rfl⟩
  · exact runCommand_of_error hc
  · rw [runCommand_of_checks (s := s.mapSessions fw fr fl) hc, hbody]

theorem putBits_mapSessions {field : Option ErrorCode} {n v : Nat} {s t : State}
    (h : putBits field n v s = .next t) :
    putBits field n v (s.mapSessions id fr fl) = .next (t.mapSessions id fr fl) := by
  dsimp only [putBits] at h
  exact runCommand_mapSessions h rfl

theorem readBitsBody_mapSessions (n : Nat) (s : State) :
    readBitsBody n (s.mapSessions fw id fl) = (readBitsBody n s).mapSessions fw id fl := rfl

theorem withRleValues_mapSessions (max : Nat) (dst : Extent) (s : State) {k : List Nat → State → State}
    (hk : ∀ vs u, k vs (u.mapSessions fw fr id) = (k vs u).mapSessions fw fr id) :
    withRleValues max dst (s.mapSessions fw fr id) k = (withRleValues max dst s k).mapSessions fw fr id := by
  rcases hn : nextValues s.engine.rle.w (s.bytesOf s.engine.rle.extent) max s.engine.rle.cursor with ⟨e | vs, c⟩
  all_goals simp only [withRleValues, rle_mapSessions, bytesOf_mapSessions, hn]
  · rfl
  · refine Eq.trans ?_ (hk vs _)
    rfl

theorem compressRun_mapSessions {field : Option ErrorCode} {draws : Bool} {out : List Byte → List Byte} {s t : State}
    (h : compressRun field draws out s = .next t) :
    compressRun field draws out (s.mapSessions fw fr fl) = .next (t.mapSessions fw fr fl) := by
  dsimp only [compressRun] at h
  refine runCommand_mapSessions h (Eq.trans ?_ (deliver_mapSessions _ _ _ _))
  rfl

theorem decompressRun_mapSessions {decoder : List Byte → Nat → Except ErrorCode (List Byte × Nat)} {s t : State}
    (h : decompressRun decoder s = .next t) :
    decompressRun decoder (s.mapSessions fw fr fl) = .next (t.mapSessions fw fr fl) := by
  dsimp only [decompressRun] at h
  refine runCommand_mapSessions h ?_
  simp only [bytesOf_mapSessions]
  rcases decoder (s.bytesOf s.operands.src) s.operands.dstCap.toNat with e | ⟨out, used⟩
  · rfl
  · exact deliver_mapSessions _ _ _ _

theorem deltaDec_mapSessions {W E : Nat} {s t : State} (h : deltaDec W E s = .next t) :
    deltaDec W E (s.mapSessions fw fr fl) = .next (t.mapSessions fw fr fl) := by
  dsimp only [deltaDec] at h
  refine runCommand_mapSessions h ?_
  simp only [bytesOf_mapSessions]
  rcases deltaHeader W (s.bytesOf s.operands.src) with e | hd
  · rfl
  · dsimp only
    split
    · rfl
    · rcases deltaValues W hd (s.bytesOf s.operands.src) (min s.operands.count.toNat hd.total) with e | ⟨vs, used⟩
      · rfl
      · exact deliver_mapSessions _ _ _ _

theorem boundRun_mapSessions {bound : Nat → Nat} {s t : State} (h : boundRun bound s = .next t) :
    boundRun bound (s.mapSessions fw fr fl) = .next (t.mapSessions fw fr fl) := by
  dsimp only [boundRun] at h
  exact runCommand_mapSessions h rfl

/-- The commands of the RLE decoder's session (41_rle.md R280 to R286). -/
def IsRleSession (i : Instr) : Prop := UsesRleSession i ∨ ∃ w, i = .rleDecInit w

/-- 10_state.md R73 for all three sessions at once: `exec` goes along with any replacement of the sessions that are not
the command's own. -/
theorem exec_mapSessions {i : Instr} {s t : State} (hw : IsWriter i → fw = id) (hr : IsReader i → fr = id)
    (hl : IsRleSession i → fl = id) (h : exec i s = .next t) :
    exec i (s.mapSessions fw fr fl) = .next (t.mapSessions fw fr fl) := by
  cases i with
  | pack8 w | unpack8 w | packBulk w | unpackBulk w | rleEnc w | deltaEncI32 | deltaEncI64 | bssEnc w | bssDec w =>
    simp only [exec, execPack8, execUnpack8, execPackBulk, execUnpackBulk, execRleEnc, execDeltaEncI32,
      execDeltaEncI64, deltaEnc, execBssEnc, execBssDec, bssRun, operands_mapSessions] at h ⊢
    refine runCommand_mapSessions h ?_
    simp only [packValues, unpackValues, sourceElems, deliver_mapSessions, operands_mapSessions, mem_mapSessions,
      results_mapSessions]
  | bwInit =>
    obtain rfl := hw (.inl rfl)
    dsimp only [exec, execBwInit] at h
    exact runCommand_mapSessions h rfl
  | bwPutBit =>
    obtain rfl := hw (.inr (.inl rfl))
    exact putBits_mapSessions h
  | bwPut n =>
    obtain rfl := hw (.inr (.inr (.inl ⟨n, rfl⟩)))
    exact putBits_mapSessions h
  | bwPut64 n =>
    obtain rfl := hw (.inr (.inr (.inr (.inl ⟨n, rfl⟩))))
    exact putBits_mapSessions h
  | bwFlush =>
    obtain rfl := hw (.inr (.inr (.inr (.inr rfl))))
    dsimp only [exec, execBwFlush] at h
    exact runCommand_mapSessions h rfl
  | brInit =>
    obtain rfl := hr (.inl rfl)
    dsimp only [exec, execBrInit] at h
    exact runCommand_mapSessions h rfl
  | brGetBit =>
    obtain rfl := hr (.inr (.inl rfl))
    exact runCommand_mapSessions h (readBitsBody_mapSessions _ _)
  | brGet n =>
    obtain rfl := hr (.inr (.inr (.inl ⟨n, rfl⟩)))
    exact runCommand_mapSessions h (readBitsBody_mapSessions _ _)
  | brGet64 n =>
    obtain rfl := hr (.inr (.inr (.inr ⟨n, rfl⟩)))
    exact runCommand_mapSessions h (readBitsBody_mapSessions _ _)
  | rleDecInit w =>
    obtain rfl := hl (.inr ⟨w, rfl⟩)
    dsimp only [exec, execRleDecInit] at h
    exact runCommand_mapSessions h rfl
  | rleDecGet =>
    obtain rfl := hl (.inl (.inl rfl))
    dsimp only [exec, execRleDecGet] at h
    exact runCommand_mapSessions h (withRleValues_mapSessions _ _ _ fun _ _ => rfl)
  | rleDecBatch =>
    obtain rfl := hl (.inl (.inr (.inl rfl)))
    dsimp only [exec, execRleDecBatch] at h
    exact runCommand_mapSessions h (withRleValues_mapSessions _ _ _ fun _ _ => deliver_mapSessions _ _ _ _)
  | rleDecSkip =>
    obtain rfl := hl (.inl (.inr (.inr rfl)))
    dsimp only [exec, execRleDecSkip] at h
    exact runCommand_mapSessions h (withRleValues_mapSessions _ _ _ fun _ _ => rfl)
  | rleDecLevels16 w =>
    dsimp only [exec, execRleDecLevels16] at h
    refine runCommand_mapSessions h ?_
    simp only [bytesOf_mapSessions]
    rcases nextValues w.toNat (s.bytesOf s.operands.src) s.operands.count.toNat ⟨0, .none, false⟩ with ⟨e | vs, c⟩
    · rfl
    · exact deliver_mapSessions _ _ _ (recover c.recovered s)
  | deltaDecI32 | deltaDecI64 => exact deltaDec_mapSessions h
  | deflateCompress l | lz4Compress l | snappyCompress l =>
    dsimp only [exec, execDeflateCompress, execLz4Compress, execSnappyCompress] at h
    exact compressRun_mapSessions h
  | deflateDecompress | lz4Decompress | snappyDecompress => exact decompressRun_mapSessions h
  | deflateBound | lz4Bound | snappyBound => exact boundRun_mapSessions h

end

/-- Settles O29: `exec_mapSessions` with one session replaced by `x` and the other two by themselves. -/
theorem sessionsIndependent : Obligations.SessionsIndependent := by
  refine ⟨fun i s t x hinit hbit hput hput64 hflush => ?_, fun i s t x hinit hbit hget hget64 => ?_,
    fun i s t x hinit hget hbatch hskip => ?_⟩
  · refine exec_mapSessions (fw := fun _ => x) (fr := id) (fl := id) (fun hi => ?_) (fun _ => rfl) fun _ => rfl
    rcases hi with hi | hi | ⟨n, hi⟩ | ⟨n, hi⟩ | hi
    exacts [absurd hi hinit, absurd hi hbit, absurd hi (hput n), absurd hi (hput64 n), absurd hi hflush]
  · refine exec_mapSessions (fw := id) (fr := fun _ => x) (fl := id) (fun _ => rfl) (fun hi => ?_) fun _ => rfl
    rcases hi with hi | hi | ⟨n, hi⟩ | ⟨n, hi⟩
    exacts [absurd hi hinit, absurd hi hbit, absurd hi (hget n), absurd hi (hget64 n)]
  · refine exec_mapSessions (fw := id) (fr := id) (fl := fun _ => x) (fun _ => rfl) (fun _ => rfl) fun hi => ?_
    rcases hi with (hi | hi | hi) | ⟨w, hi⟩
    exacts [absurd hi hget, absurd hi hbatch, absurd hi hskip, absurd hi (hinit w)]

/-! ### The state after reset -/

/-- Settles O9: the registers and sessions by the definition of reset; every address lies in the one hole, of draw 0. -/
theorem resetValues : Obligations.ResetValues := by
  refine ⟨rfl, rfl, rfl, rfl, rfl, rfl, rfl, rfl, rfl, rfl, rfl, fun a ha => ⟨0, ?_⟩⟩
  have hhole : holeAt a State.reset.mem.holes = some ⟨0, Config.addrSpace, 0⟩ := if_pos ⟨Nat.zero_le a, ha⟩
  rw [Memory.read, hhole]

/-- Settles O10: memory is one hole over the address space, of a draw already made, and the engine is the reset one. -/
theorem resetIsSound : Obligations.ResetIsSound := by
  refine (sound_iff _).2 ⟨⟨reset_mem_wf, ⟨nofun, fun g hg => ?_⟩, fun g hg => ?_⟩, Engine.reset_sound,
    List.forall_mem_nil _⟩
  · obtain rfl := List.mem_singleton.1 hg
    exact le_rfl
  · obtain rfl := List.mem_singleton.1 hg
    exact Nat.zero_lt_one

/-! ### Which register an access reaches -/

/-- The accesses inside the model: aligned, 32 bits wide, at an offset of the block (10_state.md R51). -/
theorem regOf_block (p : Platform) {off : Nat} (halign : off % 4 = 0) (hle : off ≤ 0xFC) :
    regOf p (p.engineBase + off) 4 = some (regAt off) := by
  have hoff : p.engineBase + off - p.engineBase = off := Nat.add_sub_cancel_left _ _
  rw [regOf, hoff]
  refine if_pos ⟨rfl, ?_, ?_, halign⟩
  · exact Nat.le_add_right _ _
  · rw [Config.blockSize]; omega

theorem regOf_eq_none {p : Platform} {addr width : Nat}
    (h : ¬(width = 4 ∧ ∃ off, off % 4 = 0 ∧ off ≤ 0xFC ∧ addr = p.engineBase + off)) : regOf p addr width = none := by
  refine if_neg fun ⟨hw, hbase, hblock, halign⟩ => h ⟨hw, addr - p.engineBase, halign, ?_, ?_⟩
  · rw [Config.blockSize] at hblock; omega
  · omega

theorem regAt_eq_ctrl_iff (off : Nat) : regAt off = .ctrl ↔ off = 0x04 := by
  unfold regAt
  split <;> simp_all

theorem regAt_eq_status_iff (off : Nat) : regAt off = .status ↔ off = 0x08 := by
  unfold regAt
  split <;> simp_all

/-- Which register of the engine a write to CMD or a parameter register changes (10_state.md R50, R55 to R61). -/
theorem set_regAt (p : Params) (off : Nat) (v : Word) :
    p.set (regAt off) v =
      if off = 0x0C then { p with cmd := v }
      else if off = 0x10 then { p with srcAddr := v }
      else if off = 0x14 then { p with srcLen := v }
      else if off = 0x18 then { p with dstAddr := v }
      else if off = 0x1C then { p with dstCap := v }
      else if off = 0x20 then { p with count := v }
      else if off = 0x24 then { p with value := v }
      else if off = 0x28 then { p with valueHi := v }
      else p := by
  unfold regAt
  split
  case h_21 => simp_all [Params.set]
  all_goals rfl

/-- What is read at each offset of the block (10_state.md R50 to R69). -/
theorem regValue_regAt (e : Engine) (off : Nat) :
    e.regValue (regAt off) =
      if off = 0x00 then Config.idValue
      else if off = 0x04 then (if e.irqEn then 2 else 0)
      else if off = 0x08 then e.status.word
      else if off = 0x0C then e.regs.cmd
      else if off = 0x10 then e.regs.srcAddr
      else if off = 0x14 then e.regs.srcLen
      else if off = 0x18 then e.regs.dstAddr
      else if off = 0x1C then e.regs.dstCap
      else if off = 0x20 then e.regs.count
      else if off = 0x24 then e.regs.value
      else if off = 0x28 then e.regs.valueHi
      else if off = 0x2C then e.results.len
      else if off = 0x30 then e.results.count
      else if off = 0x34 then e.results.val
      else if off = 0x38 then e.results.valHi
      else if off = 0x3C then e.results.used
      else if off = 0x40 then e.error
      else if off = 0x44 then e.bwBitpos
      else if off = 0x48 then e.brBitpos
      else if off = 0x4C then e.sessionWord
      else 0 := by
  unfold regAt
  split
  case h_21 => simp_all [Engine.regValue]
  all_goals rfl

/-! ### The step of a register access -/

theorem step_regWrite {s : State} {rest : List Event} {addr width : Nat} {v : Word} {r : Reg}
    (hin : s.inbox = .regWrite addr width v :: rest) (hr : regOf s.platform addr width = some r) :
    step s = writeReg r v { s with inbox := rest } := by
  simp only [step, hin, hostAction, hr]

theorem step_regRead {s : State} {rest : List Event} {addr width : Nat} {r : Reg}
    (hin : s.inbox = .regRead addr width :: rest) (hr : regOf s.platform addr width = some r) :
    step s = .next (readReg r { s with inbox := rest }) := by
  simp only [step, hin, hostAction, hr]

theorem step_regWrite_refused {s : State} {rest : List Event} {addr width : Nat} {v : Word}
    (hin : s.inbox = .regWrite addr width v :: rest) (hr : regOf s.platform addr width = none) :
    step s = .refused (.registerAccess addr width) := by
  simp only [step, hin, hostAction, hr]

theorem step_regRead_refused {s : State} {rest : List Event} {addr width : Nat}
    (hin : s.inbox = .regRead addr width :: rest) (hr : regOf s.platform addr width = none) :
    step s = .refused (.registerAccess addr width) := by
  simp only [step, hin, hostAction, hr]

/-- Settles O18: such an access reaches no register (`regOf_eq_none`). -/
theorem otherAccessesRefused : Obligations.OtherAccessesRefused := fun _ _ _ _ _ h =>
  ⟨fun hin => step_regWrite_refused hin (regOf_eq_none h), fun hin => step_regRead_refused hin (regOf_eq_none h)⟩

/-! ### Reads -/

/-- A read that gives the register: while idle, and of a register that BUSY leaves readable (10_state.md R51,
70_reset_and_hazards.md R711). -/
theorem readReg_value {r : Reg} {s : State} (h : s.engine.status.busy = false ∨ r.openWhileBusy = false) :
    readReg r s = { s with hostData := some (s.engine.regValue r) } :=
  if_neg (by rcases h with h | h <;> simp [h])

theorem status_word_of_idle {t : Status} (h : t.busy = false) :
    t.word = BitVec.ofNat 32 (2 * t.done.toNat + 4 * t.err.toNat + 8 * t.recovered.toNat + 16 * t.ignored.toNat) := by
  have hsum : wordOfFlags [t.busy, t.done, t.err, t.recovered, t.ignored] =
      2 * t.done.toNat + 4 * t.err.toNat + 8 * t.recovered.toNat + 16 * t.ignored.toNat := by
    simp only [wordOfFlags, h, Bool.toNat_false]
    ring
  rw [Status.word, hsum]

theorem sessionWord_eq (e : Engine) :
    e.sessionWord = BitVec.ofNat 32 (e.bw.active.toNat + 2 * e.br.active.toNat + 4 * e.rle.active.toNat) := by
  have hsum : wordOfFlags [e.bw.active, e.br.active, e.rle.active] =
      e.bw.active.toNat + 2 * e.br.active.toNat + 4 * e.rle.active.toNat := by
    simp only [wordOfFlags]
    ring
  rw [Engine.sessionWord, hsum]

/-- Settles O16: the access reaches the register at the offset, and an idle engine's read gives its value. -/
theorem registerReads : Obligations.RegisterReads := by
  intro s rest off halign hle hin hb
  dsimp only
  rw [step_regRead hin (regOf_block s.platform halign hle), readReg_value (s := { s with inbox := rest }) (.inl hb),
    regValue_regAt, status_word_of_idle hb, sessionWord_eq]
  rfl

/-! ### Writes -/

theorem writeOneToClear_of_idle {t : Status} (h : t.busy = false) (v : Word) :
    t.writeOneToClear v = ⟨false, t.done && !v.getLsbD 1, t.err && !v.getLsbD 2, t.recovered && !v.getLsbD 3,
      t.ignored && !v.getLsbD 4⟩ := by
  rw [Status.writeOneToClear, h]

/-- Settles O15: the access reaches a register other than CTRL, and `writeReg_idle` says what the write does. -/
theorem registerWrites : Obligations.RegisterWrites := by
  intro s rest off v halign hle hctrl hin hb
  have hr : regAt off ≠ .ctrl := fun h => hctrl ((regAt_eq_ctrl_iff off).1 h)
  dsimp only
  rw [step_regWrite hin (regOf_block s.platform halign hle), writeReg_idle hr v (s := { s with inbox := rest }) hb]
  simp only [regAt_eq_status_iff, set_regAt, writeOneToClear_of_idle hb]

/-! ### CTRL -/

theorem any_any_overlaps_eq_false {x y : Option Extent}
    (h : ∀ a b, x = some a → y = some b → Apart a b) : (x.any fun a => y.any fun b => a.overlaps b) = false := by
  cases x with
  | none => rfl
  | some a =>
    cases y with
    | none => rfl
    | some b => exact (overlaps_eq_false_iff a b).2 (h a b rfl rfl)

/-- Two engines whose commands write nothing the other reads or writes do not conflict (70_reset_and_hazards.md R712
row 7). -/
theorem conflicts_eq_false {e f : Engine}
    (hdst : ∀ x y, e.busyDst = some x → f.busySrc = some y ∨ f.busyDst = some y → Apart x y)
    (hsrc : ∀ x y, e.busySrc = some x → f.busyDst = some y → Apart x y) : conflicts e f = false := by
  have hread := any_any_overlaps_eq_false fun x y hx hy => hdst x y hx (.inl hy)
  have hwrite := any_any_overlaps_eq_false fun x y hx hy => hdst x y hx (.inr hy)
  have hwritten := any_any_overlaps_eq_false hsrc
  simp only [conflicts, hread, hwrite, hwritten, Bool.or_self]

theorem startChecked_of_no_conflict {b : Bool} {s : State}
    (h : ∀ e ∈ s.peers, conflicts (s.engine.start b) e = false) : startChecked b s = .next (s.start b) := by
  have hnone : s.peers.any (conflicts (s.start b).engine) = false := List.any_eq_false.2 fun e he => by
    rw [State.start, h e he]; decide
  simp only [startChecked, hnone]
  rfl

/-- Settles O13: the register at offset 4 is CTRL; a write stores IRQ_EN and starts the command where bit 0 is 1, and
extents that are apart leave no conflict to refuse. -/
theorem ctrlRegister : Obligations.CtrlRegister := by
  have hreg (p : Platform) : regOf p (p.engineBase + 0x04) 4 = some .ctrl := regOf_block p (by decide) (by decide)
  refine ⟨fun s rest v hin hb => ?_, rfl, fun s rest hin => ?_⟩
  · dsimp only
    rw [step_regWrite hin (hreg _), writeReg_ctrl v (s := { s with inbox := rest }) hb]
    refine ⟨fun hidle => ?_, fun hstart hdst hsrc => ?_⟩
    · rw [hidle]
      rfl
    · rw [if_pos hstart]
      exact startChecked_of_no_conflict (s := { s with inbox := rest }) fun e he =>
        conflicts_eq_false (hdst e he) (hsrc e he)
  · rw [step_regRead hin (hreg _), readReg_value (s := { s with inbox := rest }) (.inr rfl)]
    rfl

end Sys2Proof.Machine
end

section
/-! ## Buffer memory

What the host's loads and stores do and when the model refuses them, what bytes a command reads and writes, and the
varint and zig-zag formats: the statements of 20_memory.md. -/

namespace Sys2Proof.Machine

/-! ### The same machine over another memory -/

/-- The machine with other contents of buffer memory. -/
def State.withMem (s : State) (m : Memory) : State := { s with mem := m }

@[simp] theorem operands_withMem (s : State) (m : Memory) : (s.withMem m).operands = s.operands := rfl
@[simp] theorem engine_withMem (s : State) (m : Memory) : (s.withMem m).engine = s.engine := rfl
@[simp] theorem mem_withMem (s : State) (m : Memory) : (s.withMem m).mem = m := rfl

/-- Between memories `m` and `m'` before and `n` and `n'` after, every byte was changed alike in both or left alone in
both. -/
def ChangedAlike (m m' n n' : Memory) : Prop :=
  ∀ a, n'.read a = n.read a ∨ (n'.read a = m'.read a ∧ n.read a = m.read a)

section
variable {m m' n n' : Memory}

theorem ChangedAlike.refl (m m' : Memory) : ChangedAlike m m' m m' := fun _ => .inr ⟨rfl, rfl⟩

theorem ChangedAlike.writeBytes (h : ChangedAlike m m' n n') (b : Nat) (bs : List Byte) :
    ChangedAlike m m' (n.writeBytes b bs) (n'.writeBytes b bs) := fun a => by
  rw [read_writeBytes, read_writeBytes]
  split
  · exact .inl rfl
  · exact h a

theorem ChangedAlike.scramble (h : ChangedAlike m m' n n') (lo hi tag : Nat) :
    ChangedAlike m m' (n.scramble lo hi tag) (n'.scramble lo hi tag) := fun a => by
  rw [read_scramble, read_scramble]
  split
  · exact .inl rfl
  · exact h a

/-- The two machines differ in memory alone, and there only in bytes both left as they were in `m` and `m'`. -/
def Alike (m m' : Memory) (t t' : State) : Prop := ∃ n', t' = t.withMem n' ∧ ChangedAlike m m' t.mem n'

theorem Alike.before (s : State) (m' : Memory) : Alike s.mem m' s (s.withMem m') := ⟨m', rfl, .refl _ _⟩

theorem Alike.raise {t t' : State} (h : Alike m m' t t') (e : ErrorCode) (x : Extent) :
    Alike m m' (raise e x t) (raise e x t') := by
  obtain ⟨n', rfl, hn⟩ := h
  refine ⟨_, rfl, ?_⟩
  rw [raise_mem, mem_withMem]
  split
  · exact hn.scramble _ _ _
  · exact hn

theorem Alike.deliver {t t' : State} (h : Alike m m' t t') (x : Extent) (out : List Byte) (r : Results) :
    Alike m m' (deliver x out r t) (deliver x out r t') := by
  unfold Machine.deliver
  split
  · exact h.raise _ _
  · obtain ⟨n', rfl, hn⟩ := h
    exact ⟨_, rfl, (hn.writeBytes _ _).scramble _ _ _⟩

theorem Alike.recover {t t' : State} (h : Alike m m' t t') (b : Bool) : Alike m m' (recover b t) (recover b t') := by
  obtain ⟨n', rfl, hn⟩ := h
  exact ⟨n', rfl, hn⟩

theorem Alike.raiseRle {t t' : State} (h : Alike m m' t t') (e : ErrorCode) (x : Extent) :
    Alike m m' (raiseRle e x t) (raiseRle e x t') := by
  obtain ⟨n', hn', hn⟩ := h.raise e x
  exact ⟨n', by rw [Machine.raiseRle, hn']; rfl, hn⟩

end

/-! ### Commands over another memory -/

/-- The two memories have the same bytes in the extent. -/
def SameIn (x : Extent) (m m' : Memory) : Prop := ∀ a, x.contains a = true → m.read a = m'.read a

theorem SameIn.readBytes {x : Extent} {m m' : Memory} (h : SameIn x m m') {k : Nat} (hk : k ≤ x.len) :
    m.readBytes x.base k = m'.readBytes x.base k :=
  readBytes_congr fun a hlo hhi => h a ((contains_iff x a).2 ⟨hlo, by omega⟩)

theorem SameIn.bytesOf {x : Extent} {s : State} {m : Memory} (h : SameIn x m s.mem) :
    (s.withMem m).bytesOf x = s.bytesOf x := h.readBytes le_rfl

/-- A command that passes step 6 of the checks has the bytes it must read in its source (30_encoding.md R170). -/
theorem needSrc_le_of_checks {p : Platform} {q : Params} {f : Option ErrorCode} {sizes : List Nat} {need room : Nat}
    (h : checksPhase p (oneShot q f sizes need room) = none) : need ≤ q.src.len := by
  obtain ⟨-, -, -, -, -, hneed, -⟩ := (checksPhase_eq_none_iff _ _).1 h
  exact hneed

theorem session_of_checks {p : Platform} {d : Demand} (h : checksPhase p d = none) : d.session = true := by
  obtain ⟨-, hsession, -⟩ := (checksPhase_eq_none_iff _ _).1 h
  exact hsession

section
variable {s t : State} {m : Memory}

theorem runCommand_alike {d : Demand} {body : State → State} (h : runCommand d s body = .next t)
    (hbody : checksPhase s.platform d = none → Alike s.mem m (body s) (body (s.withMem m))) :
    ∃ t', runCommand d (s.withMem m) body = .next t' ∧ Alike s.mem m t t' := by
  rcases runCommand_cases h with ⟨e, hc, rfl⟩ | ⟨hc, rfl⟩
  · exact ⟨_, runCommand_of_error hc, (Alike.before s m).raise e _⟩
  · exact ⟨_, runCommand_of_checks hc, hbody hc⟩

theorem putBits_alike {field : Option ErrorCode} {n v : Nat} (h : putBits field n v s = .next t) :
    ∃ t', putBits field n v (s.withMem m) = .next t' ∧ Alike s.mem m t t' := by
  dsimp only [putBits] at h
  exact runCommand_alike h fun _ => ⟨_, rfl, (ChangedAlike.refl _ _).scramble _ _ _⟩

theorem readBitsBody_alike (hm : SameIn s.engine.br.extent m s.mem) (n : Nat) :
    Alike s.mem m (readBitsBody n s) (readBitsBody n (s.withMem m)) := by
  simp only [readBitsBody, engine_withMem, hm.bytesOf]
  exact ⟨_, rfl, .refl _ _⟩

theorem withRleValues_alike (hm : SameIn s.engine.rle.extent m s.mem) (max : Nat) (dst : Extent)
    {k : List Nat → State → State} (hk : ∀ vs u u', Alike s.mem m u u' → Alike s.mem m (k vs u) (k vs u')) :
    Alike s.mem m (withRleValues max dst s k) (withRleValues max dst (s.withMem m) k) := by
  simp only [withRleValues, engine_withMem, hm.bytesOf]
  rcases nextValues s.engine.rle.w (s.bytesOf s.engine.rle.extent) max s.engine.rle.cursor with ⟨e | vs, c⟩
  · exact ((Alike.before s m).recover _).raiseRle _ _
  · exact hk vs _ _ ⟨m, rfl, .refl _ _⟩

theorem compressRun_alike {field : Option ErrorCode} {draws : Bool} {out : List Byte → List Byte}
    (hm : SameIn s.operands.src m s.mem) (h : compressRun field draws out s = .next t) :
    ∃ t', compressRun field draws out (s.withMem m) = .next t' ∧ Alike s.mem m t t' := by
  dsimp only [compressRun] at h
  refine runCommand_alike h fun _ => ?_
  simp only [hm.bytesOf]
  exact Alike.deliver (t := { s with members := if draws then s.members.tail else s.members }) ⟨m, rfl, .refl _ _⟩ _ _ _

theorem decompressRun_alike {decoder : List Byte → Nat → Except ErrorCode (List Byte × Nat)}
    (hm : SameIn s.operands.src m s.mem) (h : decompressRun decoder s = .next t) :
    ∃ t', decompressRun decoder (s.withMem m) = .next t' ∧ Alike s.mem m t t' := by
  dsimp only [decompressRun] at h
  refine runCommand_alike h fun _ => ?_
  simp only [hm.bytesOf]
  rcases decoder (s.bytesOf s.operands.src) s.operands.dstCap.toNat with e | ⟨out, used⟩
  · exact (Alike.before s m).raise _ _
  · exact (Alike.before s m).deliver _ _ _

theorem deltaDec_alike {W E : Nat} (hm : SameIn s.operands.src m s.mem) (h : deltaDec W E s = .next t) :
    ∃ t', deltaDec W E (s.withMem m) = .next t' ∧ Alike s.mem m t t' := by
  dsimp only [deltaDec] at h
  refine runCommand_alike h fun _ => ?_
  simp only [hm.bytesOf]
  rcases deltaHeader W (s.bytesOf s.operands.src) with e | hd
  · exact (Alike.before s m).raise _ _
  · dsimp only
    split
    · exact (Alike.before s m).raise _ _
    · rcases deltaValues W hd (s.bytesOf s.operands.src) (min s.operands.count.toNat hd.total) with e | ⟨vs, used⟩
      · exact (Alike.before s m).raise _ _
      · exact (Alike.before s m).deliver _ _ _

theorem boundRun_alike {bound : Nat → Nat} (h : boundRun bound s = .next t) :
    ∃ t', boundRun bound (s.withMem m) = .next t' ∧ Alike s.mem m t t' := by
  dsimp only [boundRun] at h
  exact runCommand_alike h fun _ => ⟨m, rfl, .refl _ _⟩

/-- 20_memory.md R104 for every command: over a memory with the same bytes in its source extent it ends alike. -/
theorem exec_alike {i : Instr} (hm : ∀ x, srcExtent s.engine i = some x → SameIn x m s.mem) (h : exec i s = .next t) :
    ∃ t', exec i (s.withMem m) = .next t' ∧ Alike s.mem m t t' := by
  cases i with
  | pack8 w | unpack8 w | packBulk w | unpackBulk w | rleEnc w | deltaEncI32 | deltaEncI64 | bssEnc w | bssDec w =>
    simp only [exec, execPack8, execUnpack8, execPackBulk, execUnpackBulk, execRleEnc, execDeltaEncI32,
      execDeltaEncI64, deltaEnc, execBssEnc, execBssDec, bssRun, operands_withMem] at h ⊢
    refine runCommand_alike h fun hc => ?_
    have hsrc : SameIn s.operands.src m s.mem := hm _ rfl
    have hread := hsrc.readBytes (needSrc_le_of_checks hc)
    simp only [packValues, unpackValues, sourceElems, operands_withMem, mem_withMem, engine_withMem, hread]
    exact (Alike.before s m).deliver _ _ _
  | bwInit =>
    dsimp only [exec, execBwInit] at h
    exact runCommand_alike h fun _ => ⟨_, rfl, (ChangedAlike.refl _ _).scramble _ _ _⟩
  | bwPutBit | bwPut n | bwPut64 n => exact putBits_alike h
  | bwFlush =>
    dsimp only [exec, execBwFlush] at h
    exact runCommand_alike h fun _ => ⟨_, rfl, (ChangedAlike.refl _ _).writeBytes _ _⟩
  | brInit | rleDecInit w =>
    dsimp only [exec, execBrInit, execRleDecInit] at h
    exact runCommand_alike h fun _ => ⟨m, rfl, .refl _ _⟩
  | brGetBit | brGet n | brGet64 n =>
    exact runCommand_alike h fun hc => readBitsBody_alike (hm _ (if_pos (session_of_checks hc))) _
  | rleDecGet | rleDecSkip =>
    dsimp only [exec, execRleDecGet, execRleDecSkip] at h
    exact runCommand_alike h fun hc => withRleValues_alike (hm _ (if_pos (session_of_checks hc))) _ _
      fun _ _ _ ⟨n', hu, hn⟩ => ⟨n', hu ▸ rfl, hn⟩
  | rleDecBatch =>
    dsimp only [exec, execRleDecBatch] at h
    exact runCommand_alike h fun hc => withRleValues_alike (hm _ (if_pos (session_of_checks hc))) _ _
      fun vs u u' hu => by
        have hr : u'.engine = u.engine := by obtain ⟨n', rfl, -⟩ := hu; rfl
        rw [hr]
        exact hu.deliver _ _ _
  | rleDecLevels16 w =>
    dsimp only [exec, execRleDecLevels16] at h
    refine runCommand_alike h fun hc => ?_
    have hsrc : SameIn s.operands.src m s.mem := hm _ rfl
    simp only [hsrc.bytesOf]
    rcases nextValues w.toNat (s.bytesOf s.operands.src) s.operands.count.toNat ⟨0, .none, false⟩ with ⟨e | vs, c⟩
    · exact ((Alike.before s m).recover _).raise _ _
    · exact ((Alike.before s m).recover _).deliver _ _ _
  | deltaDecI32 | deltaDecI64 => exact deltaDec_alike (hm _ rfl) h
  | deflateCompress l | lz4Compress l | snappyCompress l =>
    dsimp only [exec, execDeflateCompress, execLz4Compress, execSnappyCompress] at h
    exact compressRun_alike (hm _ rfl) h
  | deflateDecompress | lz4Decompress | snappyDecompress => exact decompressRun_alike (hm _ rfl) h
  | deflateBound | lz4Bound | snappyBound => exact boundRun_alike h

end

/-- Settles O28: `exec_alike` over the other memory; machines that differ in memory alone have the same engine. -/
theorem readsOnlyTheSource : Obligations.ReadsOnlyTheSource := by
  intro i s t m hm h
  obtain ⟨_, ht', n', rfl, hbytes⟩ := exec_alike hm h
  exact ⟨_, ht', rfl, hbytes⟩

/-! ### What a command writes -/

/-- The address lies outside the command's destination extent, or the command has none (20_memory.md R107). -/
def OutsideDst (i : Instr) (s : State) (a : Nat) : Prop := ∀ x, dstExtent s.engine i = some x → x.contains a = false

/-- Of the ways a command that succeeds changes memory, none reaches an address outside its destination. -/
theorem MemChange.read_outside {i : Instr} {s : State} {bw' : BitWriter} {n : Memory} {d a : Nat}
    (hw : s.engine.bw.Sound) (ha : OutsideDst i s a) (hn : MemChange i s bw' n d) : n.read a = s.mem.read a := by
  cases hn with
  | same => rfl
  | out x out hx _ hl =>
    have hout := (contains_eq_false_iff x a).1 (ha x hx)
    rw [read_scramble_outside _ (by omega), read_writeBytes_outside _ _ (by omega)]
  | unsettle x hx _ hsub =>
    have hout := (contains_eq_false_iff x a).1 (ha x hx)
    have hin := hsub hw
    exact read_scramble_outside _ (by omega)
  | flush hi =>
    subst hi
    have hout := (contains_eq_false_iff s.engine.bw.extent a).1 (ha _ rfl)
    have hcap := flushed_settled_le_cap hw
    have hsettled := hw.settled_le
    have hbits := hw.bitpos_le
    refine read_writeBytes_outside _ _ ?_
    rw [BitWriter.flushBytes, length_bytesOfBits]
    simp only [BitWriter.extent] at hout
    omega

/-- 20_memory.md R107 for every way a command can end. -/
theorem Effect.read_outside {i : Instr} {s t : State} {a : Nat} (hw : s.engine.bw.Sound) (ha : OutsideDst i s a)
    (h : Effect i s t) : t.mem.read a = s.mem.read a := by
  cases h with
  | checks e _ => exact raise_nowhere_read e s a
  | error e x b ms hx _ _ _ => exact raise_read e x (recover b { s with members := ms }) (ha x hx)
  | rle e x b hx _ _ =>
    rcases hx with ⟨hx, -⟩ | ⟨-, rfl⟩
    · exact raise_read e x (recover b s) (ha x hx)
    · exact raise_nowhere_read e (recover b s) a
  | done b r bw' br' rle' ms n d hn _ _ _ => exact hn.read_outside hw ha

/-- Settles O27: each end of `exec_effect` leaves the bytes outside the destination alone. -/
theorem writesOnlyTheDestination : Obligations.WritesOnlyTheDestination := fun _ _ _ hw h _ ha =>
  (exec_effect h).read_outside hw ha

/-! ### An output that does not fit -/

/-- A command that passed its checks and delivers an output longer than its destination ends with CAPACITY /
DST_OVERFLOW, and changes no byte outside the destination (20_memory.md R107, R120). -/
theorem endsInOverflow_of_deliver {i : Instr} {s u : State} {x : Extent} {out : List Byte} {r : Results}
    (hi : exec i s = .next (deliver x out r u)) (hengine : u.engine = s.engine) (hothers : OthersKept s u)
    (hmem : u.mem = s.mem) (hlong : x.len < out.length) :
    ∃ t, EndsInError i s t .dstOverflow ∧ SameOutside s t x := by
  rw [deliver, if_pos hlong] at hi
  refine ⟨_, ⟨hi, hothers, rfl, rfl, ?_, ?_, ?_⟩, fun a ha => ?_⟩
  · rw [raise_status, hengine]; rfl
  · rw [raise_regs, hengine]
  · rw [raise_irqEn, hengine]
  · rw [raise_read _ _ _ ha, hmem]

theorem compressRun_too_long {i : Instr} {s : State} {field : Option ErrorCode} {draws : Bool}
    {out : List Byte → List Byte} (hi : exec i s = compressRun field draws out s) (h : OneShotReady s 0 0 0)
    (hf : field = none) (hlong : s.operands.dst.len < (out (s.bytesOf s.operands.src)).length) :
    ∃ t, EndsInError i s t .dstOverflow ∧ SameOutside s t s.operands.dst := by
  dsimp only [compressRun] at hi
  rw [runCommand_of_checks (h.checks hf (List.forall_mem_nil _))] at hi
  exact endsInOverflow_of_deliver hi rfl ⟨rfl, rfl, rfl, rfl⟩ rfl hlong

theorem deltaEnc_of_ready {W E : Nat} {s : State}
    (h : OneShotReady s (E * s.operands.count.toNat) (E * s.operands.count.toNat) 0) :
    deltaEnc W E s = .next (deliver s.operands.dst
      (deltaEncode W (s.mem.values s.operands.src.base E s.operands.count.toNat))
      (s.engine.results.counted (E * s.operands.count.toNat) s.operands.count.toNat) s) := by
  rw [← leElems_readBytes]
  exact runCommand_of_checks (h.checks rfl (by simp))

theorem execRleEnc_of_ready {w : BitVec 8} {s : State} (hw : w.toNat ≤ 32)
    (h : OneShotReady s (4 * s.operands.count.toNat) (4 * s.operands.count.toNat) 0) :
    execRleEnc w s = .next (deliver s.operands.dst
      (rleEncode w.toNat (s.mem.values s.operands.src.base 4 s.operands.count.toNat))
      (s.engine.results.counted (4 * s.operands.count.toNat) s.operands.count.toNat) s) := by
  rw [← leElems_readBytes]
  exact runCommand_of_checks (h.checks ((widthError_eq_none 32 w).2 hw) (by simp))

/-- Settles O32: each of the six commands passes its checks and delivers its output, which is too long. -/
theorem outputTooLong : Obligations.OutputTooLong := by
  intro s
  refine ⟨fun w hw h hlong => ?_, fun h hlong => ?_, fun h hlong => ?_, fun h =>
    ⟨fun l hl hlong => ?_, fun l hlong => ?_, fun l hlong => ?_⟩⟩
  · exact endsInOverflow_of_deliver (execRleEnc_of_ready hw h) rfl (others_refl s) rfl hlong
  · exact endsInOverflow_of_deliver (deltaEnc_of_ready h) rfl (others_refl s) rfl hlong
  · exact endsInOverflow_of_deliver (deltaEnc_of_ready h) rfl (others_refl s) rfl hlong
  · exact compressRun_too_long rfl h ((levelError_eq_none l).2 hl) hlong
  · exact compressRun_too_long (out := fun x => chosenMember (lz4Admissible x) (lz4Ref x) s.members) rfl h rfl hlong
  · exact compressRun_too_long (out := fun x => chosenMember (snappyAdmissible x) (snappyRef x) s.members) rfl h rfl
      hlong

/-! ### The host's duties -/

theorem any_overlaps_eq_false_iff {x : Option Extent} {y : Extent} :
    x.any y.overlaps = false ↔ ∀ a, x = some a → Apart a y := by
  rw [Option.any_eq_false]
  exact forall₂_congr fun a _ => by rw [overlaps_comm, overlaps_eq_false_iff]

theorem and_overlaps_eq_false_iff {b : Bool} {x y : Extent} :
    (b && x.overlaps y) = false ↔ (b = true → Apart x y) := by
  rw [← overlaps_eq_false_iff]
  cases b <;> simp

/-- A duty is kept where its condition does not hold and the later duties are kept. -/
theorem ite_some_eq_none_iff {α : Type} (b : Bool) (x : α) (o : Option α) :
    (if b then some x else o) = none ↔ b = false ∧ o = none := by
  cases b <;> simp

/-- A store keeps every duty exactly where it is apart from the running command's extents and from the active
sessions' (70_reset_and_hazards.md R712 rows 1 to 4). -/
theorem storeDuty_eq_none_iff (e : Engine) (x : Extent) :
    e.storeDuty x = none ↔ (∀ y, e.busySrc = some y → Apart y x) ∧ (∀ y, e.busyDst = some y → Apart y x) ∧
      (e.br.active = true → Apart e.br.extent x) ∧ (e.rle.active = true → Apart e.rle.extent x) ∧
      (e.bw.active = true → Apart e.bw.extent x) := by
  simp only [Engine.storeDuty, ite_some_eq_none_iff, Bool.or_eq_false_iff, any_overlaps_eq_false_iff,
    and_overlaps_eq_false_iff, and_true, and_assoc]

/-- A load keeps every duty exactly where it is apart from the running command's destination and from the unsettled
bytes of an active bit writer (70_reset_and_hazards.md R712 rows 2 and 4). -/
theorem loadDuty_eq_none_iff (e : Engine) (x : Extent) :
    e.loadDuty x = none ↔
      (∀ y, e.busyDst = some y → Apart y x) ∧ (e.bw.active = true → Apart e.bw.unsettled x) := by
  simp only [Engine.loadDuty, ite_some_eq_none_iff, any_overlaps_eq_false_iff, and_overlaps_eq_false_iff, and_true]

theorem apart_byte_iff (x : Extent) (a : Nat) : Apart x ⟨a, 1⟩ ↔ x.contains a = false := by
  simp only [Apart, contains_iff, contains_eq_false_iff]
  constructor
  · intro h
    by_contra hin
    have := h a (by omega)
    omega
  · intro h b hb
    omega

/-! ### Host loads and stores -/

theorem step_memStore {s : State} {rest : List Event} {addr : Nat} {bytes : List Byte}
    (hin : s.inbox = .memStore addr bytes :: rest) : step s = hostStore addr bytes { s with inbox := rest } := by
  simp only [step, hin, hostAction]

theorem step_memLoad {s : State} {rest : List Event} {addr : Nat} (hin : s.inbox = .memLoad addr :: rest) :
    step s = hostLoad addr { s with inbox := rest } := by
  simp only [step, hin, hostAction]

theorem hostStore_of_duties {s : State} {addr : Nat} {bytes : List Byte} (haddr : addr + bytes.length ≤ 2 ^ 32)
    (hduty : ∀ e ∈ s.engines, e.storeDuty ⟨addr, bytes.length⟩ = none) :
    hostStore addr bytes s = .next { s with mem := s.mem.writeBytes addr bytes } := by
  have hspace := (inSpace_iff ⟨addr, bytes.length⟩).2 haddr
  simp only [hostStore, hspace, List.findSome?_eq_none_iff.2 hduty]
  rfl

theorem storeDuty_eq_none_of_hostStore {s t : State} {addr : Nat} {bytes : List Byte}
    (h : hostStore addr bytes s = .next t) : ∀ e ∈ s.engines, e.storeDuty ⟨addr, bytes.length⟩ = none := by
  simp only [hostStore] at h
  split at h
  · cases h
  · split at h
    · cases h
    · next hnone => exact List.findSome?_eq_none_iff.1 hnone

theorem hostLoad_of_duties {s : State} {addr : Nat} (haddr : addr < 2 ^ 32)
    (hduty : ∀ e ∈ s.engines, e.loadDuty ⟨addr, 1⟩ = none) :
    hostLoad addr s = .next { s with hostData := some ((s.mem.read addr).zeroExtend 32) } := by
  have hspace := (inSpace_iff ⟨addr, 1⟩).2 haddr
  simp only [hostLoad, hspace, List.findSome?_eq_none_iff.2 hduty]
  rfl

theorem loadDuty_eq_none_of_hostLoad {s t : State} {addr : Nat} (h : hostLoad addr s = .next t) :
    ∀ e ∈ s.engines, e.loadDuty ⟨addr, 1⟩ = none := by
  simp only [hostLoad] at h
  split at h
  · cases h
  · split at h
    · cases h
    · next hnone => exact List.findSome?_eq_none_iff.1 hnone

/-- Settles O20: apart from every extent a duty names, the host action breaks none, and memory's rules say what it
leaves. -/
theorem hostMemoryAccess : Obligations.HostMemoryAccess := by
  refine ⟨fun s rest addr bytes haddr hin hapart => ?_, fun s rest addr haddr hin hapart => ?_⟩
  · rw [step_memStore hin, hostStore_of_duties haddr fun e he => ?_]
    · refine ⟨_, rfl, rfl, rfl, readBytes_writeBytes bytes s.mem addr, fun a ha => ?_⟩
      exact read_writeBytes_outside bytes s.mem ((contains_eq_false_iff _ a).1 ha)
    · obtain ⟨hsrc, hdst, hbw, hbr, hrle⟩ := hapart e he
      exact (storeDuty_eq_none_iff e _).2 ⟨hsrc, hdst, hbr, hrle, hbw⟩
  · rw [step_memLoad hin, hostLoad_of_duties haddr fun e he => ?_]
    · exact ⟨_, rfl, rfl, rfl, rfl, rfl⟩
    · obtain ⟨hdst, hbw⟩ := hapart e he
      refine (loadDuty_eq_none_iff e _).2 ⟨fun x hx => (apart_byte_iff x addr).2 (hdst x hx), fun hactive => ?_⟩
      have hsettled := hbw hactive
      rw [apart_byte_iff, contains_eq_false_iff]
      simp only [BitWriter.unsettled]
      omega

/-! ### Refused duties -/

theorem any_any_overlaps_eq_true {x y : Option Extent} {a b : Extent} (hx : x = some a) (hy : y = some b)
    (h : ¬Apart a b) : (x.any fun a => y.any fun b => a.overlaps b) = true := by
  subst hx hy
  simpa [← overlaps_eq_false_iff] using h

/-- Two engines of which one's command writes what the other's reads or writes are in conflict
(70_reset_and_hazards.md R712 row 7). -/
theorem conflicts_eq_true {e f : Engine} {x y : Extent} (h : ¬Apart x y)
    (hxy : e.busyDst = some x ∧ (f.busySrc = some y ∨ f.busyDst = some y) ∨ e.busySrc = some x ∧ f.busyDst = some y) :
    conflicts e f = true := by
  simp only [conflicts, Bool.or_eq_true]
  rcases hxy with ⟨hx, hy | hy⟩ | ⟨hx, hy⟩
  · exact .inl (.inl (any_any_overlaps_eq_true hx hy h))
  · exact .inl (.inr (any_any_overlaps_eq_true hx hy h))
  · exact .inr (any_any_overlaps_eq_true hx hy h)

theorem startChecked_of_conflict {b : Bool} {s : State} {e : Engine} (he : e ∈ s.peers)
    (h : conflicts (s.engine.start b) e = true) : startChecked b s = .refused (.hostDuty 7) :=
  if_pos (List.any_eq_true.2 ⟨e, he, h⟩)

/-- Settles O21: a store or load that was done has broken no duty of any engine, and a START in conflict is refused. -/
theorem hostDutiesRefused : Obligations.HostDutiesRefused := by
  refine ⟨fun s rest e he => ⟨fun addr bytes x hin hx hmeet t ht => ?_, fun addr x hin hx hmeet t ht => ?_⟩,
    fun s rest e v x y he hin hidle hstart hxy hmeet t ht => ?_⟩
  · rw [step_memStore hin] at ht
    obtain ⟨hsrc, hdst, hbr, hrle, hbw⟩ := (storeDuty_eq_none_iff e _).1 (storeDuty_eq_none_of_hostStore ht e he)
    rcases hx with hx | hx | ⟨hactive, rfl⟩ | ⟨hactive, rfl⟩ | ⟨hactive, rfl⟩
    exacts [hmeet (hsrc x hx), hmeet (hdst x hx), hmeet (hbr hactive), hmeet (hrle hactive), hmeet (hbw hactive)]
  · rw [step_memLoad hin] at ht
    obtain ⟨hdst, hbw⟩ := (loadDuty_eq_none_iff e _).1 (loadDuty_eq_none_of_hostLoad ht e he)
    have hapart : Apart x ⟨addr, 1⟩ := by
      rcases hx with hx | ⟨hactive, rfl⟩
      exacts [hdst x hx, hbw hactive]
    rw [(apart_byte_iff x addr).1 hapart] at hmeet
    cases hmeet
  · have hreg : regOf s.platform (s.platform.engineBase + 0x04) 4 = some .ctrl := regOf_block _ (by decide) (by decide)
    rw [step_regWrite hin hreg, writeReg_ctrl v (s := { s with inbox := rest }) hidle, if_pos hstart,
      startChecked_of_conflict (s := { s with inbox := rest }) he (conflicts_eq_true hmeet hxy)] at ht
    cases ht

/-! ### Varints -/

theorem readVarintFrom_of_byte {V left scale u p : Nat} {inp : List Byte} {b : Byte} (hb : inp[p]? = some b) :
    readVarintFrom V inp (left + 1) scale u p =
      if b.toNat < 128 then
        if 2 ^ V ≤ u + b.toNat % 128 * scale then .error .badVarint else .ok (u + b.toNat % 128 * scale, p + 1)
      else readVarintFrom V inp left (scale * 128) (u + b.toNat % 128 * scale) (p + 1) := by
  rw [readVarintFrom, hb]

theorem toNat_byteOf {n : Nat} (h : n < 256) : (byteOf n).toNat = n := by
  rw [byteOf, BitVec.toNat_ofNat, Nat.mod_eq_of_lt h]

/-- A number below 128 is its own last byte, and the loop ends on it (20_memory.md R123, R124). -/
theorem readVarintFrom_last {V left scale acc u : Nat} (before after : List Byte) (hu : u < 128)
    (hfits : acc + u * scale < 2 ^ V) :
    readVarintFrom V (before ++ [byteOf u] ++ after) (left + 1) scale acc before.length =
      .ok (acc + u * scale, before.length + 1) := by
  have hbyte : (before ++ [byteOf u] ++ after)[before.length]? = some (byteOf u) := by simp
  rw [readVarintFrom_of_byte hbyte, toNat_byteOf (by omega), Nat.mod_eq_of_lt hu, if_pos hu, if_neg (by omega)]

/-- A byte with its high bit set adds its seven low bits, and the loop goes on after it (20_memory.md R124). -/
theorem readVarintFrom_continued (V left scale acc u : Nat) (before after : List Byte) :
    readVarintFrom V (before ++ byteOf (128 + u % 128) :: after) (left + 1) scale acc before.length =
      readVarintFrom V (before ++ byteOf (128 + u % 128) :: after) left (scale * 128) (acc + u % 128 * scale)
        (before.length + 1) := by
  have hbyte : (before ++ byteOf (128 + u % 128) :: after)[before.length]? = some (byteOf (128 + u % 128)) := by simp
  have hlow : (128 + u % 128) % 128 = u % 128 := by omega
  rw [readVarintFrom_of_byte hbyte, toNat_byteOf (by omega), if_neg (by omega), hlow]

/-- The loop over an encoded number: it adds the number times its scale, where the encoder had bytes enough and the
reader may read as many. -/
theorem readVarintFrom_varintFrom {V fuel : Nat} {left scale acc u : Nat} {before after : List Byte}
    (hfuel : u < 128 ^ (fuel + 1)) (hleft : u < 128 ^ (left + 1)) (hfits : acc + u * scale < 2 ^ V) :
    readVarintFrom V (before ++ varintFrom fuel u ++ after) (left + 1) scale acc before.length =
      .ok (acc + u * scale, before.length + (varintFrom fuel u).length) := by
  induction fuel generalizing left scale acc u before with
  | zero => exact readVarintFrom_last before after (by simpa using hfuel) hfits
  | succ fuel ih =>
    rw [varintFrom]
    split
    · next hu => exact readVarintFrom_last before after hu hfits
    · next hu =>
      cases left with
      | zero => omega
      | succ left =>
        have hsplit : acc + u % 128 * scale + u / 128 * (scale * 128) = acc + u * scale := by
          conv_rhs => rw [← Nat.mod_add_div u 128]
          ring
        have hrest := ih (left := left) (scale := scale * 128) (acc := acc + u % 128 * scale) (u := u / 128)
          (before := before ++ [byteOf (128 + u % 128)])
          (by rw [Nat.div_lt_iff_lt_mul (by decide), ← pow_succ]; exact hfuel)
          (by rw [Nat.div_lt_iff_lt_mul (by decide), ← pow_succ]; exact hleft) (by rw [hsplit]; exact hfits)
        rw [hsplit] at hrest
        simp only [List.append_assoc, List.cons_append, List.nil_append, List.length_append, List.length_cons,
          List.length_nil, readVarintFrom_continued] at hrest ⊢
        rw [hrest]
        congr 2
        omega

/-- Settles O47: five bytes hold 32 bits and ten hold 64, of the ten the encoder may write. -/
theorem varintRoundTrip : Obligations.VarintRoundTrip := by
  intro V u before after hV hu
  obtain ⟨left, hbytes, hleft⟩ : ∃ left, ceilDiv V 7 = left + 1 ∧ 2 ^ V ≤ 128 ^ (left + 1) := by
    rcases hV with rfl | rfl
    exacts [⟨4, rfl, by decide⟩, ⟨9, rfl, by decide⟩]
  have hfuel : 2 ^ V ≤ 128 ^ (9 + 1) := by
    rcases hV with rfl | rfl <;> decide
  rw [readVarint, hbytes, varint, readVarintFrom_varintFrom (hu.trans_le hfuel) (hu.trans_le hleft) (by omega)]
  simp only [Nat.zero_add, Nat.mul_one]

/-! ### Zig-zag -/

/-- The complement of a `W`-bit pattern, as a number. -/
theorem xor_ones {W u : Nat} (h : u < 2 ^ W) : u ^^^ (2 ^ W - 1) = 2 ^ W - 1 - u := by
  have hflip := congrArg BitVec.toNat (BitVec.xor_allOnes (x := BitVec.ofNat W u))
  simpa only [BitVec.toNat_xor, BitVec.toNat_allOnes, BitVec.toNat_not, BitVec.toNat_ofNat, Nat.mod_eq_of_lt h]
    using hflip

theorem zigzag_of_nonneg {W u : Nat} (hW : 1 ≤ W) (h : u < 2 ^ (W - 1)) : zigzag W u = 2 * u := by
  have hpow : 2 ^ W = 2 * 2 ^ (W - 1) := by rw [← pow_succ', Nat.sub_add_cancel hW]
  rw [zigzag, if_pos h, Nat.xor_zero, Nat.mod_eq_of_lt (by omega)]

theorem zigzag_of_neg {W u : Nat} (hW : 1 ≤ W) (h : 2 ^ (W - 1) ≤ u) (hu : u < 2 ^ W) :
    zigzag W u = 2 * (2 ^ W - 1 - u) + 1 := by
  have hpow : 2 ^ W = 2 * 2 ^ (W - 1) := by rw [← pow_succ', Nat.sub_add_cancel hW]
  have hmod : 2 * u % 2 ^ W = 2 * u - 2 ^ W := by
    rw [Nat.mod_eq_sub_mod (by omega), Nat.mod_eq_of_lt (by omega)]
  rw [zigzag, if_neg (by omega), hmod, xor_ones (by omega)]
  omega

theorem unzigzag_even (W v : Nat) : unzigzag W (2 * v) = v := by
  rw [unzigzag, if_pos (by omega), Nat.xor_zero]
  omega

theorem unzigzag_odd {W v : Nat} (h : v < 2 ^ W) : unzigzag W (2 * v + 1) = 2 ^ W - 1 - v := by
  rw [unzigzag, if_neg (by omega), show (2 * v + 1) / 2 = v by omega, xor_ones h]

/-- Settles O48: by the sign of the pattern, a number from 0 up is doubled and a negative one goes to the odd numbers. -/
theorem zigZag : Obligations.ZigZag := by
  intro W u hW hu
  have hW1 : 1 ≤ W := by omega
  by_cases hsign : u < 2 ^ (W - 1)
  · have hsigned : signedOf W u = u := if_pos hsign
    rw [zigzag_of_nonneg hW1 hsign, unzigzag_even, hsigned, if_pos (by omega)]
    exact ⟨rfl, by push_cast; rfl⟩
  · have hsigned : signedOf W u = u - 2 ^ W := if_neg hsign
    have hneg : (u : Int) < 2 ^ W := by exact_mod_cast hu
    rw [zigzag_of_neg hW1 (by omega) hu, unzigzag_odd (by omega), hsigned, if_neg (by omega)]
    refine ⟨by omega, ?_⟩
    have hcast : ((2 ^ W - 1 - u : Nat) : Int) = 2 ^ W - 1 - u := by
      rw [Nat.cast_sub (by omega), Nat.cast_sub (by omega)]; push_cast; rfl
    push_cast [hcast]
    omega

end Sys2Proof.Machine
end

section
/-! ## The command word and the checks phase

What the decoder answers for a word and how it inverts the encoder, the engine's turn, and the commands whose checks
fail: the statements of 30_encoding.md. -/

namespace Sys2Proof.Machine

/-! ### The fields of a word -/

@[simp] theorem fieldOp_assemble (op a : BitVec 8) (l : BitVec 4) : fieldOp (assemble op a l) = op := by
  ext k hk
  simp [fieldOp, assemble_getLsbD, hk]

@[simp] theorem fieldA_assemble (op a : BitVec 8) (l : BitVec 4) : fieldA (assemble op a l) = a := by
  ext k hk
  simp [fieldA, assemble_getLsbD, show 8 + k < 16 by omega, hk]

@[simp] theorem fieldL_assemble (op a : BitVec 8) (l : BitVec 4) : fieldL (assemble op a l) = l := by
  ext k hk
  simp [fieldL, assemble_getLsbD, show ¬16 + k < 8 by omega, hk]

@[simp] theorem fieldRsv_assemble (op a : BitVec 8) (l : BitVec 4) : fieldRsv (assemble op a l) = 0 := by
  ext k hk
  simp [fieldRsv, assemble_getLsbD, show ¬20 + k < 8 by omega, show ¬20 + k < 16 by omega,
    show 4 ≤ 20 + k - 16 by omega]

/-- A word with RSV = 0 is put together from its own fields (30_encoding.md R150). -/
theorem assemble_fields {w : Word} (h : fieldRsv w = 0) : assemble (fieldOp w) (fieldA w) (fieldL w) = w := by
  refine BitVec.eq_of_getLsbD_eq fun k hk => ?_
  rw [assemble_getLsbD]
  split
  · simp [fieldOp, *]
  split
  · simp [fieldA, show k - 8 < 8 by omega, show 8 + (k - 8) = k by omega]
  by_cases hl : k < 20
  · simp [fieldL, show k - 16 < 4 by omega, show 16 + (k - 16) = k by omega]
  · have hbit := congrArg (BitVec.getLsbD · (k - 20)) h
    simp only [fieldRsv, BitVec.getLsbD_extractLsb', show 20 + (k - 20) = k by omega, show k - 20 < 12 by omega,
      decide_true, Bool.true_and] at hbit
    simp [hbit, show 4 ≤ k - 16 by omega]

theorem toNat_fieldOp (w : Word) : (fieldOp w).toNat = w.toNat % 256 := by
  simp [fieldOp, BitVec.extractLsb'_toNat]

theorem toNat_fieldA (w : Word) : (fieldA w).toNat = w.toNat / 2 ^ 8 % 2 ^ 8 := by
  rw [fieldA, BitVec.extractLsb'_toNat, Nat.shiftRight_eq_div_pow]

theorem toNat_fieldL (w : Word) : (fieldL w).toNat = w.toNat / 2 ^ 16 % 2 ^ 4 := by
  rw [fieldL, BitVec.extractLsb'_toNat, Nat.shiftRight_eq_div_pow]

theorem toNat_fieldRsv (w : Word) : (fieldRsv w).toNat = w.toNat / 2 ^ 20 := by
  rw [fieldRsv, BitVec.extractLsb'_toNat, Nat.shiftRight_eq_div_pow]
  omega

theorem fieldOp_eq_ofNat {w : Word} {n : Nat} (h : (fieldOp w).toNat = n) : fieldOp w = BitVec.ofNat 8 n := by
  rw [← h, BitVec.ofNat_toNat, BitVec.setWidth_eq]

/-! ### The decoder -/

/-- The opcodes that use A (30_encoding.md R155). -/
def opsUsingA : List Nat := [0x01, 0x02, 0x03, 0x04, 0x0A, 0x0B, 0x12, 0x13, 0x20, 0x21, 0x25, 0x38, 0x39]

/-- The opcodes that use L (30_encoding.md R155). -/
def opsUsingL : List Nat := [0x40, 0x44, 0x48]

/-- The opcode map (30_encoding.md R155). -/
def opsInMap : List Nat :=
  [0x01, 0x02, 0x03, 0x04, 0x08, 0x09, 0x0A, 0x0B, 0x0C, 0x10, 0x11, 0x12, 0x13, 0x20, 0x21, 0x22, 0x23, 0x24, 0x25,
    0x30, 0x31, 0x32, 0x33, 0x38, 0x39, 0x40, 0x41, 0x42, 0x44, 0x45, 0x46, 0x48, 0x49, 0x4A]

/-- RSV and each field the OP does not use are 0 (30_encoding.md R157). -/
def UnusedClear (w : Word) : Prop :=
  fieldRsv w = 0 ∧ ((fieldOp w).toNat ∉ opsUsingA → fieldA w = 0) ∧ ((fieldOp w).toNat ∉ opsUsingL → fieldL w = 0)

/-- What the decoder answers for a word: the command the word encodes, a reserved field, or an illegal OP
(30_encoding.md R155 to R157). -/
inductive DecodeCase (w : Word) : Except DecodeError Instr → Prop
  | ok (i : Instr) (hop : (fieldOp w).toNat ∈ opsInMap) (hclear : UnusedClear w) (hi : encode i = w) :
      DecodeCase w (.ok i)
  | reserved (hop : (fieldOp w).toNat ∈ opsInMap) (hclear : ¬UnusedClear w) : DecodeCase w (.error .reservedField)
  | illegal (hop : (fieldOp w).toNat ∉ opsInMap) : DecodeCase w (.error .illegalOp)

section
variable {w : Word} {i : Instr}

theorem decodeCase_useA (hop : (fieldOp w).toNat ∈ opsUsingA) (hi : encode i = assemble (fieldOp w) (fieldA w) 0) :
    DecodeCase w (useA w i) := by
  obtain ⟨hmap, hL⟩ := (by decide : ∀ n ∈ opsUsingA, n ∈ opsInMap ∧ n ∉ opsUsingL) _ hop
  unfold useA
  split
  · next h =>
    obtain ⟨hrsv, hl⟩ := h
    exact .ok i hmap ⟨hrsv, absurd hop, fun _ => hl⟩ (by rw [hi, ← hl, assemble_fields hrsv])
  · next h => exact .reserved hmap fun ⟨hrsv, _, hl⟩ => h ⟨hrsv, hl hL⟩

theorem decodeCase_useL (hop : (fieldOp w).toNat ∈ opsUsingL) (hi : encode i = assemble (fieldOp w) 0 (fieldL w)) :
    DecodeCase w (useL w i) := by
  obtain ⟨hmap, hA⟩ := (by decide : ∀ n ∈ opsUsingL, n ∈ opsInMap ∧ n ∉ opsUsingA) _ hop
  unfold useL
  split
  · next h =>
    obtain ⟨hrsv, ha⟩ := h
    exact .ok i hmap ⟨hrsv, fun _ => ha, absurd hop⟩ (by rw [hi, ← ha, assemble_fields hrsv])
  · next h => exact .reserved hmap fun ⟨hrsv, ha, _⟩ => h ⟨hrsv, ha hA⟩

theorem decodeCase_useNone
    (hop : (fieldOp w).toNat ∈ opsInMap ∧ (fieldOp w).toNat ∉ opsUsingA ∧ (fieldOp w).toNat ∉ opsUsingL)
    (hi : encode i = assemble (fieldOp w) 0 0) : DecodeCase w (useNone w i) := by
  obtain ⟨hmap, hA, hL⟩ := hop
  unfold useNone
  split
  · next h =>
    obtain ⟨hrsv, ha, hl⟩ := h
    refine .ok i hmap ⟨hrsv, fun _ => ha, fun _ => hl⟩ ?_
    calc encode i = assemble (fieldOp w) (fieldA w) (fieldL w) := by rw [hi, ha, hl]
      _ = w := assemble_fields hrsv
  · next h => exact .reserved hmap fun ⟨hrsv, ha, hl⟩ => h ⟨hrsv, ha hA, hl hL⟩

end

/-- The arms of the decoder in the order of 30_encoding.md R155, grouped by the field the OP uses. -/
theorem decode_cases (w : Word) : DecodeCase w (decode w) := by
  unfold decode
  split
  case h_1 h | h_2 h | h_3 h | h_4 h | h_7 h | h_8 h | h_12 h | h_13 h | h_14 h | h_15 h | h_19 h | h_24 h | h_25 h =>
    exact decodeCase_useA (by rw [h]; decide) (by rw [fieldOp_eq_ofNat h]; rfl)
  case h_26 h | h_29 h | h_32 h => exact decodeCase_useL (by rw [h]; decide) (by rw [fieldOp_eq_ofNat h]; rfl)
  case h_35 => exact .illegal (by simp_all [opsInMap])
  all_goals next h => exact decodeCase_useNone (by rw [h]; decide) (by rw [fieldOp_eq_ofNat h]; rfl)

/-- Settles O1: the fields of an assembled word are the ones it was put together from, so the decoder takes the arm of
the command's own OP, and finds RSV and the fields the command does not use 0. -/
theorem decodeOfEncode : Obligations.DecodeOfEncode := by
  intro i
  cases i with
  | pack8 a | unpack8 a | packBulk a | unpackBulk a | bwPut a | bwPut64 a | brGet a | brGet64 a | rleEnc a
  | rleDecInit a | rleDecLevels16 a | bssEnc a | bssDec a =>
    simp [encode, decode, useA]
  | deflateCompress l | lz4Compress l | snappyCompress l => simp [encode, decode, useL]
  | _ => simp [encode, decode, useNone]

/-- Settles O2: the decoder answers with a command only where the word encodes that command. -/
theorem encodeOfDecode : Obligations.EncodeOfDecode := by
  intro w i h
  have hcase := decode_cases w
  rw [h] at hcase
  cases hcase with
  | ok _ _ _ hi => exact hi

/-- Settles O3: the six words of the table, evaluated. -/
theorem exampleWords : Obligations.ExampleWords := by
  unfold Obligations.ExampleWords
  decide

/-- Exactly the OPs outside the map are illegal (30_encoding.md R156). -/
theorem decode_eq_illegalOp_iff (w : Word) : decode w = .error .illegalOp ↔ (fieldOp w).toNat ∉ opsInMap := by
  have hcase := decode_cases w
  generalize decode w = r at hcase ⊢
  cases hcase with
  | ok i hop | reserved hop => simp [hop]
  | illegal hop => simp [hop]

/-- Under an OP of the map, exactly the unused fields that are not 0 are reserved fields (30_encoding.md R157). -/
theorem decode_eq_reservedField_iff {w : Word} (h : decode w ≠ .error .illegalOp) :
    decode w = .error .reservedField ↔ ¬UnusedClear w := by
  have hcase := decode_cases w
  generalize decode w = r at h hcase ⊢
  cases hcase with
  | ok i _ hclear => simp [hclear]
  | reserved _ hclear => simp [hclear]
  | illegal => contradiction

theorem fieldA_eq_zero_iff (w : Word) : fieldA w = 0 ↔ w.toNat / 2 ^ 8 % 2 ^ 8 = 0 := by
  rw [← toNat_fieldA, BitVec.toNat_eq]; rfl

theorem fieldL_eq_zero_iff (w : Word) : fieldL w = 0 ↔ w.toNat / 2 ^ 16 % 2 ^ 4 = 0 := by
  rw [← toNat_fieldL, BitVec.toNat_eq]; rfl

theorem fieldRsv_eq_zero_iff (w : Word) : fieldRsv w = 0 ↔ w.toNat / 2 ^ 20 = 0 := by
  rw [← toNat_fieldRsv, BitVec.toNat_eq]; rfl

/-- Settles O5: a reserved field is what `UnusedClear` denies, read on the word's number. -/
theorem reservedFields : Obligations.ReservedFields := by
  intro w hlegal
  rw [decode_eq_reservedField_iff hlegal, UnusedClear, fieldRsv_eq_zero_iff, fieldA_eq_zero_iff, fieldL_eq_zero_iff,
    toNat_fieldOp, not_and_or, not_and_or, Classical.not_imp, Classical.not_imp]
  rfl

/-! ### The engine's turn -/

theorem step_of_busy {s : State} (hb : s.engine.status.busy = true) (hin : s.inbox = []) : step s = engineTurn s := by
  simp only [step, hin, State.nextBusy, hb, if_true]

theorem engineTurn_of_command {s : State} {i : Instr} (hb : s.engine.status.busy = true)
    (hi : decode s.operands.cmd = .ok i) : engineTurn s = exec i s := by
  rw [engineTurn, if_pos hb, fetch, hi]

theorem engineTurn_of_bad_word {s : State} {e : DecodeError} (hb : s.engine.status.busy = true)
    (he : decode s.operands.cmd = .error e) : engineTurn s = .next (rejectWord e s) := by
  rw [engineTurn, if_pos hb, fetch, he]

/-- Settles O8: a busy addressed engine keeps the turn, whether the inbox is empty or gives it one. -/
theorem stepRunsTheCommand : Obligations.StepRunsTheCommand := by
  intro s i hb hi
  refine ⟨fun hin => (step_of_busy hb hin).trans (engineTurn_of_command hb hi), fun rest hin => ?_⟩
  have hstep : step s = engineTurn { s with inbox := rest } := by rw [step, hin]
  exact hstep.trans (engineTurn_of_command (s := { s with inbox := rest }) hb hi)

/-- An error without a destination leaves sessions, RECOVERED and memory as they were (60_exceptions.md R602). -/
theorem raise_nothingElse (e : ErrorCode) (s : State) : NothingElse s (raise e ⟨0, 0⟩ s) :=
  ⟨rfl, rfl, rfl, rfl, raise_nowhere_read e s⟩

/-- 256 values less the 34 of the map (30_encoding.md R156). -/
theorem count_outside_map : ((List.range 256).filter fun op => !opsInMap.contains op).length = 222 := by
  decide +kernel

/-- Settles O4: the map by evaluation, and a running word with an illegal OP is raised as ILLEGAL_OP. -/
theorem illegalOps : Obligations.IllegalOps := by
  have hillegal (w : Word) : decode w = .error .illegalOp ↔ w.toNat % 256 ∉ opsInMap := by
    rw [decode_eq_illegalOp_iff, toNat_fieldOp]
  refine ⟨count_outside_map, by decide, hillegal, fun s hb hin hop => ?_⟩
  have hturn := engineTurn_of_bad_word hb ((hillegal _).2 hop)
  exact ⟨_, (step_of_busy hb hin).trans hturn, rfl, rfl, rfl, rfl, raise_nothingElse _ s, others_refl s⟩

/-! ### Commands whose checks fail -/

/-- A command whose checks phase gives an error ends with it and does nothing else (30_encoding.md R170,
60_exceptions.md R602). -/
theorem endsInError_of_checks {i : Instr} {s : State} {d : Demand} {body : State → State} {c : ErrorCode}
    (hi : exec i s = runCommand d s body) (hc : checksPhase s.platform d = some c) :
    ∃ t, EndsInError i s t c ∧ NothingElse s t :=
  ⟨_, ⟨hi.trans (runCommand_of_error hc), others_refl s, rfl, rfl, rfl, rfl, rfl⟩, raise_nothingElse c s⟩

theorem checksPhase_of_field {p : Platform} {d : Demand} {c : ErrorCode} (h : d.field = some c) :
    checksPhase p d = some c := by
  rw [checksPhase, h]

theorem checksPhase_of_no_session {p : Platform} {d : Demand} (hf : d.field = none) (hs : d.session = false) :
    checksPhase p d = some .noSession := by
  rw [checksPhase, hf, hs]; rfl

/-- What step 3 of the checks phase says of each command (30_encoding.md R158). -/
def fieldError : Instr → Option ErrorCode
  | .pack8 w | .unpack8 w | .packBulk w | .unpackBulk w | .rleEnc w | .rleDecInit w | .bwPut w | .brGet w =>
    widthError 32 w
  | .bwPut64 n | .brGet64 n => widthError 64 n
  | .rleDecLevels16 w => widthError 16 w
  | .bssEnc size | .bssDec size => elemError size
  | .deflateCompress level => levelError level
  | _ => none

/-- What step 4 of the checks phase asks of each command (30_encoding.md R160). -/
def sessionActive (e : Engine) : Instr → Bool
  | .bwPutBit | .bwPut _ | .bwPut64 _ | .bwFlush => e.bw.active
  | .brGetBit | .brGet _ | .brGet64 _ => e.br.active
  | .rleDecGet | .rleDecBatch | .rleDecSkip => e.rle.active
  | _ => true

/-- Every command is a checks phase, which begins with its used field and its session, and then an execute phase
(30_encoding.md R170, R171). -/
theorem exec_eq_runCommand (i : Instr) (s : State) : ∃ d body,
    exec i s = runCommand d s body ∧ d.field = fieldError i ∧ d.session = sessionActive s.engine i := by
  cases i with
  | pack8 | unpack8 | packBulk | unpackBulk | brGetBit | brGet | brGet64 => exact ⟨_, _, rfl, rfl, rfl⟩
  | bwInit | bwPutBit | bwPut | bwPut64 | bwFlush | brInit =>
    dsimp only [exec, execBwInit, execBwPutBit, execBwPut, execBwPut64, putBits, execBwFlush, execBrInit]
    exact ⟨_, _, rfl, rfl, rfl⟩
  | rleEnc | rleDecInit | rleDecGet | rleDecBatch | rleDecSkip | rleDecLevels16 =>
    dsimp only [exec, execRleEnc, execRleDecInit, execRleDecGet, execRleDecBatch, execRleDecSkip,
      execRleDecLevels16]
    exact ⟨_, _, rfl, rfl, rfl⟩
  | deltaEncI32 | deltaEncI64 | deltaDecI32 | deltaDecI64 | bssEnc | bssDec =>
    dsimp only [exec, execDeltaEncI32, execDeltaEncI64, deltaEnc, execDeltaDecI32, execDeltaDecI64, deltaDec,
      execBssEnc, execBssDec, bssRun]
    exact ⟨_, _, rfl, rfl, rfl⟩
  | deflateCompress | lz4Compress | snappyCompress | deflateDecompress | lz4Decompress | snappyDecompress
  | deflateBound | lz4Bound | snappyBound =>
    dsimp only [exec, execDeflateCompress, execLz4Compress, execSnappyCompress, compressRun, execDeflateDecompress,
      execLz4Decompress, execSnappyDecompress, decompressRun, execDeflateBound, execLz4Bound, execSnappyBound,
      boundRun]
    exact ⟨_, _, rfl, rfl, rfl⟩

theorem endsInError_of_field {i : Instr} {c : ErrorCode} (h : fieldError i = some c) (s : State) :
    ∃ t, EndsInError i s t c ∧ NothingElse s t := by
  obtain ⟨d, body, hi, hfield, -⟩ := exec_eq_runCommand i s
  exact endsInError_of_checks hi (checksPhase_of_field (hfield.trans h))

theorem endsInError_of_no_session {i : Instr} {s : State} (hf : fieldError i = none)
    (hs : sessionActive s.engine i = false) : ∃ t, EndsInError i s t .noSession ∧ NothingElse s t := by
  obtain ⟨d, body, hi, hfield, hsession⟩ := exec_eq_runCommand i s
  exact endsInError_of_checks hi (checksPhase_of_no_session (hfield.trans hf) (hsession.trans hs))

/-- Settles O7: each field's error is the first check of its command. -/
theorem fieldsOutOfRange : Obligations.FieldsOutOfRange := by
  refine ⟨fun a ha => ?_, fun a ha => ?_, fun a ha => ?_, ?_, ?_, fun l hl => ?_⟩
  · have hw := widthError_some ha
    exact ⟨endsInError_of_field hw, endsInError_of_field hw, endsInError_of_field hw, endsInError_of_field hw,
      endsInError_of_field hw, endsInError_of_field hw, endsInError_of_field hw, endsInError_of_field hw⟩
  · have hw := widthError_some ha
    exact ⟨endsInError_of_field hw, endsInError_of_field hw⟩
  · exact endsInError_of_field (widthError_some ha)
  · exact endsInError_of_field (elemError_some rfl)
  · exact endsInError_of_field (elemError_some rfl)
  · exact endsInError_of_field (levelError_some hl)

/-- Settles O30: a session that is not active is the first check after the used field. -/
theorem sessionRequired : Obligations.SessionRequired := by
  intro s n
  refine ⟨fun h => ⟨?_, fun hn => ?_, fun hn => ?_, ?_⟩, fun h => ⟨?_, fun hn => ?_, fun hn => ?_⟩,
    fun h => ⟨?_, ?_, ?_⟩⟩
  case refine_2 | refine_6 => exact endsInError_of_no_session ((widthError_eq_none 32 n).2 hn) h
  case refine_3 | refine_7 => exact endsInError_of_no_session ((widthError_eq_none 64 n).2 hn) h
  all_goals exact endsInError_of_no_session rfl h

/-! ### The checks of PACK_BULK in their order -/

theorem inSpace_eq_false_iff (x : Extent) : x.inSpace = false ↔ 2 ^ 32 < x.base + x.len := by
  rw [← Bool.not_eq_true, inSpace_iff, Nat.not_le]

theorem overlaps_eq_true_iff (x y : Extent) : x.overlaps y = true ↔ ¬Apart x y := by
  rw [← overlaps_eq_false_iff, Bool.not_eq_false]

/-- Steps 5 to 9 of the checks phase of a one-shot command (30_encoding.md R170). -/
theorem checksPhase_oneShot (p : Platform) (q : Params) (sizes : List Nat) (needSrc needDst : Nat) :
    checksPhase p (oneShot q none sizes needSrc needDst) =
      if q.src.inSpace = false ∨ q.dst.inSpace = false ∨ ∃ n ∈ sizes, 2 ^ 32 ≤ n then some .rangeWrap
      else if q.srcLen.toNat < needSrc then some .srcShort
      else if q.src.overlaps q.dst = true then some .overlap
      else if p.reaches q.src = false ∨ p.reaches q.dst = false then some .busFault
      else if q.dstCap.toNat < needDst then some .dstTooSmall
      else none := by
  simp only [checksPhase, oneShot, Bool.not_true, Bool.false_eq_true, ↓reduceIte, List.all_cons, List.all_nil,
    List.any_cons, List.any_nil, Bool.and_true, Bool.or_false, Bool.not_and, Bool.or_eq_true, Bool.not_eq_eq_eq_not,
    List.all_eq_false, decide_eq_true_eq, not_lt, or_assoc]
  congr -- the two sides differ only in how they decide the conditions

/-- Packed values take `w` bits each, so where these fit the output is delivered (40_bitpack.md R212). -/
theorem packValues_err {w n : Nat} {s : State} (h : n * w ≤ 8 * s.operands.dstCap.toNat) :
    (packValues w n s).engine.status.err = false := by
  have hlen : (packBits w (sourceElems s s.operands 4 n)).length ≤ s.operands.dst.len := by
    rw [length_packBits, sourceElems, length_leElems, ceilDiv, Params.dst]
    dsimp only
    omega
  rw [packValues, deliver_engine _ _ hlen]
  rfl

/-- Settles O31: each condition decides one branch of the checks phase, and where none holds the values are packed. -/
theorem checkOrder : Obligations.CheckOrder := by
  intro w s p n fails
  have hfails {c : ErrorCode} (h : checksPhase s.platform (oneShot p (widthError 32 w) [4 * n] (4 * n)
      (ceilDiv (n * w.toNat) 8)) = some c) : fails c := endsInError_of_checks rfl h
  refine ⟨fun hw => hfails (checksPhase_of_field (widthError_some hw)), fun hw => ?_⟩
  have hfield := (widthError_eq_none 32 w).2 hw
  have hwrap_iff : (p.src.inSpace = false ∨ p.dst.inSpace = false ∨ ∃ m ∈ [4 * n], 2 ^ 32 ≤ m) ↔
      2 ^ 32 < p.srcAddr.toNat + p.srcLen.toNat ∨ 2 ^ 32 < p.dstAddr.toNat + p.dstCap.toNat ∨ 2 ^ 32 ≤ 4 * n := by
    simp [inSpace_eq_false_iff, Params.src, Params.dst]
  rw [hfield, checksPhase_oneShot] at hfails
  refine ⟨fun hwrap => hfails (if_pos (hwrap_iff.2 hwrap)), fun hsrc hdst hsize => ?_⟩
  rw [if_neg (by rw [hwrap_iff]; omega)] at hfails
  refine ⟨fun hshort => hfails (if_pos hshort), fun hlong => ?_⟩
  rw [if_neg hlong.not_gt] at hfails
  refine ⟨fun hover => hfails (if_pos ((overlaps_eq_true_iff _ _).2 hover)), fun hapart => ?_⟩
  rw [if_neg (by rwa [overlaps_eq_true_iff, not_not])] at hfails
  have hbus_iff : s.platform.reaches p.src = false ∨ s.platform.reaches p.dst = false ↔
      ¬(Usable s p.src ∧ Usable s p.dst) := by
    rw [usable_iff, usable_iff, (inSpace_iff p.src).2 hsrc, (inSpace_iff p.dst).2 hdst]
    simp [imp_iff_not_or]
  refine ⟨fun hbus => hfails (if_pos (hbus_iff.2 hbus)), fun husable => ?_⟩
  rw [if_neg (by rwa [hbus_iff, not_not])] at hfails
  have hroom_iff : p.dstCap.toNat < ceilDiv (n * w.toNat) 8 ↔ 8 * p.dstCap.toNat < n * w.toNat := by
    rw [ceilDiv]
    omega
  refine ⟨fun hsmall => hfails (if_pos (hroom_iff.2 hsmall)), fun hroom => ?_⟩
  have hready : OneShotReady s (4 * n) (4 * n) (ceilDiv (n * w.toNat) 8) :=
    ⟨husable.1, husable.2, hapart, hsize, hlong, not_lt.1 (hroom_iff.not.2 hroom.not_gt)⟩
  exact ⟨_, runCommand_of_checks (hready.checks hfield (List.forall_mem_singleton.2 le_rfl)), packValues_err hroom⟩

end Sys2Proof.Machine
end

section
/-! ## Bit packing and the bit streams

Packing and unpacking and that they are inverse, the commands that pack and unpack, the sessions of the bit writer and
the bit reader, and that these two are inverse: the statements of 40_bitpack.md. -/

namespace Sys2Proof.Machine

/-! ### Packing and unpacking are inverse -/

/-- Bit `j` of value `i` lies inside a string of `n` values of `w` bits. -/
theorem bitPlace_lt {i j n w : Nat} (hi : i < n) (hj : j < w) : i * w + j < n * w :=
  Nat.mul_comm i w ▸ Nat.mul_add_lt_mul_of_lt_of_lt hi hj

/-- Bit `j` of an unpacked value: a bit of the stream below the width, 0 from the width on (40_bitpack.md R201). -/
theorem testBit_getD_unpackBits (bs : List Byte) (w : Nat) {i n : Nat} (hi : i < n) (j : Nat) :
    ((unpackBits bs n w).getD i 0).testBit j = (decide (j < w) && bitAt bs (i * w + j)) := by
  rw [unpackBits, getD_unpackBitsAt _ _ _ _ hi, Nat.zero_add, testBit_getBits]

theorem unpackBitsAt_lt (bs : List Byte) (w : Nat) {v p n : Nat} (h : v ∈ unpackBitsAt bs w p n) : v < 2 ^ w := by
  induction n generalizing p with
  | zero => cases h
  | succ n ih =>
    rcases List.mem_cons.1 h with rfl | h
    · exact getBits_lt bs p w
    · exact ih h

/-- Lists of one length that agree on `getD` at every place are equal. -/
theorem list_ext_getD {α : Type} {l m : List α} (d : α) (hlen : l.length = m.length)
    (h : ∀ i, i < l.length → l.getD i d = m.getD i d) : l = m := by
  refine List.ext_getElem hlen fun i hl hm => ?_
  rw [List.getElem_eq_getD d, List.getElem_eq_getD d, h i hl]

/-- Byte strings of one length with the same bits are equal. -/
theorem bytes_ext_bitAt {as bs : List Byte} (hlen : as.length = bs.length)
    (h : ∀ k, k < 8 * as.length → bitAt as k = bitAt bs k) : as = bs := by
  refine list_ext_getD 0 hlen fun i hi => BitVec.eq_of_getLsbD_eq fun j hj => ?_
  have hbit := h (8 * i + j) (by omega)
  rwa [bitAt, bitAt, show (8 * i + j) / 8 = i by omega, show (8 * i + j) % 8 = j by omega] at hbit

theorem unpackBits_packBits (w : Nat) (vs : List Nat) :
    unpackBits (packBits w vs) vs.length w = vs.map (· % 2 ^ w) := by
  refine list_ext_getD 0 (by simp) fun i hi => Nat.eq_of_testBit_eq fun j => ?_
  rw [length_unpackBits] at hi
  have hmap : (vs.map (· % 2 ^ w)).getD i 0 = vs.getD i 0 % 2 ^ w := by simp [hi]
  rw [hmap, testBit_getD_unpackBits _ _ hi, Nat.testBit_mod_two_pow]
  by_cases hj : j < w
  · rw [bitAt_packBits w vs hi hj]
  · simp [hj]

theorem packBits_unpackBits {w n : Nat} {bs : List Byte} (hlen : bs.length = (n * w + 7) / 8)
    (hpad : ∀ k, n * w ≤ k → k < 8 * bs.length → bitAt bs k = false) : packBits w (unpackBits bs n w) = bs := by
  have hlength : (packBits w (unpackBits bs n w)).length = bs.length := by
    rw [length_packBits, length_unpackBits, hlen]; rfl
  refine bytes_ext_bitAt hlength fun k hk => ?_
  by_cases hkn : k < n * w
  · have hw : 0 < w := Nat.pos_of_mul_pos_left (Nat.zero_lt_of_lt hkn)
    have hi : k / w < n := (Nat.div_lt_iff_lt_mul hw).2 hkn
    have hj : k % w < w := Nat.mod_lt k hw
    have hplace := bitAt_packBits w (unpackBits bs n w) (by rwa [length_unpackBits]) hj
    rw [testBit_getD_unpackBits _ _ hi, decide_eq_true hj, Bool.true_and, Nat.div_add_mod'] at hplace
    exact hplace
  · rw [bitAt_packBits_pad _ _ (by rw [length_unpackBits]; omega), hpad k (by omega) (by omega)]

/-- Settles O35: both directions compare bit by bit. -/
theorem packUnpackInverse : Obligations.PackUnpackInverse :=
  ⟨fun w vs => ⟨length_packBits w vs, fun _ hk _ => bitAt_packBits_pad w vs hk,
      fun _ _ hi hj => bitAt_packBits w vs hi hj, unpackBits_packBits w vs⟩,
    fun w n bs => ⟨length_unpackBits bs n w, fun _ hv => unpackBitsAt_lt bs w hv, fun i j hi hj => by
      rw [testBit_getD_unpackBits bs w hi, decide_eq_true hj, Bool.true_and]; rfl⟩,
    fun _ _ _ hlen hpad => packBits_unpackBits hlen hpad⟩

/-! ### The commands that pack and unpack -/

/-- A source value of a pack command has the bits of that value in memory (40_bitpack.md R210). -/
theorem getD_sourceElems (s : State) (p : Params) (e : Nat) {k n : Nat} (hk : k < n) :
    (sourceElems s p e n).getD k 0 = s.mem.value (p.srcAddr.toNat + e * k) e := by
  rw [sourceElems, leElems_readBytes, getD_values _ _ _ _ hk]; rfl

theorem length_packBits_sourceElems (w n : Nat) (s : State) :
    (packBits w (sourceElems s s.operands 4 n)).length = (n * w + 7) / 8 := by
  rw [length_packBits, sourceElems, length_leElems]; rfl

/-- Settles O33: the packed string is delivered, and its bits and pad bits are those of `packBits`. -/
theorem packCommands : Obligations.PackCommands := by
  intro w s p packs hw
  have hfield := (widthError_eq_none 32 w).2 hw
  have hpacks {i : Instr} {n : Nat} (hi : exec i s = .next (packValues w.toNat n s))
      (hroom : (n * w.toNat + 7) / 8 ≤ p.dstCap.toNat) : packs i n := by
    have hlen := length_packBits_sourceElems w.toNat n s
    have hfit : _ ≤ s.operands.dst.len := hlen.trans_le hroom
    have hends := ends_of_deliver hi (others_refl s) hfit
    obtain ⟨hout, hframe⟩ := deliver_holds (s.engine.results.counted (4 * n) n) s hfit
    have hvalues : (sourceElems s s.operands 4 n).length = n := length_leElems ..
    rw [hlen] at hends
    refine ⟨_, hends, hframe, fun k j hk hj => ?_, fun b hb hbm => ?_⟩
    · have hplace := bitPlace_lt hk hj
      refine (streamBit_of_readBytes hout (by omega)).trans ?_
      rw [bitAt_packBits _ _ (by omega) hj, getD_sourceElems _ _ _ hk]
    · exact (streamBit_of_readBytes hout (by omega)).trans (bitAt_packBits_pad _ _ (by rwa [hvalues]))
  refine ⟨fun h => hpacks (runCommand_of_checks (h.checks hfield (List.forall_mem_nil _))) ?_, ?_⟩
  · have : w.toNat ≤ p.dstCap.toNat := h.dst_room
    omega
  · rintro n rfl h
    exact hpacks (runCommand_of_checks (h.checks hfield (List.forall_mem_singleton.2 le_rfl))) h.dst_room

theorem length_unpackedWords (bs : List Byte) (n w : Nat) :
    ((unpackBits bs n w).flatMap (leBytes 4)).length = 4 * n := by
  rw [length_flatMap_leBytes, length_unpackBits, Nat.mul_comm]

/-- Bit `j` of output word `k` of an unpack command (40_bitpack.md R211). -/
theorem bitAt_unpackedWords (bs : List Byte) (w : Nat) {k j n : Nat} (hk : k < n) (hj : j < 32) :
    bitAt ((unpackBits bs n w).flatMap (leBytes 4)) (8 * (4 * k) + j) = (decide (j < w) && bitAt bs (k * w + j)) := by
  rw [bitAt_flatMap_leBytes 4 _ (by rwa [length_unpackBits]) hj, testBit_getD_unpackBits bs w hk]

/-- Settles O34: the unpacked words are delivered, and the bits of a word are those of `unpackBits`. -/
theorem unpackCommands : Obligations.UnpackCommands := by
  intro w s p unpacks hw
  have hfield := (widthError_eq_none 32 w).2 hw
  have hunpacks {i : Instr} {n : Nat} (hi : exec i s = .next (unpackValues w.toNat n ((n * w.toNat + 7) / 8) s))
      (hroom : 4 * n ≤ p.dstCap.toNat) : unpacks i n := by
    have hlen := length_unpackedWords (s.mem.readBytes p.src.base ((n * w.toNat + 7) / 8)) n w.toNat
    have hfit : _ ≤ s.operands.dst.len := hlen.trans_le hroom
    have hends := ends_of_deliver hi (others_refl s) hfit
    obtain ⟨hout, hframe⟩ := deliver_holds (s.engine.results.counted ((n * w.toNat + 7) / 8) n) s hfit
    rw [hlen] at hends
    refine ⟨_, hends, hframe, fun k j hk hj => ?_⟩
    have hword := streamBit_of_readBytes (k := 8 * (4 * k) + j) hout (by omega)
    rw [bitAt_unpackedWords _ _ hk hj, ← streamBit_add] at hword
    rw [testBit_value, decide_eq_true (by omega), Bool.true_and]
    refine hword.trans ?_
    by_cases hjw : j < w.toNat
    · have hplace := bitPlace_lt hk hjw
      rw [bitAt_readBytes _ _ _ (by omega)]
      rfl
    · simp [hjw]
  refine ⟨fun h => hunpacks ?_ h.dst_room, ?_⟩
  · rw [show (8 * w.toNat + 7) / 8 = w.toNat by omega]
    exact runCommand_of_checks (h.checks hfield (List.forall_mem_nil _))
  · rintro n rfl h
    exact hunpacks (runCommand_of_checks (h.checks hfield (List.forall_mem_singleton.2 le_rfl))) h.dst_room

/-! ### Session commands -/

/-- A command that passes its checks phase ends with the engine its body leaves. -/
theorem ends_of_checks {i : Instr} {s : State} {d : Demand} {body : State → State} {e : Engine}
    (hi : exec i s = runCommand d s body) (hc : checksPhase s.platform d = none) (he : (body s).engine = e)
    (ho : OthersKept s (body s)) : Ends i s (body s) e :=
  ⟨hi.trans (runCommand_of_checks hc), he, ho⟩

/-- The checks of a command that starts a session (30_encoding.md R160, R170). -/
theorem checksPhase_init {s : State} {field : Option ErrorCode} {x : Extent} {n : Nat} (hf : field = none)
    (hx : Usable s x) (hn : n < 2 ^ 29) :
    checksPhase s.platform { field := field, extents := [x], sessionSizes := [n] } = none := by
  have hreach := ((usable_iff s x).1 hx).2
  have hspace := hx.1
  simpa [checksPhase_eq_none_iff, hf, hreach] using And.intro hspace hn

/-- The checks of a command on a session: its field, its session and its room (30_encoding.md R160, R170). -/
theorem checksPhase_session {p : Platform} {field : Option ErrorCode} {active : Bool} (hf : field = none)
    (ha : active = true) (room need : Nat) :
    checksPhase p { field := field, session := active, room := room, needRoom := need } =
      if room < need then some .dstTooSmall else none := by
  simp [checksPhase, hf, ha]

/-- Making bytes unspecified changes none outside the unsettled ones (40_bitpack.md R224). -/
theorem unsettle_read {s : State} {a : Nat} (h : s.engine.bw.unsettled.contains a = false) :
    (unsettle s).mem.read a = s.mem.read a := by
  rw [unsettle_mem]
  exact read_scramble_outside _ ((contains_eq_false_iff _ _).1 h)

theorem exec_bwInit (s : State) :
    exec .bwInit s = runCommand { extents := [s.operands.dst], sessionSizes := [s.operands.dstCap.toNat] } s fun u =>
      succeed (unsettle { u with engine.bw := ⟨true, s.operands.dstAddr, s.operands.dstCap.toNat, 0, [], 0⟩ }) := rfl

theorem exec_brInit (s : State) :
    exec .brInit s = runCommand { extents := [s.operands.src], sessionSizes := [s.operands.srcLen.toNat] } s fun u =>
      succeed { u with engine.br := ⟨true, s.operands.srcAddr, s.operands.srcLen.toNat, 0⟩ } := rfl

theorem exec_rleDecInit (w : BitVec 8) (s : State) :
    exec (.rleDecInit w) s =
      runCommand
        { field := widthError 32 w, extents := [s.operands.src], sessionSizes := [s.operands.srcLen.toNat] } s fun u =>
        succeed { u with
          engine.rle := ⟨true, s.operands.srcAddr, s.operands.srcLen.toNat, w.toNat, 0, .none⟩ } := rfl

/-- Settles O36: the three commands pass their checks and put a fresh session in place. -/
theorem sessionInits : Obligations.SessionInits := by
  intro s p e
  refine ⟨fun hdst hcap => ?_, fun hsrc hlen => ⟨?_, fun w hw => ?_⟩⟩
  · exact ⟨_, ends_of_checks (exec_bwInit s) (checksPhase_init rfl hdst hcap) rfl ⟨rfl, rfl, rfl, rfl⟩,
      fun _ ha => unsettle_read ha⟩
  · exact ⟨_, ends_of_checks (exec_brInit s) (checksPhase_init rfl hsrc hlen) rfl ⟨rfl, rfl, rfl, rfl⟩, fun _ => rfl⟩
  · exact ⟨_, ends_of_checks (exec_rleDecInit w s) (checksPhase_init ((widthError_eq_none 32 w).2 hw) hsrc hlen) rfl
      ⟨rfl, rfl, rfl, rfl⟩, fun _ => rfl⟩

/-! ### The bit writer -/

theorem bitsOf_eq_map_testBit (n v : Nat) : bitsOf n v = (List.range n).map v.testBit := by
  refine list_ext_getD false (by simp) fun j hj => ?_
  rw [length_bitsOf] at hj
  rw [getD_bitsOf n v j hj]
  simp [hj]

theorem putBits_eq (field : Option ErrorCode) (n v : Nat) (s : State) :
    putBits field n v s =
      runCommand
        { field := field
          session := s.engine.bw.active
          room := 8 * s.engine.bw.cap
          needRoom := s.engine.bw.bitpos + n } s fun u =>
        succeed (unsettle { u with engine.bw := s.engine.bw.put n v }) := rfl

/-- Settles O37: the room decides the checks phase, and a put that passes them appends its bits. -/
theorem writerPuts : Obligations.WriterPuts := by
  intro s hactive b puts
  have hputs {i : Instr} {field : Option ErrorCode} {n v : Nat} (hi : exec i s = putBits field n v s)
      (hf : field = none) : puts i n v := by
    rw [putBits_eq] at hi
    have hchecks := checksPhase_session (p := s.platform) hf hactive (8 * b.cap) (b.bitpos + n)
    refine ⟨fun hroom => ?_, fun hfull => endsInError_of_checks hi (hchecks.trans (if_pos hfull))⟩
    rw [if_neg hroom.not_gt] at hchecks
    refine ⟨_, ends_of_checks hi hchecks ?_ ⟨rfl, rfl, rfl, rfl⟩, fun _ ha => unsettle_read ha⟩
    rw [← bitsOf_eq_map_testBit]
    rfl
  exact ⟨hputs rfl rfl, fun n hn => hputs rfl ((widthError_eq_none 32 n).2 hn),
    fun n hn => hputs rfl ((widthError_eq_none 64 n).2 hn)⟩

theorem length_flushBytes (x : BitWriter) : x.flushBytes.length = x.flushed.settled - x.settled :=
  length_bytesOfBits ..

/-- Bit `k` of the bytes a flush writes is a bit of the padded stream (40_bitpack.md R225). -/
theorem bitAt_flushBytes {x : BitWriter} {k : Nat} (h : k < 8 * (x.flushed.settled - x.settled)) :
    bitAt x.flushBytes k = x.flushed.bits.getD (8 * x.settled + k) false := by
  rw [BitWriter.flushBytes, bitAt_bytesOfBits _ _ h, getD_drop]

/-- After a flush, bit `j` of byte `k` of the session's extent is bit `8*k + j` of the padded stream, from the old
`settled` to the new one (40_bitpack.md R225). -/
theorem getLsbD_read_flush (x : BitWriter) (mem : Memory) {k j : Nat} (hk : x.settled ≤ k)
    (hkm : k < x.flushed.settled) (hj : j < 8) :
    ((mem.writeBytes (x.base.toNat + x.settled) x.flushBytes).read (x.base.toNat + k)).getLsbD j =
      x.flushed.bits.getD (8 * k + j) false := by
  have hlen := length_flushBytes x
  rw [read_writeBytes, if_pos (by omega), show x.base.toNat + k - (x.base.toNat + x.settled) = k - x.settled by omega,
    BitWriter.flushBytes, getLsbD_getD_bytesOfBits _ _ (by omega) hj, getD_drop]
  congr 1
  omega

theorem exec_bwFlush (s : State) :
    exec .bwFlush s = runCommand { session := s.engine.bw.active } s fun u =>
      succeed { u with
        engine.bw := s.engine.bw.flushed
        engine.results.len := BitVec.ofNat 32 s.engine.bw.flushed.settled
        mem := u.mem.writeBytes (s.engine.bw.base.toNat + s.engine.bw.settled) s.engine.bw.flushBytes } := rfl

/-- Settles O38: the bytes written from the old `settled` on are those of the padded stream; that the session is sound
is not needed. -/
theorem writerFlush : Obligations.WriterFlush := by
  intro s hactive _ b pad bits m
  refine ⟨_, ends_of_checks (exec_bwFlush s) (checksPhase_session rfl hactive 0 0) rfl ⟨rfl, rfl, rfl, rfl⟩,
    fun k j hk hkm hj => getLsbD_read_flush b s.mem hk hkm hj, fun a ha => ?_⟩
  have hlen : b.flushBytes.length = m - b.settled := length_flushBytes b
  exact read_writeBytes_outside _ _ (hlen ▸ (contains_eq_false_iff _ _).1 ha)

/-! ### The bit reader -/

theorem ofNat_mod_two_pow (w n : Nat) : BitVec.ofNat w (n % 2 ^ w) = BitVec.ofNat w n :=
  BitVec.eq_of_toNat_eq (by rw [BitVec.toNat_ofNat, BitVec.toNat_ofNat, Nat.mod_mod])

/-- Settles O39: the bits that remain lie in the reader's extent, so the stream there gives them. -/
theorem readerGets : Obligations.ReaderGets := by
  intro s hactive b gets
  have hgets {i : Instr} {field : Option ErrorCode} {n : Nat}
      (hi : exec i s = runCommand { field := field, session := b.active } s (readBitsBody n)) (hf : field = none) :
      gets i n := by
    refine ⟨_, getBits (s.bytesOf b.extent) b.bitpos (b.deliverable n), getBits_lt _ _ _, fun j hj => ?_,
      ends_of_checks hi (checksPhase_session hf hactive 0 0) ?_ ⟨rfl, rfl, rfl, rfl⟩, fun _ => rfl⟩
    · have hdeliverable : b.deliverable n = min n (8 * b.len - b.bitpos) := rfl
      rw [testBit_getBits, decide_eq_true (by omega), Bool.true_and]
      exact bitAt_readBytes s.mem b.base.toNat b.len (by omega)
    · rw [ofNat_mod_two_pow]
      rfl
  exact ⟨hgets rfl rfl, fun n hn => hgets rfl ((widthError_eq_none 32 n).2 hn),
    fun n hn => hgets rfl ((widthError_eq_none 64 n).2 hn)⟩

/-! ### The bit writer and the bit reader are inverse -/

/-- The session after the puts of `ps`: each a value and its number of bits. -/
def BitWriter.putAll (x : BitWriter) (ps : List (Nat × Nat)) : BitWriter := ps.foldl (fun x p => x.put p.2 p.1) x

@[simp] theorem putAll_settled (x : BitWriter) (ps : List (Nat × Nat)) : (x.putAll ps).settled = x.settled := by
  induction ps generalizing x with
  | nil => rfl
  | cons p ps ih => exact ih (x.put p.2 p.1)

@[simp] theorem putAll_bitpos (x : BitWriter) (ps : List (Nat × Nat)) :
    (x.putAll ps).bitpos = x.bitpos + (ps.map Prod.snd).sum := by
  induction ps generalizing x with
  | nil => rfl
  | cons p ps ih =>
    rw [List.map_cons, List.sum_cons, ← Nat.add_assoc]
    exact ih (x.put p.2 p.1)

@[simp] theorem putAll_bits (x : BitWriter) (ps : List (Nat × Nat)) :
    (x.putAll ps).bits = x.bits ++ ps.flatMap fun p => bitsOf p.2 p.1 := by
  induction ps generalizing x with
  | nil => exact (List.append_nil _).symm
  | cons p ps ih =>
    rw [List.flatMap_cons, ← List.append_assoc]
    exact ih (x.put p.2 p.1)

theorem length_flatMap_bitsOf (ps : List (Nat × Nat)) :
    (ps.flatMap fun p => bitsOf p.2 p.1).length = (ps.map Prod.snd).sum := by
  simp [List.length_flatMap]

/-- Bit `j` of a value stands `j` places after the bits put before it (40_bitpack.md R222). -/
theorem getD_flatMap_bitsOf (before after : List (Nat × Nat)) {v n j : Nat} (hj : j < n) :
    ((before ++ (v, n) :: after).flatMap fun p => bitsOf p.2 p.1).getD ((before.map Prod.snd).sum + j) false =
      v.testBit j := by
  rw [List.flatMap_append, ← length_flatMap_bitsOf, List.getD_append_right _ _ _ _ (Nat.le_add_right _ _),
    Nat.add_sub_cancel_left, List.flatMap_cons, List.getD_append _ _ _ _ (by rwa [length_bitsOf]), getD_bitsOf n v j hj]

/-- Padding changes no bit of the stream (40_bitpack.md R225). -/
theorem getD_flushed_bits (x : BitWriter) {k : Nat} (h : k < x.bits.length) :
    x.flushed.bits.getD k false = x.bits.getD k false :=
  List.getD_append _ _ _ _ h

/-- Settles O40: bit `j` of the value put is bit `j` after the bits put before, and a flush from 0 writes the whole
stream. -/
theorem writerReaderInverse : Obligations.WriterReaderInverse := by
  intro base cap before after v n put x
  have hx : x = BitWriter.putAll ⟨true, base, cap, 0, [], 0⟩ (before ++ (v, n) :: after) := rfl
  set q := (before.map Prod.snd).sum
  have hsettled : x.settled = 0 := by rw [hx, putAll_settled]
  have hlen : x.flushBytes.length = x.flushed.settled := by rw [length_flushBytes, hsettled, Nat.sub_zero]
  have hbitpos : q + n ≤ x.bitpos := by
    rw [hx, putAll_bitpos, List.map_append, List.sum_append, List.map_cons, List.sum_cons]
    omega
  have hroom : x.bitpos ≤ 8 * x.flushed.settled := by
    rw [flushed_settled]
    omega
  have hbit (j : Nat) (hj : j < n) : bitAt x.flushBytes (q + j) = v.testBit j := by
    have hbits : x.bits.length = x.bitpos := by
      rw [hx, putAll_bits, putAll_bitpos, List.nil_append, length_flatMap_bitsOf, Nat.zero_add]
    rw [bitAt_flushBytes (by omega), hsettled, Nat.mul_zero, Nat.zero_add, getD_flushed_bits x (by omega), hx,
      putAll_bits, List.nil_append, getD_flatMap_bitsOf before after hj]
  refine ⟨?_, by omega, hlen⟩
  refine eq_of_testBit_lt (getBits_lt _ _ _) (Nat.mod_lt _ (Nat.two_pow_pos n)) fun j hj => ?_
  rw [testBit_getBits, Nat.testBit_mod_two_pow, hbit j hj]

end Sys2Proof.Machine
end

section
/-! ## The RLE hybrid

A run header and its run, the cursor of a decoder, that the decoder undoes the encoder, and the commands: the
statements of 41_rle.md. -/

namespace Sys2Proof.Machine

/-! ### One run -/

theorem readVarintFrom_pos_lt {V left scale u p v q : Nat} {inp : List Byte}
    (h : readVarintFrom V inp left scale u p = .ok (v, q)) : p < q := by
  induction left generalizing scale u p with
  | zero => cases h
  | succ left ih =>
    cases hb : inp[p]? with
    | none => simp [readVarintFrom, hb] at h
    | some b =>
      rw [readVarintFrom_of_byte hb] at h
      split_ifs at h
      · cases h
        exact Nat.lt_succ_self p
      · exact Nat.lt_of_succ_lt (ih h)

/-- A repeat run's header and its value (41_rle.md R272). -/
theorem readRun_rep {w pos p r : Nat} {inp : List Byte} (h : readVarint 32 inp pos = .ok (2 * r, p))
    (hfit : p + ceilDiv w 8 ≤ inp.length) :
    readRun w inp pos =
      .ok (if r = 0 then .none else .rep r (leValue ((inp.drop p).take (ceilDiv w 8))), p + ceilDiv w 8) := by
  simp only [readRun, h]
  rw [if_neg (by omega), if_neg (by omega), Nat.mul_div_cancel_left r two_pos]

/-- A packed run's header and its groups (41_rle.md R272). -/
theorem readRun_packed {w pos p g : Nat} {inp : List Byte} (h : readVarint 32 inp pos = .ok (2 * g + 1, p))
    (hfit : p + g * w ≤ inp.length) :
    readRun w inp pos = .ok (if g = 0 then .none else .packed (8 * g) p 0, p + g * w) := by
  have hhalf : (2 * g + 1) / 2 = g := by omega
  simp only [readRun, h, hhalf]
  rw [if_pos (by omega), if_neg (by omega)]

theorem readRun_pos_lt {w pos q : Nat} {inp : List Byte} {run : RleRun} (h : readRun w inp pos = .ok (run, q)) :
    pos < q := by
  unfold readRun at h
  split at h
  · cases h
  · next hv =>
    have hlt := readVarintFrom_pos_lt hv
    dsimp only at h
    split_ifs at h <;> cases h <;> omega

/-- A run that was read starts inside the input. -/
theorem readRun_pos_lt_length {w pos q : Nat} {inp : List Byte} {run : RleRun}
    (h : readRun w inp pos = .ok (run, q)) : pos < inp.length :=
  (readRun_pos_lt h).trans_le (readRun_sound h).1

/-! ### The cursor -/

theorem nextRun_at_end {w : Nat} {inp : List Byte} {c : RleCursor} (h : inp.length ≤ c.pos) (fuel : Nat) :
    nextRun w inp fuel c = (.ok false, c) := by
  cases fuel with
  | zero => rfl
  | succ fuel => exact if_pos h

theorem nextRun_of_skipped {w q : Nat} {inp : List Byte} {c : RleCursor} (h : readRun w inp c.pos = .ok (.none, q))
    (fuel : Nat) : nextRun w inp (fuel + 1) c = nextRun w inp fuel ⟨q, .none, true⟩ := by
  rw [nextRun, if_neg (readRun_pos_lt_length h).not_ge, h]

theorem nextRun_of_begun {w q : Nat} {inp : List Byte} {c : RleCursor} {run : RleRun}
    (h : readRun w inp c.pos = .ok (run, q)) (hrun : run ≠ .none) (fuel : Nat) :
    nextRun w inp (fuel + 1) c = (.ok true, ⟨q, run, c.recovered⟩) := by
  rw [nextRun, if_neg (readRun_pos_lt_length h).not_ge, h]
  cases run with
  | none => exact absurd rfl hrun
  | rep | packed => rfl

/-- The input that is left is fuel enough: more fuel changes nothing. -/
theorem nextRun_succ_fuel {w fuel : Nat} {inp : List Byte} {c : RleCursor} (h : inp.length ≤ fuel + c.pos) :
    nextRun w inp (fuel + 1) c = nextRun w inp fuel c := by
  induction fuel generalizing c with
  | zero => rw [nextRun_at_end (by omega), nextRun_at_end (by omega)]
  | succ fuel ih =>
    by_cases hend : inp.length ≤ c.pos
    · rw [nextRun_at_end hend, nextRun_at_end hend]
    · rcases hr : readRun w inp c.pos with e | ⟨run, q⟩
      · rw [nextRun, nextRun, if_neg hend, if_neg hend, hr]
      · have hlt := readRun_pos_lt hr
        by_cases hrun : run = .none
        · subst hrun
          rw [nextRun_of_skipped hr, nextRun_of_skipped hr, ih (by simp only; omega)]
        · rw [nextRun_of_begun hr hrun, nextRun_of_begun hr hrun]

@[simp] theorem value_of_no_run (w : Nat) (inp : List Byte) : RleRun.none.value w inp = none := rfl

theorem nextValue_of_value {w v : Nat} {inp : List Byte} {c : RleCursor} {run : RleRun}
    (h : c.run.value w inp = some (v, run)) : nextValue w inp c = (.ok (some v), { c with run := run }) := by
  rw [nextValue, h]

theorem nextValue_of_nextRun {w : Nat} {inp : List Byte} {c d : RleCursor} (hc : c.run = .none) (hd : d.run = .none)
    (h : nextRun w inp (inp.length + 1) c = nextRun w inp (inp.length + 1) d) :
    nextValue w inp c = nextValue w inp d := by
  simp only [nextValue, hc, hd, h, value_of_no_run]

/-- Where a run begins at the cursor, the next value is that run's. -/
theorem nextValue_of_begun {w q : Nat} {inp : List Byte} {c : RleCursor} {run : RleRun} (hc : c.run = .none)
    (h : readRun w inp c.pos = .ok (run, q)) (hrun : run ≠ .none) :
    nextValue w inp c = nextValue w inp ⟨q, run, c.recovered⟩ := by
  rw [nextValue, hc, value_of_no_run]
  simp only [nextRun_of_begun h hrun]
  cases run with
  | none => exact absurd rfl hrun
  | rep | packed => rfl

theorem nextValue_at_end {w : Nat} {inp : List Byte} {c : RleCursor} (hc : c.run = .none) (h : inp.length ≤ c.pos) :
    nextValue w inp c = (.ok none, c) := by
  simp only [nextValue, hc, value_of_no_run, nextRun_at_end h]

theorem nextValues_of_nextValue {w : Nat} {inp : List Byte} {c d : RleCursor}
    (h : nextValue w inp c = nextValue w inp d) (max : Nat) :
    nextValues w inp (max + 1) c = nextValues w inp (max + 1) d := by
  simp only [nextValues, h]

/-- One value asked for, where a run is current. -/
theorem nextValues_one {w v : Nat} {inp : List Byte} {c : RleCursor} {run : RleRun}
    (h : c.run.value w inp = some (v, run)) : nextValues w inp 1 c = (.ok [v], { c with run := run }) := by
  simp only [nextValues, nextValue_of_value h]

theorem nextValues_at_end {w : Nat} {inp : List Byte} {c : RleCursor} (hc : c.run = .none) (h : inp.length ≤ c.pos)
    (max : Nat) : nextValues w inp max c = (.ok [], c) := by
  cases max with
  | zero => rfl
  | succ max => simp only [nextValues, nextValue_at_end hc h]

/-- A header of 0 or 1 begins a run of count 0 (41_rle.md R272, R275). -/
theorem readRun_of_zero_count {w pos p h : Nat} {inp : List Byte} (hh : readVarint 32 inp pos = .ok (h, p))
    (hle : h ≤ 1) (hdata : h = 0 → p + ceilDiv w 8 ≤ inp.length) (hp : p ≤ inp.length) :
    readRun w inp pos = .ok (.none, if h = 0 then p + ceilDiv w 8 else p) := by
  obtain rfl | rfl := Nat.le_one_iff_eq_zero_or_eq_one.1 hle
  · exact readRun_rep (r := 0) hh (hdata rfl)
  · simpa using readRun_packed (w := w) (g := 0) hh (by omega)

/-- Settles O45: the header's run is skipped, and the fuel that is left serves the rest of the input. -/
theorem rleZeroRun : Obligations.RleZeroRun := by
  intro w pos p h inp max skipped _ hh hle hdata hp
  have hrun := readRun_of_zero_count hh hle hdata hp
  refine nextValues_of_nextValue (nextValue_of_nextRun rfl rfl ?_) max
  rw [nextRun_of_skipped (c := ⟨pos, .none, skipped⟩) hrun]
  exact (nextRun_succ_fuel (Nat.le_add_right _ _)).symm

/-! ### The values a cursor still gives -/

/-- The decoder at the cursor gives exactly these values and then meets END, without an error and without a
zero-count run (41_rle.md R273 to R275). -/
def Yields (w : Nat) (inp : List Byte) (c : RleCursor) (vs : List Nat) : Prop :=
  ∀ max, ∃ d, nextValues w inp max c = (.ok (vs.take max), d) ∧ d.recovered = c.recovered

theorem Yields.at_end {w : Nat} {inp : List Byte} {c : RleCursor} (hc : c.run = .none) (h : inp.length ≤ c.pos) :
    Yields w inp c [] := fun max => ⟨c, by rw [nextValues_at_end hc h, List.take_nil], rfl⟩

theorem Yields.cons {w v : Nat} {inp : List Byte} {c : RleCursor} {run : RleRun} {vs : List Nat}
    (hv : c.run.value w inp = some (v, run)) (h : Yields w inp { c with run := run } vs) :
    Yields w inp c (v :: vs) := by
  intro max
  cases max with
  | zero => exact ⟨c, rfl, rfl⟩
  | succ max =>
    obtain ⟨d, hd, hrec⟩ := h max
    exact ⟨d, by simp only [nextValues, nextValue_of_value hv, hd, List.take_succ_cons], hrec⟩

/-- A repeat run gives its value as often as its count says. -/
theorem Yields.rep {w pos r v : Nat} {inp : List Byte} {b : Bool} {vs : List Nat} (hr : 1 ≤ r)
    (h : Yields w inp ⟨pos, .none, b⟩ vs) : Yields w inp ⟨pos, .rep r v, b⟩ (List.replicate r v ++ vs) := by
  induction r, hr using Nat.le_induction with
  | base => exact .cons rfl h
  | succ r hr ih =>
    refine .cons (run := .rep r v) ?_ ih
    rw [RleRun.value, if_neg (by omega), Nat.add_sub_cancel]

/-- A packed run gives the values of its data from the next one on. -/
theorem Yields.packed {w pos r d i : Nat} {inp : List Byte} {b : Bool} {vs : List Nat} (hr : 1 ≤ r)
    (h : Yields w inp ⟨pos, .none, b⟩ vs) :
    Yields w inp ⟨pos, .packed r d i, b⟩ (unpackBitsAt inp w (8 * d + i * w) r ++ vs) := by
  induction r, hr using Nat.le_induction generalizing i with
  | base => exact .cons rfl h
  | succ r hr ih =>
    refine .cons (run := .packed r d (i + 1)) ?_ ?_
    · rw [RleRun.value, if_neg (by omega), Nat.add_sub_cancel]
    · rw [Nat.add_assoc, ← Nat.succ_mul]
      exact ih

/-- A decoder without a current run gives what it gives once the run at the cursor has begun. -/
theorem Yields.of_readRun {w pos q : Nat} {inp : List Byte} {b : Bool} {run : RleRun} {vs : List Nat}
    (hr : readRun w inp pos = .ok (run, q)) (hrun : run ≠ .none) (h : Yields w inp ⟨q, run, b⟩ vs) :
    Yields w inp ⟨pos, .none, b⟩ vs := by
  intro max
  cases max with
  | zero => exact ⟨_, rfl, rfl⟩
  | succ max =>
    rw [nextValues_of_nextValue (nextValue_of_begun rfl hr hrun)]
    exact h (max + 1)

/-! ### The runs the encoder writes -/

/-- A repeat run as the encoder writes it (41_rle.md R270). -/
def repRun (w r v : Nat) : List Byte := varint (2 * r) ++ leBytes (ceilDiv w 8) v

/-- A packed run of `g` groups as the encoder writes it (41_rle.md R270). -/
def packedRun (w g : Nat) (vs : List Nat) : List Byte := varint (2 * g + 1) ++ packBits w vs

theorem rleEncodeFrom_nil (w fuel : Nat) : rleEncodeFrom w fuel [] = [] := by cases fuel <;> rfl

theorem rleEncodeFrom_of_rep {w fuel v : Nat} {vs : List Nat} (h : 8 ≤ runLen (v :: vs)) :
    rleEncodeFrom w (fuel + 1) (v :: vs) = repRun w (min (runLen (v :: vs)) (2 ^ 31 - 1)) v ++
      rleEncodeFrom w fuel ((v :: vs).drop (min (runLen (v :: vs)) (2 ^ 31 - 1))) := if_pos h

theorem rleEncodeFrom_of_packed {w fuel v : Nat} {vs : List Nat} (h : ¬8 ≤ runLen (v :: vs)) :
    rleEncodeFrom w (fuel + 1) (v :: vs) =
      packedRun w (packedGroups 63 (v :: vs)) (takePadded (8 * packedGroups 63 (v :: vs)) (v :: vs)) ++
        rleEncodeFrom w fuel ((v :: vs).drop (8 * packedGroups 63 (v :: vs))) := if_neg h

/-- A list starts with as many copies of its first value as `runLen` says (41_rle.md R270). -/
theorem take_eq_replicate_of_le_runLen {v n : Nat} {vs : List Nat} (h : n ≤ runLen (v :: vs)) :
    (v :: vs).take n = List.replicate n v := by
  have hsplit : v :: vs = (v :: vs.takeWhile (· == v)) ++ vs.dropWhile (· == v) := by
    rw [List.cons_append, List.takeWhile_append_dropWhile]
  have hlen : n ≤ (v :: vs.takeWhile (· == v)).length := by rwa [List.length_cons, Nat.add_comm]
  refine List.eq_replicate_iff.2 ⟨?_, fun x hx => ?_⟩
  · rw [hsplit, List.take_append_of_le_length hlen, List.length_take, Nat.min_eq_left hlen]
  · rw [hsplit, List.take_append_of_le_length hlen] at hx
    rcases List.mem_cons.1 (List.mem_of_mem_take hx) with rfl | hx
    · rfl
    · exact beq_iff_eq.1 (List.mem_takeWhile_imp (p := (· == v)) hx)

theorem packedGroups_le (left : Nat) (vs : List Nat) : packedGroups left vs ≤ left := by
  induction left generalizing vs with
  | zero => exact le_rfl
  | succ left ih =>
    have := ih (vs.drop 8)
    simp only [packedGroups]
    split <;> omega

theorem packedGroups_pos (left : Nat) (vs : List Nat) : 1 ≤ packedGroups (left + 1) vs := by
  simp only [packedGroups]
  split <;> omega

/-- Only the last group of a packed run can be short of values (41_rle.md R270). -/
theorem packedGroups_length {left : Nat} {vs : List Nat} (h : vs ≠ []) :
    8 * packedGroups left vs < vs.length + 8 := by
  induction left generalizing vs with
  | zero => simp [packedGroups]
  | succ left ih =>
    have hpos := List.length_pos_iff.2 h
    simp only [packedGroups]
    split
    · omega
    · next hgo =>
      have hne : vs.drop 8 ≠ [] := fun hnil => hgo (by simp [hnil])
      have hrest := ih hne
      have := List.length_pos_iff.2 hne
      rw [List.length_drop] at *
      omega

theorem takePadded_of_le {n : Nat} {vs : List Nat} (h : n ≤ vs.length) : takePadded n vs = vs.take n := by
  rw [takePadded, Nat.sub_eq_zero_of_le h, List.replicate_zero, List.append_nil]

theorem takePadded_of_ge {n : Nat} {vs : List Nat} (h : vs.length ≤ n) :
    takePadded n vs = vs ++ List.replicate (n - vs.length) 0 := by rw [takePadded, List.take_of_length_le h]

@[simp] theorem length_takePadded (n : Nat) (vs : List Nat) : (takePadded n vs).length = n := by
  rw [takePadded, List.length_append, List.length_take, List.length_replicate]
  omega

theorem takePadded_lt (n : Nat) {w : Nat} {vs : List Nat} (h : ∀ v ∈ vs, v < 2 ^ w) :
    ∀ v ∈ takePadded n vs, v < 2 ^ w := by
  intro v hv
  rcases List.mem_append.1 hv with hv | hv
  · exact h v (List.mem_of_mem_take hv)
  · rw [List.eq_of_mem_replicate hv]
    exact Nat.two_pow_pos w

/-- A bit of a byte string that stands between two others. -/
theorem bitAt_between (before bs after : List Byte) {k : Nat} (h : k < 8 * bs.length) :
    bitAt (before ++ bs ++ after) (8 * before.length + k) = bitAt bs k := by
  rw [bitAt, bitAt, show (8 * before.length + k) / 8 = before.length + k / 8 by omega,
    show (8 * before.length + k) % 8 = k % 8 by omega, List.append_assoc,
    List.getD_append_right _ _ _ _ (Nat.le_add_right _ _), Nat.add_sub_cancel_left, List.getD_append _ _ _ _ (by omega)]

theorem unpackBitsAt_between (before bs after : List Byte) {w n : Nat} (h : n * w ≤ 8 * bs.length) :
    unpackBitsAt (before ++ bs ++ after) w (8 * before.length) n = unpackBits bs n w := by
  refine list_ext_getD 0 (by simp) fun i hi => Nat.eq_of_testBit_eq fun j => ?_
  rw [length_unpackBitsAt] at hi
  rw [getD_unpackBitsAt _ _ _ _ hi, testBit_getBits, testBit_getD_unpackBits _ _ hi]
  by_cases hj : j < w
  · rw [Nat.add_assoc, bitAt_between _ _ _ ((bitPlace_lt hi hj).trans_le h)]
  · simp [hj]

/-- A header of the encoder's is read back, whatever follows (20_memory.md R124). -/
theorem readVarint_header {u : Nat} (before after : List Byte) (h : u < 2 ^ 32) :
    readVarint 32 (before ++ varint u ++ after) before.length = .ok (u, (before ++ varint u).length) := by
  rw [List.length_append]
  exact varintRoundTrip 32 u before after (.inl rfl) h

/-- A repeat run whose value stands right after its header. -/
theorem readRun_rep_of_data {w pos r : Nat} {before data after : List Byte} (hr : 1 ≤ r)
    (h : readVarint 32 (before ++ data ++ after) pos = .ok (2 * r, before.length)) (hlen : data.length = ceilDiv w 8) :
    readRun w (before ++ data ++ after) pos = .ok (.rep r (leValue data), (before ++ data).length) := by
  have hfit : before.length + ceilDiv w 8 ≤ (before ++ data ++ after).length := by
    simp only [List.length_append]
    omega
  rw [readRun_rep h hfit, if_neg (by omega), ← hlen, List.append_assoc, List.drop_left, List.take_left,
    List.length_append]

/-- A packed run whose groups stand right after its header. -/
theorem readRun_packed_of_data {w pos g : Nat} {before data after : List Byte} (hg : 1 ≤ g)
    (h : readVarint 32 (before ++ data ++ after) pos = .ok (2 * g + 1, before.length)) (hlen : data.length = g * w) :
    readRun w (before ++ data ++ after) pos = .ok (.packed (8 * g) before.length 0, (before ++ data).length) := by
  have hfit : before.length + g * w ≤ (before ++ data ++ after).length := by
    simp only [List.length_append]
    omega
  rw [readRun_packed h hfit, if_neg (by omega), ← hlen, List.length_append]

theorem two_pow_le_pow_ceilDiv (w : Nat) : 2 ^ w ≤ 256 ^ ceilDiv w 8 := by
  rw [show (256 : Nat) = 2 ^ 8 from rfl, ← pow_mul]
  exact Nat.pow_le_pow_right two_pos (by rw [ceilDiv]; omega)

/-- The decoder reads a repeat run of the encoder's as that run (41_rle.md R270, R272). -/
theorem readRun_repRun {w r v : Nat} (before after : List Byte) (hr : 1 ≤ r) (hlt : r < 2 ^ 31) (hv : v < 2 ^ w) :
    readRun w (before ++ repRun w r v ++ after) before.length = .ok (.rep r v, (before ++ repRun w r v).length) := by
  have hheader := readVarint_header (u := 2 * r) before (leBytes (ceilDiv w 8) v ++ after) (by omega)
  rw [← List.append_assoc] at hheader
  rw [repRun, ← List.append_assoc before, readRun_rep_of_data hr hheader (length_leBytes ..),
    leValue_leBytes _ _ (hv.trans_le (two_pow_le_pow_ceilDiv w))]

/-- The decoder reads a packed run of the encoder's as that run (41_rle.md R270, R272). -/
theorem readRun_packedRun {w g : Nat} {ws : List Nat} (before after : List Byte) (hg : 1 ≤ g) (hle : g ≤ 63)
    (hlen : ws.length = 8 * g) :
    readRun w (before ++ packedRun w g ws ++ after) before.length =
      .ok (.packed (8 * g) (before ++ varint (2 * g + 1)).length 0, (before ++ packedRun w g ws).length) := by
  have hheader := readVarint_header (u := 2 * g + 1) before (packBits w ws ++ after) (by omega)
  have hbytes : (packBits w ws).length = g * w := by
    rw [length_packBits, hlen, Nat.mul_assoc, ceilDiv]
    omega
  rw [← List.append_assoc] at hheader
  rw [packedRun, ← List.append_assoc before, readRun_packed_of_data hg hheader hbytes]

/-- The data of a packed run of the encoder's, unpacked. -/
theorem unpackBitsAt_packedRun {w g : Nat} {ws : List Nat} (before after : List Byte) (hws : ∀ v ∈ ws, v < 2 ^ w) :
    unpackBitsAt (before ++ packedRun w g ws ++ after) w (8 * (before ++ varint (2 * g + 1)).length) ws.length =
      ws := by
  rw [packedRun, ← List.append_assoc before, unpackBitsAt_between _ _ _ (by rw [length_packBits, ceilDiv]; omega),
    unpackBits_packBits]
  exact (List.map_congr_left fun v hv => Nat.mod_eq_of_lt (hws v hv)).trans (List.map_id _)

/-- A repeat run of the encoder's gives its value as often as its count says. -/
theorem Yields.of_repRun {w r v : Nat} {before after : List Byte} {b : Bool} {vs : List Nat} (hr : 1 ≤ r)
    (hlt : r < 2 ^ 31) (hv : v < 2 ^ w)
    (h : Yields w (before ++ repRun w r v ++ after) ⟨(before ++ repRun w r v).length, .none, b⟩ vs) :
    Yields w (before ++ repRun w r v ++ after) ⟨before.length, .none, b⟩ (List.replicate r v ++ vs) :=
  .of_readRun (readRun_repRun before after hr hlt hv) (by simp) (.rep hr h)

/-- A packed run of the encoder's gives its values. -/
theorem Yields.of_packedRun {w g : Nat} {ws : List Nat} {before after : List Byte} {b : Bool} {vs : List Nat}
    (hg : 1 ≤ g) (hle : g ≤ 63) (hlen : ws.length = 8 * g) (hws : ∀ v ∈ ws, v < 2 ^ w)
    (h : Yields w (before ++ packedRun w g ws ++ after) ⟨(before ++ packedRun w g ws).length, .none, b⟩ vs) :
    Yields w (before ++ packedRun w g ws ++ after) ⟨before.length, .none, b⟩ (ws ++ vs) := by
  have hdata := unpackBitsAt_packedRun (g := g) before after hws
  have hvalues := Yields.packed (i := 0) (d := (before ++ varint (2 * g + 1)).length) (r := 8 * g) (by omega) h
  rw [Nat.zero_mul, Nat.add_zero (8 * _), ← hlen, hdata, hlen] at hvalues
  exact .of_readRun (readRun_packedRun before after hg hle hlen) (by simp) hvalues

/-- After any bytes, the decoder over what the encoder's loop wrote gives its values, then fewer than 8 pad zeros, then
END (41_rle.md R290). -/
def DecodesBack (w fuel : Nat) (vs : List Nat) : Prop :=
  ∀ (before : List Byte) (b : Bool), ∃ pad < 8,
    Yields w (before ++ rleEncodeFrom w fuel vs) ⟨before.length, .none, b⟩ (vs ++ List.replicate pad 0)

theorem decodesBack_nil (w fuel : Nat) : DecodesBack w fuel [] := fun before b =>
  ⟨0, by decide, .at_end rfl (by simp [rleEncodeFrom_nil])⟩

theorem decodesBack_of_rep {w fuel v : Nat} {vs : List Nat} (hrun : 8 ≤ runLen (v :: vs)) (hv : v < 2 ^ w)
    (hrest : ∀ n, 1 ≤ n → DecodesBack w fuel ((v :: vs).drop n)) : DecodesBack w (fuel + 1) (v :: vs) := by
  intro before b
  rw [rleEncodeFrom_of_rep hrun, ← List.append_assoc]
  generalize hr : min (runLen (v :: vs)) (2 ^ 31 - 1) = r
  obtain ⟨pad, hpad, hrest⟩ := hrest r (by omega) (before ++ repRun w r v) b
  have hall := Yields.of_repRun (by omega) (by omega) hv hrest
  rw [← take_eq_replicate_of_le_runLen (vs := vs) (by omega), ← List.append_assoc, List.take_append_drop] at hall
  exact ⟨pad, hpad, hall⟩

/-- Where values are left for all groups of a packed run, it gives them as they are; where the values end in its last
group, the zeros that fill it come after them. -/
theorem decodesBack_of_packed {w fuel v : Nat} {vs : List Nat} (hrun : ¬8 ≤ runLen (v :: vs))
    (hvs : ∀ x ∈ v :: vs, x < 2 ^ w) (hrest : ∀ n, 1 ≤ n → DecodesBack w fuel ((v :: vs).drop n)) :
    DecodesBack w (fuel + 1) (v :: vs) := by
  intro before b
  rw [rleEncodeFrom_of_packed hrun, ← List.append_assoc]
  have hpos := packedGroups_pos 62 (v :: vs)
  have hle := packedGroups_le 63 (v :: vs)
  have hshort := packedGroups_length (left := 63) (List.cons_ne_nil v vs)
  generalize packedGroups 63 (v :: vs) = g at *
  have hlen := length_takePadded (8 * g) (v :: vs)
  have hws := takePadded_lt (8 * g) hvs
  rcases le_total (8 * g) (v :: vs).length with hfull | hpart
  · rw [takePadded_of_le hfull] at hlen hws ⊢
    obtain ⟨pad, hpad, hrest⟩ := hrest (8 * g) (by omega) (before ++ packedRun w g ((v :: vs).take (8 * g))) b
    have hall := Yields.of_packedRun hpos hle hlen hws hrest
    rw [← List.append_assoc (List.take _ _), List.take_append_drop] at hall
    exact ⟨pad, hpad, hall⟩
  · rw [takePadded_of_ge hpart] at hlen hws ⊢
    rw [List.drop_of_length_le hpart, rleEncodeFrom_nil]
    have hall := Yields.of_packedRun (before := before) (after := []) (b := b) hpos hle hlen hws (.at_end rfl (by simp))
    rw [List.append_nil ((v :: vs) ++ _)] at hall
    exact ⟨8 * g - (v :: vs).length, by omega, hall⟩

theorem decodesBack_of_fuel {w fuel : Nat} {vs : List Nat} (hfuel : vs.length ≤ fuel) (hvs : ∀ v ∈ vs, v < 2 ^ w) :
    DecodesBack w fuel vs := by
  induction fuel generalizing vs with
  | zero =>
    obtain rfl := List.eq_nil_of_length_eq_zero (Nat.le_zero.1 hfuel)
    exact decodesBack_nil w 0
  | succ fuel ih =>
    cases vs with
    | nil => exact decodesBack_nil w (fuel + 1)
    | cons v vs =>
      have hrest (n : Nat) (hn : 1 ≤ n) : DecodesBack w fuel ((v :: vs).drop n) := by
        refine ih ?_ fun x hx => hvs x (List.mem_of_mem_drop hx)
        rw [List.length_drop]
        omega
      by_cases hrun : 8 ≤ runLen (v :: vs)
      · exact decodesBack_of_rep hrun (hvs v List.mem_cons_self) hrest
      · exact decodesBack_of_packed hrun hvs hrest

/-- Settles O42: run by run of the encoder's loop, nothing standing before the stream; that the width is at most 32 is
not needed. -/
theorem rleRoundTrip : Obligations.RleRoundTrip := by
  intro w vs _
  have hlt : ∀ v ∈ vs.map (· % 2 ^ w), v < 2 ^ w := fun v hv => by
    obtain ⟨u, -, rfl⟩ := List.mem_map.1 hv
    exact Nat.mod_lt u (Nat.two_pow_pos w)
  exact decodesBack_of_fuel (List.length_map _).le hlt [] false

/-! ### The commands -/

/-- Settles O41: the output fits, so it is delivered. -/
theorem rleEncodeCommand : Obligations.RleEncodeCommand := by
  intro w s p n out hw hready hfit
  have hexec : exec (.rleEnc w) s = _ := execRleEnc_of_ready hw hready
  have hends := ends_of_deliver hexec (others_refl s) hfit
  rw [Results.counted, BitVec.ofNat_toNat] at hends
  exact ⟨_, hends, deliver_holds _ s hfit⟩

theorem length_elements (e : Nat) (vs : List Nat) : (vs.flatMap (leBytes e)).length = e * vs.length := by
  rw [length_flatMap_leBytes, Nat.mul_comm]

/-- Where there is room for all the values asked for, there is for those that came. -/
theorem length_elements_le_of_nextValues {w e max n : Nat} {inp : List Byte} {c d : RleCursor} {vs : List Nat}
    (h : nextValues w inp max c = (.ok vs, d)) (hroom : e * max ≤ n) : (vs.flatMap (leBytes e)).length ≤ n := by
  rw [length_elements]
  exact (Nat.mul_le_mul_left e (nextValues_length h)).trans hroom

/-- Settles O46: the headers are well-formed, so the values are delivered. -/
theorem rleLevels : Obligations.RleLevels := by
  intro w s vs c p max hw hready hfound
  have hchecks := hready.checks ((widthError_eq_none 16 w).2 hw) (sizes := [2 * max]) (by simp [max])
  have hfit := length_elements_le_of_nextValues hfound hready.dst_room
  have hexec : exec (.rleDecLevels16 w) s = .next (deliver s.operands.dst (vs.flatMap (leBytes 2))
      (s.engine.results.counted c.pos vs.length) (recover c.recovered s)) := by
    have hvalues : nextValues w.toNat (s.bytesOf s.operands.src) max ⟨0, .none, false⟩ = (.ok vs, c) := hfound
    dsimp only [exec, execRleDecLevels16]
    rw [runCommand_of_checks hchecks, hvalues]
  have hends := ends_of_deliver hexec (others_refl s) hfit
  rw [length_elements] at hends
  exact ⟨_, hends, deliver_holds _ _ hfit⟩

/-- The state a session command goes on with: the session at its new cursor and SRC_USED set (41_rle.md R281). -/
def State.tookValues (s : State) (c : RleCursor) : State :=
  { recover c.recovered s with
    engine := { (recover c.recovered s).engine with
      rle := s.engine.rle.moved c
      results := { (recover c.recovered s).engine.results with used := BitVec.ofNat 32 c.pos } } }

section

variable {s : State} {max : Nat} {dst : Extent} {c : RleCursor}

theorem withRleValues_ok {vs : List Nat} (k : List Nat → State → State)
    (h : nextValues s.engine.rle.w (s.bytesOf s.engine.rle.extent) max s.engine.rle.cursor = (.ok vs, c)) :
    withRleValues max dst s k = k vs (s.tookValues c) := by
  rcases withRleValues_cases max dst s k with ⟨e, d, hd, -⟩ | ⟨us, d, hd, heq⟩
  · cases h.symm.trans hd
  · cases h.symm.trans hd
    exact heq

theorem withRleValues_error {e : ErrorCode} (k : List Nat → State → State)
    (h : nextValues s.engine.rle.w (s.bytesOf s.engine.rle.extent) max s.engine.rle.cursor = (.error e, c)) :
    withRleValues max dst s k = raiseRle e dst (recover c.recovered s) := by
  rcases withRleValues_cases max dst s k with ⟨f, d, hd, heq⟩ | ⟨us, d, hd, -⟩
  · cases h.symm.trans hd
    exact heq
  · cases h.symm.trans hd

/-- A session command on a malformed header ends with its error and ends the session (41_rle.md R283). -/
theorem endsInError_of_rleValues {i : Instr} {e : ErrorCode} {d : Demand} {k : List Nat → State → State}
    (hi : exec i s = runCommand d s fun u => withRleValues max dst u k) (hchecks : checksPhase s.platform d = none)
    (h : nextValues s.engine.rle.w (s.bytesOf s.engine.rle.extent) max s.engine.rle.cursor = (.error e, c)) :
    ∃ t, (EndsInError i s t e ∧ t.engine.rle = { s.engine.rle with active := false } ∧ t.engine.bw = s.engine.bw ∧
      t.engine.br = s.engine.br) ∧ SameOutside s t dst := by
  rw [runCommand_of_checks hchecks, withRleValues_error k h] at hi
  exact ⟨_, ⟨⟨hi, ⟨rfl, rfl, rfl, rfl⟩, rfl, rfl, rfl, rfl, rfl⟩, rfl, rfl, rfl⟩,
    fun _ ha => raise_read e dst (recover c.recovered s) ha⟩

end

theorem sameMemory_of_sameOutside_empty {s t : State} (h : SameOutside s t ⟨0, 0⟩) : SameMemory s t :=
  fun a => h a ((contains_eq_false_iff _ _).2 (.inr (Nat.zero_le a)))

theorem exec_rleDecGet (s : State) :
    exec .rleDecGet s = runCommand { session := s.engine.rle.active } s fun u =>
      withRleValues 1 ⟨0, 0⟩ u fun vs t => succeed { t with
        engine.results.count := BitVec.ofNat 32 vs.length
        engine.results.val := BitVec.ofNat 32 (vs.headD 0)
        engine.results.valHi := 0 } := rfl

theorem exec_rleDecSkip (s : State) :
    exec .rleDecSkip s = runCommand { session := s.engine.rle.active } s fun u =>
      withRleValues s.operands.count.toNat ⟨0, 0⟩ u fun vs t =>
        succeed { t with engine.results.count := BitVec.ofNat 32 vs.length } := rfl

theorem exec_rleDecBatch (s : State) :
    exec .rleDecBatch s =
      runCommand
        { session := s.engine.rle.active
          extents := [s.operands.dst]
          sizes := [4 * s.operands.count.toNat]
          pairs := [(s.engine.rle.extent, s.operands.dst)]
          room := s.operands.dstCap.toNat
          needRoom := 4 * s.operands.count.toNat } s fun u =>
        withRleValues s.operands.count.toNat s.operands.dst u fun vs t =>
          deliver s.operands.dst (vs.flatMap (leBytes 4))
            { t.engine.results with count := BitVec.ofNat 32 vs.length } t := rfl

/-- The checks of RLE_DEC_BATCH (41_rle.md R285, 30_encoding.md R170). -/
theorem checksPhase_rleDecBatch {s : State} {n : Nat} (hactive : s.engine.rle.active = true)
    (hdst : Usable s s.operands.dst) (hapart : Apart s.engine.rle.extent s.operands.dst) (hsize : 4 * n < 2 ^ 32)
    (hroom : 4 * n ≤ s.operands.dstCap.toNat) :
    checksPhase s.platform
      { session := s.engine.rle.active
        extents := [s.operands.dst]
        sizes := [4 * n]
        pairs := [(s.engine.rle.extent, s.operands.dst)]
        room := s.operands.dstCap.toNat
        needRoom := 4 * n } = none := by
  have hreach := ((usable_iff s _).1 hdst).2
  rw [checksPhase_eq_none_iff]
  exact ⟨rfl, hactive, List.forall_mem_singleton.2 hdst.1, List.forall_mem_singleton.2 hsize, List.forall_mem_nil _,
    le_rfl, List.forall_mem_singleton.2 hapart, List.forall_mem_singleton.2 hreach, hroom⟩

/-- RLE_DEC_GET with the value it finds, or at END (41_rle.md R284). -/
theorem rleDecGet_ends {s : State} {vs : List Nat} {c : RleCursor} (hactive : s.engine.rle.active = true)
    (h : nextValues s.engine.rle.w (s.bytesOf s.engine.rle.extent) 1 s.engine.rle.cursor = (.ok vs, c)) :
    ∃ t, Ends .rleDecGet s t ((s.tookValues c).engine.finished { (s.tookValues c).engine.results with
        count := BitVec.ofNat 32 vs.length, val := BitVec.ofNat 32 (vs.headD 0), valHi := 0 }) ∧ SameMemory s t := by
  have hexec := (exec_rleDecGet s).trans (runCommand_of_checks (checksPhase_session rfl hactive 0 0))
  rw [withRleValues_ok _ h] at hexec
  exact ⟨_, ⟨hexec, rfl, rfl, rfl, rfl, rfl⟩, fun _ => rfl⟩

/-- The engine after values of which none stood behind a zero-count run. -/
theorem tookValues_engine_of_not_recovered {s : State} {pos : Nat} {run : RleRun} :
    (s.tookValues ⟨pos, run, false⟩).engine = { s.engine with
      rle := { s.engine.rle with pos := pos, run := run }
      results := { s.engine.results with used := BitVec.ofNat 32 pos } } := by
  simp only [State.tookValues, recover, Bool.or_false]
  rfl

/-- Settles O43: a current run gives its value without a header, and without a run or a header there is none. -/
theorem rleGet : Obligations.RleGet := by
  intro s hactive x gives
  have hgives {v : Nat} {run : RleRun} (h : x.run.value x.w (s.bytesOf x.extent) = some (v, run)) : gives 1 v run := by
    have hget := rleDecGet_ends hactive (nextValues_one (c := x.cursor) h)
    rw [show { x.cursor with run := run } = (⟨x.pos, run, false⟩ : RleCursor) from rfl,
      tookValues_engine_of_not_recovered] at hget
    exact hget
  refine ⟨fun r v hrun => hgives (by rw [hrun]; rfl), fun r d k hrun hdata => ?_, fun hrun hend => ?_⟩
  · refine ⟨getBits (s.bytesOf x.extent) (8 * d + k * x.w) x.w, getBits_lt _ _ _, fun j hj => ?_,
      hgives (by rw [hrun]; rfl)⟩
    rw [Nat.succ_mul k] at hdata
    rw [testBit_getBits, decide_eq_true hj, Bool.true_and]
    exact bitAt_readBytes s.mem x.base.toNat x.len (by omega)
  · have hlen : (s.bytesOf x.extent).length ≤ x.cursor.pos := (length_readBytes ..).trans_le hend
    have hget := rleDecGet_ends hactive (nextValues_at_end (c := x.cursor) hrun hlen 1)
    rw [show x.cursor = ⟨x.pos, .none, false⟩ by rw [RleSession.cursor, hrun], tookValues_engine_of_not_recovered]
      at hget
    exact hget

/-- Settles O44: each of the three commands passes its checks and goes on with the values, or ends on the header. -/
theorem rleSessionCommands : Obligations.RleSessionCommands := by
  intro s max c hactive p x found moved results stops
  have hsession := checksPhase_session (p := s.platform) rfl hactive 0 0
  refine ⟨fun vs hfound => ⟨?_, ?_, ?_⟩, fun e hfound => ⟨?_, ?_, ?_⟩⟩
  · rintro rfl
    exact rleDecGet_ends hactive hfound
  · rintro rfl
    have hexec := (exec_rleDecSkip s).trans (runCommand_of_checks hsession)
    rw [withRleValues_ok _ hfound] at hexec
    exact ⟨_, ⟨hexec, rfl, rfl, rfl, rfl, rfl⟩, fun _ => rfl⟩
  · rintro rfl hdst hapart hsize hroom
    have hexec := (exec_rleDecBatch s).trans
      (runCommand_of_checks (checksPhase_rleDecBatch hactive hdst hapart hsize hroom))
    rw [withRleValues_ok _ hfound] at hexec
    have hfit := length_elements_le_of_nextValues hfound hroom
    have hends := ends_of_deliver hexec ⟨rfl, rfl, rfl, rfl⟩ hfit
    rw [length_elements] at hends
    exact ⟨_, hends, deliver_holds _ (s.tookValues c) hfit⟩
  · rintro rfl
    obtain ⟨t, hstops, hmem⟩ := endsInError_of_rleValues (exec_rleDecGet s) hsession hfound
    exact ⟨t, hstops, sameMemory_of_sameOutside_empty hmem⟩
  · rintro rfl
    obtain ⟨t, hstops, hmem⟩ := endsInError_of_rleValues (exec_rleDecSkip s) hsession hfound
    exact ⟨t, hstops, sameMemory_of_sameOutside_empty hmem⟩
  · rintro rfl hdst hapart hsize hroom
    exact endsInError_of_rleValues (exec_rleDecBatch s) (checksPhase_rleDecBatch hactive hdst hapart hsize hroom) hfound

end Sys2Proof.Machine
end

section
/-! ## The delta codec

What the parts of the encoder and the decoder do, mini-block by mini-block and block by block, that decoding undoes
encoding, and the commands of both: the statements of 42_delta.md. -/

namespace Sys2Proof.Machine

/-! ### Differences and the values they lead to -/

theorem subMod_lt (W a b : Nat) : subMod W a b < 2 ^ W := Nat.mod_lt _ (Nat.two_pow_pos W)

/-- Adding a difference back (42_delta.md R321). -/
theorem add_subMod (W : Nat) {a b : Nat} (c : Nat) (hb : b < 2 ^ W) :
    (c + b + subMod W a b) % 2 ^ W = (c + a) % 2 ^ W := by
  rw [subMod, Nat.add_mod_mod, show c + b + (a + 2 ^ W - b) = c + a + 2 ^ W by omega, Nat.add_mod_right]

theorem deltasOf_lt (W : Nat) : ∀ us : List Nat, ∀ d ∈ deltasOf W us, d < 2 ^ W
  | [] | [_] => List.forall_mem_nil _
  | u :: v :: rest => List.forall_mem_cons.2 ⟨subMod_lt W v u, deltasOf_lt W (v :: rest)⟩

@[simp] theorem length_deltasOf_cons (W u : Nat) (us : List Nat) : (deltasOf W (u :: us)).length = us.length := by
  induction us generalizing u with
  | nil => rfl
  | cons v us ih => rw [deltasOf, List.length_cons, ih, List.length_cons]

/-- The values that these deltas lead to, from the value `v` on (42_delta.md R321). -/
def valuesFrom (W : Nat) : Nat → List Nat → List Nat
  | _, [] => []
  | v, d :: ds => (v + d) % 2 ^ W :: valuesFrom W ((v + d) % 2 ^ W) ds

@[simp] theorem length_valuesFrom (W v : Nat) (ds : List Nat) : (valuesFrom W v ds).length = ds.length := by
  induction ds generalizing v with
  | nil => rfl
  | cons d ds ih => rw [valuesFrom, List.length_cons, ih, List.length_cons]

theorem valuesFrom_append (W v : Nat) (ds es : List Nat) :
    valuesFrom W v (ds ++ es) = valuesFrom W v ds ++ valuesFrom W ((valuesFrom W v ds).getLastD v) es := by
  induction ds generalizing v with
  | nil => rfl
  | cons d ds ih => simp only [List.cons_append, valuesFrom, ih, List.getLastD_cons]

/-- The deltas of a list lead from its first value to the others. -/
theorem valuesFrom_deltasOf {W v : Nat} {vs : List Nat} (h : ∀ u ∈ v :: vs, u < 2 ^ W) :
    valuesFrom W v (deltasOf W (v :: vs)) = vs := by
  induction vs generalizing v with
  | nil => rfl
  | cons u vs ih =>
    obtain ⟨hv, hrest⟩ := List.forall_mem_cons.1 h
    have hu : (v + subMod W u v) % 2 ^ W = u := by
      have hback := add_subMod W (a := u) 0 hv
      rwa [Nat.zero_add, Nat.zero_add, Nat.mod_eq_of_lt (hrest u List.mem_cons_self)] at hback
    rw [deltasOf, valuesFrom, hu, ih hrest]

@[simp] theorem length_runningValues (W mn left v : Nat) (rs : List Nat) :
    (runningValues W mn left rs v).length = min left rs.length := by
  induction left generalizing rs v with
  | zero => simp [runningValues]
  | succ left ih =>
    cases rs with
    | nil => rfl
    | cons r rs => rw [runningValues, List.length_cons, ih, List.length_cons, Nat.succ_min_succ]

/-- The running values of the residuals are the values the deltas lead to (42_delta.md R321, R340). -/
theorem runningValues_residuals {W mn left v : Nat} {ds : List Nat} (hmn : mn < 2 ^ W) (hleft : ds.length ≤ left) :
    runningValues W mn left (ds.map fun d => subMod W d mn) v = valuesFrom W v ds := by
  induction ds generalizing left v with
  | nil => cases left <;> rfl
  | cons d ds ih =>
    obtain ⟨left, rfl⟩ := Nat.exists_eq_add_of_le' (Nat.succ_le_of_lt (Nat.zero_lt_of_lt hleft))
    rw [List.map_cons, runningValues, add_subMod W v hmn, ih (Nat.succ_le_succ_iff.1 hleft), valuesFrom]

theorem minDelta_lt {W : Nat} {ds : List Nat} (h : ∀ d ∈ ds, d < 2 ^ W) : minDelta W ds < 2 ^ W := by
  cases ds with
  | nil => exact Nat.two_pow_pos W
  | cons d ds =>
    obtain ⟨hd, hrest⟩ := List.forall_mem_cons.1 h
    refine List.foldlRecOn (motive := (· < 2 ^ W)) ds (minSigned W) hd fun a ha b hb => ?_
    rw [minSigned]
    split
    exacts [hrest b hb, ha]

/-! ### The width of a mini-block -/

theorem lt_two_pow_bitLen (u : Nat) : u < 2 ^ bitLen u := by
  rw [bitLen]
  split
  · next hu => simp [hu]
  · exact Nat.lt_log2_self

theorem bitLen_le {u W : Nat} (h : u < 2 ^ W) : bitLen u ≤ W := by
  rw [bitLen]
  split
  · exact Nat.zero_le W
  · next hu => exact (Nat.log2_lt hu).2 h

theorem le_foldl_max {r : Nat} {rs : List Nat} (h : r ∈ rs) : r ≤ rs.foldl max 0 := by
  rw [List.foldl_max]
  exact le_max_of_le_right (List.le_max?_getD_of_mem h)

/-- The width rounds up (42_delta.md R322), so every residual fits it. -/
theorem lt_two_pow_residualWidth {r : Nat} {rs : List Nat} (h : r ∈ rs) : r < 2 ^ residualWidth rs := by
  have hle : bitLen (rs.foldl max 0) ≤ residualWidth rs := by
    rw [residualWidth, ceilDiv]
    split <;> omega
  calc
    r ≤ rs.foldl max 0 := le_foldl_max h
    _ < 2 ^ bitLen (rs.foldl max 0) := lt_two_pow_bitLen _
    _ ≤ 2 ^ residualWidth rs := Nat.pow_le_pow_right two_pos hle

theorem residualWidth_le {W : Nat} {rs : List Nat} (hW : W = 32 ∨ W = 64) (h : ∀ r ∈ rs, r < 2 ^ W) :
    residualWidth rs ≤ W := by
  have hmax : rs.foldl max 0 < 2 ^ W :=
    List.foldlRecOn (motive := (· < 2 ^ W)) rs max (Nat.two_pow_pos W) fun _ ha r hr => max_lt ha (h r hr)
  have hlen := bitLen_le hmax
  rw [residualWidth, ceilDiv]
  split <;> omega

/-! ### The data of a mini-block -/

/-- The first values of a packed string, unpacked. -/
theorem unpackBits_packBits_append (w : Nat) (vs ws : List Nat) :
    unpackBits (packBits w (vs ++ ws)) vs.length w = vs.map (· % 2 ^ w) := by
  have htake : unpackBits (packBits w (vs ++ ws)) vs.length w =
      (unpackBits (packBits w (vs ++ ws)) (vs ++ ws).length w).take vs.length := by
    refine list_ext_getD 0 (by simp) fun i hi => ?_
    rw [length_unpackBits] at hi
    rw [getD_take _ _ _ _ hi, unpackBits, unpackBits, getD_unpackBitsAt _ _ _ _ hi,
      getD_unpackBitsAt _ _ _ _ (by rw [List.length_append]; omega)]
  rw [htake, unpackBits_packBits, List.map_append, List.take_left' (List.length_map _)]

theorem miniData_of_ne_nil {rs : List Nat} (h : rs ≠ []) :
    miniData rs = packBits (residualWidth rs) (rs ++ List.replicate (32 - rs.length) 0) := by
  rw [miniData, if_neg (by simpa using h)]

/-- A mini-block that is not empty is filled to 32 residuals (42_delta.md R322). -/
theorem length_miniData {rs : List Nat} (hne : rs ≠ []) (hlen : rs.length ≤ 32) :
    (miniData rs).length = 32 * residualWidth rs / 8 := by
  rw [miniData_of_ne_nil hne, length_packBits, List.length_append, List.length_replicate, Nat.add_sub_cancel' hlen,
    ceilDiv]
  omega

/-- The residuals read back from a mini-block's data, wherever it stands. -/
theorem unpackBitsAt_miniData {rs : List Nat} (before after : List Byte) (hne : rs ≠ []) (hlen : rs.length ≤ 32) :
    unpackBitsAt (before ++ miniData rs ++ after) (residualWidth rs) (8 * before.length) rs.length = rs := by
  have hfits : rs.length * residualWidth rs ≤ 8 * (miniData rs).length := by
    have := Nat.mul_le_mul_right (residualWidth rs) hlen
    rw [length_miniData hne hlen]
    omega
  rw [unpackBitsAt_between _ _ _ hfits, miniData_of_ne_nil hne, unpackBits_packBits_append]
  exact (List.map_congr_left fun r hr => Nat.mod_eq_of_lt (lt_two_pow_residualWidth hr)).trans (List.map_id _)

/-! ### The mini-blocks of a block -/

/-- The residuals of the first `k` mini-blocks of a block of deltas (42_delta.md R320). -/
def minisOf (W mn k : Nat) (ds : List Nat) : List (List Nat) := (List.range k).map (miniResiduals W mn ds)

theorem miniResiduals_zero (W mn : Nat) (ds : List Nat) :
    miniResiduals W mn ds 0 = (ds.take 32).map fun d => subMod W d mn := rfl

@[simp] theorem length_miniResiduals_zero (W mn : Nat) (ds : List Nat) :
    (miniResiduals W mn ds 0).length = min 32 ds.length := by
  rw [miniResiduals_zero, List.length_map, List.length_take]

theorem miniResiduals_zero_ne_nil (W mn : Nat) {ds : List Nat} (h : ds ≠ []) : miniResiduals W mn ds 0 ≠ [] := by
  simpa [miniResiduals_zero] using h

theorem miniResiduals_lt (W mn : Nat) (ds : List Nat) (m : Nat) : ∀ r ∈ miniResiduals W mn ds m, r < 2 ^ W :=
  List.forall_mem_map.2 fun d _ => subMod_lt W d mn

theorem minisOf_succ (W mn k : Nat) (ds : List Nat) :
    minisOf W mn (k + 1) ds = miniResiduals W mn ds 0 :: minisOf W mn k (ds.drop 32) := by
  rw [minisOf, List.range_succ_eq_map, List.map_cons, List.map_map]
  refine congrArg (_ :: ·) (List.map_congr_left fun m _ => ?_)
  rw [Function.comp_apply, miniResiduals, miniResiduals, List.drop_drop, Nat.mul_succ, Nat.add_comm]

/-- The mini-blocks take no deltas after their own. -/
theorem minisOf_take (W mn k : Nat) (ds : List Nat) : minisOf W mn k (ds.take (32 * k)) = minisOf W mn k ds := by
  refine List.map_congr_left fun m hm => ?_
  have hm := List.mem_range.1 hm
  rw [miniResiduals, miniResiduals, List.drop_take, List.take_take, Nat.min_eq_left (by omega)]

/-- Mini-blocks without deltas have no data (42_delta.md R322). -/
theorem flatMap_miniData_minisOf_nil (W mn k : Nat) : (minisOf W mn k []).flatMap miniData = [] := by
  refine List.flatMap_eq_nil_iff.2 fun rs hrs => ?_
  obtain ⟨m, -, rfl⟩ := List.mem_map.1 hrs
  simp [miniResiduals, miniData]

/-- The values a mini-block at `p` gives (42_delta.md R340). -/
def miniValues (W perMini mn : Nat) (inp : List Byte) (wd left p v : Nat) : List Nat :=
  runningValues W mn left (unpackBitsAt inp wd (8 * p) (min perMini left)) v

@[simp] theorem length_miniValues (W perMini mn : Nat) (inp : List Byte) (wd left p v : Nat) :
    (miniValues W perMini mn inp wd left p v).length = min perMini left := by
  rw [miniValues, length_runningValues, length_unpackBitsAt]
  omega

theorem deltaMinis_nothing_left (W perMini mn : Nat) (inp : List Byte) (wds : List Nat) (p v : Nat) :
    deltaMinis W perMini mn inp wds 0 p v = .ok ([], p) := by
  cases wds <;> rfl

/-- A mini-block is read while values are wanted: its values, then those of the rest (42_delta.md R340). -/
theorem deltaMinis_cons_eq_ok_iff {W perMini mn wd left p v q : Nat} {inp : List Byte} {wds vs : List Nat}
    (hleft : left ≠ 0) :
    deltaMinis W perMini mn inp (wd :: wds) left p v = .ok (vs, q) ↔
      wd ≤ W ∧ p + perMini * wd / 8 ≤ inp.length ∧ ∃ rest,
        deltaMinis W perMini mn inp wds (left - (miniValues W perMini mn inp wd left p v).length)
          (p + perMini * wd / 8) ((miniValues W perMini mn inp wd left p v).getLastD v) = .ok (rest, q) ∧
        vs = miniValues W perMini mn inp wd left p v ++ rest := by
  rw [deltaMinis, if_neg hleft]
  by_cases hw : W < wd
  · simp [hw]
  · by_cases hlen : inp.length < p + perMini * wd / 8
    · simp [hw, hlen]
    · simp only [hw, hlen, ↓reduceIte, miniValues, not_lt.1 hw, not_lt.1 hlen, true_and]
      generalize deltaMinis W perMini mn inp wds _ _ _ = r
      rcases r with e | ⟨rest, q'⟩
      · simp
      · simp [eq_comm, and_comm]

theorem length_drop_eq_sub (ds : List Nat) (n : Nat) : (ds.drop n).length = ds.length - (ds.take n).length := by
  rw [List.length_drop, List.length_take]
  omega

/-- The data of the first mini-block, wherever it stands, gives the values of its deltas (42_delta.md R345). -/
theorem miniValues_miniData {W mn v : Nat} {ds : List Nat} (before after : List Byte) (hds : ds ≠ [])
    (hmn : mn < 2 ^ W) :
    miniValues W 32 mn (before ++ miniData (miniResiduals W mn ds 0) ++ after) (residualWidth (miniResiduals W mn ds 0))
        ds.length before.length v = valuesFrom W v (ds.take 32) := by
  have hcount := length_miniResiduals_zero W mn ds
  have hne := miniResiduals_zero_ne_nil W mn hds
  rw [miniValues, ← hcount, unpackBitsAt_miniData before after hne (by omega)]
  exact runningValues_residuals hmn (List.length_take_le' ..)

/-- Decoding the mini-blocks of an encoded block, wherever they stand, gives the values of their deltas and ends after
their data (42_delta.md R345). -/
theorem deltaMinis_minisOf {W mn k v : Nat} {ds : List Nat} (before after : List Byte) (hW : W = 32 ∨ W = 64)
    (hmn : mn < 2 ^ W) :
    deltaMinis W 32 mn (before ++ (minisOf W mn k ds).flatMap miniData ++ after)
        ((minisOf W mn k ds).map residualWidth) ds.length before.length v =
      .ok (valuesFrom W v (ds.take (32 * k)), (before ++ (minisOf W mn k ds).flatMap miniData).length) := by
  induction k generalizing ds before v with
  | zero => simp [minisOf, deltaMinis, valuesFrom]
  | succ k ih =>
    by_cases hds : ds = []
    · subst hds
      rw [flatMap_miniData_minisOf_nil, List.append_nil, List.length_nil, deltaMinis_nothing_left, List.take_nil,
        valuesFrom]
    have hne := miniResiduals_zero_ne_nil W mn hds
    have hsize := length_miniData hne (by simp)
    have hvalues := miniValues_miniData (v := v) before ((minisOf W mn k (ds.drop 32)).flatMap miniData ++ after) hds
      hmn
    have hrest := ih (ds := ds.drop 32) (v := (valuesFrom W v (ds.take 32)).getLastD v)
      (before ++ miniData (miniResiduals W mn ds 0))
    rw [minisOf_succ, List.flatMap_cons, List.map_cons, ← List.append_assoc before]
    rw [List.append_assoc _ _ after] at hrest ⊢
    refine (deltaMinis_cons_eq_ok_iff (by simpa using hds)).2 ⟨residualWidth_le hW (miniResiduals_lt W mn ds 0), ?_,
      valuesFrom W ((valuesFrom W v (ds.take 32)).getLastD v) ((ds.drop 32).take (32 * k)), ?_, ?_⟩
    · simp only [List.length_append]
      omega
    · rwa [hvalues, length_valuesFrom, ← hsize, ← List.length_append, ← length_drop_eq_sub]
    · rw [hvalues, ← valuesFrom_append, Nat.mul_succ, Nat.add_comm, List.take_add]

/-! ### The blocks -/

/-- A varint is read back wherever it stands (20_memory.md R124). -/
theorem readVarint_between {W u : Nat} (before after : List Byte) (hW : W = 32 ∨ W = 64) (hu : u < 2 ^ W) :
    readVarint W (before ++ (varint u ++ after)) before.length = .ok (u, (before ++ varint u).length) := by
  rw [← List.append_assoc, List.length_append]
  exact varintRoundTrip W u before after hW hu

theorem zigzag_lt (W u : Nat) : zigzag W u < 2 ^ W :=
  Nat.xor_lt_two_pow (Nat.mod_lt _ (Nat.two_pow_pos W)) (by have := Nat.two_pow_pos W; split <;> omega)

theorem deltaBlocks_nil (W fuel : Nat) : deltaBlocks W fuel [] = [] := by cases fuel <;> rfl

theorem deltaBlocksFrom_nothing_left (W perMini minis : Nat) (inp : List Byte) (fuel p v : Nat) :
    deltaBlocksFrom W perMini minis inp fuel 0 p v = .ok ([], p) := by
  cases fuel <;> rfl

/-- The widths of a block's mini-blocks, after its smallest delta (42_delta.md R320). -/
def blockWidths (minis : Nat) (inp : List Byte) (p : Nat) : List Nat := ((inp.drop p).take minis).map BitVec.toNat

/-- A block is read while values are wanted: its values, then those of the rest (42_delta.md R340). -/
theorem deltaBlocksFrom_succ_eq_ok_iff {W perMini minis fuel left p v q : Nat} {inp : List Byte} {vs : List Nat}
    (hleft : left ≠ 0) :
    deltaBlocksFrom W perMini minis inp (fuel + 1) left p v = .ok (vs, q) ↔
      ∃ mz p₁ now p₂ rest, readVarint W inp p = .ok (mz, p₁) ∧ p₁ + minis ≤ inp.length ∧
        deltaMinis W perMini (unzigzag W mz) inp (blockWidths minis inp p₁) left (p₁ + minis) v = .ok (now, p₂) ∧
        deltaBlocksFrom W perMini minis inp fuel (left - now.length) p₂ (now.getLastD v) = .ok (rest, q) ∧
        vs = now ++ rest := by
  rw [deltaBlocksFrom, if_neg hleft]
  constructor
  · intro h
    split at h
    · cases h
    next mz p₁ hread =>
    split at h
    · cases h
    next hlen =>
    dsimp only at h
    split at h
    · cases h
    next now p₂ hminis =>
    split at h
    · cases h
    next rest q' hrest =>
    cases h
    exact ⟨mz, p₁, now, p₂, rest, hread, not_lt.1 hlen, hminis, hrest, rfl⟩
  · rintro ⟨mz, p₁, now, p₂, rest, hread, hlen, hminis, hrest, rfl⟩
    rw [blockWidths] at hminis
    simp only [hread, not_lt.2 hlen, ↓reduceIte, hminis, hrest]

/-- The bytes of a block: its smallest delta, the widths and the data of its mini-blocks (42_delta.md R320). -/
theorem deltaBlock_take (W : Nat) (ds : List Nat) :
    deltaBlock W (ds.take 128) =
      varint (zigzag W (minDelta W (ds.take 128))) ++
        (minisOf W (minDelta W (ds.take 128)) 4 ds).map (fun rs => byteOf (residualWidth rs)) ++
        (minisOf W (minDelta W (ds.take 128)) 4 ds).flatMap miniData := by
  rw [← minisOf_take]; rfl

theorem deltaBlocks_of_ne_nil {W fuel : Nat} {ds : List Nat} (h : ds ≠ []) :
    deltaBlocks W (fuel + 1) ds = deltaBlock W (ds.take 128) ++ deltaBlocks W fuel (ds.drop 128) := by
  rw [deltaBlocks, if_neg (by simpa using h)]

theorem blockWidths_minisOf {W mn k : Nat} {ds : List Nat} (before after : List Byte) (hW : W = 32 ∨ W = 64) :
    blockWidths k (before ++ ((minisOf W mn k ds).map (fun rs => byteOf (residualWidth rs)) ++ after)) before.length =
      (minisOf W mn k ds).map residualWidth := by
  have hlen : ((minisOf W mn k ds).map fun rs => byteOf (residualWidth rs)).length = k := by simp [minisOf]
  rw [blockWidths, List.drop_left, List.take_left' hlen, List.map_map]
  refine List.map_congr_left fun rs hrs => toNat_byteOf ?_
  obtain ⟨m, -, rfl⟩ := List.mem_map.1 hrs
  have := residualWidth_le hW (miniResiduals_lt W mn ds m)
  omega

theorem unzigzag_zigzag {W u : Nat} (hW : W = 32 ∨ W = 64) (hu : u < 2 ^ W) : unzigzag W (zigzag W u) = u :=
  (zigZag W u hW hu).1

/-- Reading an encoded block, wherever it stands: its smallest delta, its widths, then the values of its deltas, and
the reading ends after its bytes (42_delta.md R345). -/
theorem reads_deltaBlock {W v : Nat} {ds : List Nat} {inp : List Byte} (before after : List Byte)
    (hW : W = 32 ∨ W = 64) (hds : ∀ d ∈ ds, d < 2 ^ W) (hinp : inp = before ++ deltaBlock W (ds.take 128) ++ after) :
    ∃ mz p, readVarint W inp before.length = .ok (mz, p) ∧ p + 4 ≤ inp.length ∧
      deltaMinis W 32 (unzigzag W mz) inp (blockWidths 4 inp p) ds.length (p + 4) v =
        .ok (valuesFrom W v (ds.take 128), (before ++ deltaBlock W (ds.take 128)).length) := by
  have hmn : minDelta W (ds.take 128) < 2 ^ W := minDelta_lt fun d hd => hds d (List.mem_of_mem_take hd)
  rw [deltaBlock_take] at *
  generalize minDelta W (ds.take 128) = mn at *
  have hread after := readVarint_between before after hW (zigzag_lt W mn)
  have hwidths after := blockWidths_minisOf (mn := mn) (k := 4) (ds := ds) (before ++ varint (zigzag W mn)) after hW
  have hminis := deltaMinis_minisOf (k := 4) (v := v) (ds := ds)
    (before ++ varint (zigzag W mn) ++ (minisOf W mn 4 ds).map fun rs => byteOf (residualWidth rs)) after hW hmn
  have hfour : ((minisOf W mn 4 ds).map fun rs => byteOf (residualWidth rs)).length = 4 := by simp [minisOf]
  generalize (minisOf W mn 4 ds).map (fun rs => byteOf (residualWidth rs)) = widths at *
  rw [List.length_append, hfour] at hminis
  simp only [List.append_assoc] at *
  subst hinp
  refine ⟨zigzag W mn, _, hread _, ?_, ?_⟩
  · simp only [List.length_append]
    omega
  · rw [hwidths, unzigzag_zigzag hW hmn]
    exact hminis

/-- Decoding the encoder's blocks gives the values of their deltas and uses all their bytes (42_delta.md R345). -/
theorem deltaBlocksFrom_deltaBlocks {W fuel efuel v : Nat} {ds : List Nat} (before : List Byte)
    (hW : W = 32 ∨ W = 64) (hds : ∀ d ∈ ds, d < 2 ^ W) (hfuel : ds.length ≤ fuel) (hefuel : ds.length ≤ efuel) :
    deltaBlocksFrom W 32 4 (before ++ deltaBlocks W efuel ds) fuel ds.length before.length v =
      .ok (valuesFrom W v ds, (before ++ deltaBlocks W efuel ds).length) := by
  induction fuel generalizing efuel ds before v with
  | zero =>
    obtain rfl := List.eq_nil_of_length_eq_zero (Nat.le_zero.1 hfuel)
    simp [deltaBlocks_nil, deltaBlocksFrom, valuesFrom]
  | succ fuel ih =>
    by_cases hne : ds = []
    · subst hne
      simp [deltaBlocks_nil, deltaBlocksFrom_nothing_left, valuesFrom]
    obtain ⟨efuel, rfl⟩ := Nat.exists_eq_add_of_le' ((List.length_pos_iff.2 hne).trans_le hefuel)
    have hshorter : (ds.drop 128).length < ds.length := by
      have := List.length_pos_iff.2 hne
      rw [List.length_drop]
      omega
    obtain ⟨mz, p, hread, hlen, hminis⟩ :=
      reads_deltaBlock (v := v) before (deltaBlocks W efuel (ds.drop 128)) hW hds rfl
    have hrest := ih (ds := ds.drop 128) (v := (valuesFrom W v (ds.take 128)).getLastD v) (efuel := efuel)
      (before ++ deltaBlock W (ds.take 128)) (fun d hd => hds d (List.mem_of_mem_drop hd)) (by omega) (by omega)
    rw [deltaBlocks_of_ne_nil hne, ← List.append_assoc]
    refine (deltaBlocksFrom_succ_eq_ok_iff (by simpa using hne)).2
      ⟨mz, p, _, _, _, hread, hlen, hminis, by rwa [length_valuesFrom, ← length_drop_eq_sub], ?_⟩
    rw [← valuesFrom_append, List.take_append_drop]

/-! ### Decoding undoes encoding -/

/-- The header the encoder writes (42_delta.md R320, R330). -/
def deltaHead (W n first : Nat) : List Byte := varint 128 ++ varint 4 ++ varint n ++ varint (zigzag W first)

theorem deltaEncode_eq (W : Nat) (us : List Nat) :
    deltaEncode W us = deltaHead W us.length (us.headD 0) ++ deltaBlocks W us.length (deltasOf W us) := rfl

/-- The encoder's header is read back: blocks of four mini-blocks of 32 values (42_delta.md R330, R340). -/
theorem deltaHeader_deltaHead {W n first : Nat} (after : List Byte) (hW : W = 32 ∨ W = 64) (hn : n < 2 ^ 32)
    (hfirst : first < 2 ^ W) :
    deltaHeader W (deltaHead W n first ++ after) = .ok ⟨32, 4, n, first, (deltaHead W n first).length⟩ := by
  have hsize := readVarint_between (W := 32) (u := 128) []
    (varint 4 ++ (varint n ++ (varint (zigzag W first) ++ after))) (.inl rfl) (by decide)
  have hcount := readVarint_between (W := 32) (u := 4) (varint 128)
    (varint n ++ (varint (zigzag W first) ++ after)) (.inl rfl) (by decide)
  have htotal := readVarint_between (varint 128 ++ varint 4) (varint (zigzag W first) ++ after) (.inl rfl) hn
  have hvalue := readVarint_between (varint 128 ++ varint 4 ++ varint n) after hW (zigzag_lt W first)
  simp only [List.append_assoc, List.nil_append, List.length_nil] at hsize hcount htotal hvalue
  simp only [deltaHeader, deltaHead, List.append_assoc, hsize, hcount, htotal, hvalue, bind, Except.bind,
    unzigzag_zigzag hW hfirst]
  rfl

theorem deltaValues_succ_eq_ok_iff {W n q : Nat} {h : DeltaHeader} {inp : List Byte} {vs : List Nat} :
    deltaValues W h inp (n + 1) = .ok (vs, q) ↔
      ∃ rest, deltaBlocksFrom W h.perMini h.minis inp n n h.pos h.first = .ok (rest, q) ∧ vs = h.first :: rest := by
  rw [deltaValues, if_neg n.succ_ne_zero, Nat.add_sub_cancel]
  rcases deltaBlocksFrom W h.perMini h.minis inp n n h.pos h.first with e | ⟨rest, q'⟩
  · simp
  · simp [eq_comm, and_comm]

/-- Settles O51: the header is read back, and block by block the deltas lead to the values they were taken from. -/
theorem deltaRoundTrip : Obligations.DeltaRoundTrip := by
  intro W vs hW hvs hlen
  have hfirst : vs.headD 0 < 2 ^ W := by
    cases vs with
    | nil => exact Nat.two_pow_pos W
    | cons v vs => exact hvs v List.mem_cons_self
  refine ⟨_, deltaHeader_deltaHead _ hW hlen hfirst, rfl, ?_⟩
  cases vs with
  | nil => simp [deltaValues, deltaEncode_eq, deltaBlocks_nil, deltasOf]
  | cons v vs =>
    have hblocks := deltaBlocksFrom_deltaBlocks (v := v) (deltaHead W (v :: vs).length v) hW (deltasOf_lt W (v :: vs))
      (fuel := vs.length) (length_deltasOf_cons W v vs).le (efuel := (v :: vs).length) (by simp)
    rw [length_deltasOf_cons, valuesFrom_deltasOf hvs] at hblocks
    exact deltaValues_succ_eq_ok_iff.2 ⟨vs, hblocks, rfl⟩

/-! ### The commands -/

/-- Settles O49: the output fits, so it is delivered. -/
theorem deltaEncodeCommands : Obligations.DeltaEncodeCommands := by
  intro s p n encodes
  have hencodes {i : Instr} {W E : Nat} (hi : exec i s = deltaEnc W E s) : encodes i W E := by
    intro hready hfit
    have hends := ends_of_deliver (hi.trans (deltaEnc_of_ready hready)) (others_refl s) hfit
    rw [Results.counted, BitVec.ofNat_toNat] at hends
    exact ⟨_, hends, deliver_holds _ s hfit⟩
  exact ⟨hencodes rfl, hencodes rfl⟩

theorem except_bind_ok {α β : Type} {x : Except ErrorCode α} {f : α → Except ErrorCode β} {b : β}
    (h : (x >>= f) = .ok b) : ∃ a, x = .ok a ∧ f a = .ok b := by
  cases x with
  | error e => cases h
  | ok a => exact ⟨a, rfl, h⟩

/-- A well-formed header cuts a block into at least one mini-block of at least one value (42_delta.md R340). -/
theorem pos_of_deltaHeader {W : Nat} {inp : List Byte} {h : DeltaHeader} (hh : deltaHeader W inp = .ok h) :
    0 < h.perMini ∧ 0 < h.minis := by
  obtain ⟨⟨bs, p₁⟩, -, hh⟩ := except_bind_ok hh
  obtain ⟨⟨mbc, p₂⟩, -, hh⟩ := except_bind_ok hh
  obtain ⟨⟨total, p₃⟩, -, hh⟩ := except_bind_ok hh
  obtain ⟨⟨fz, p₄⟩, -, hh⟩ := except_bind_ok hh
  dsimp only at hh
  split at hh
  · next hok =>
    cases hh
    simp only [deltaHeaderOk, Bool.and_eq_true, bne_iff_ne, beq_iff_eq] at hok
    obtain ⟨⟨⟨⟨hbs, -⟩, hmbc⟩, hdiv⟩, -⟩ := hok
    have hdvd := Nat.dvd_of_mod_eq_zero hdiv
    exact ⟨Nat.div_pos (Nat.le_of_dvd (Nat.pos_of_ne_zero hbs) hdvd) (Nat.pos_of_ne_zero hmbc),
      Nat.pos_of_ne_zero hmbc⟩
  · cases hh

/-- Mini-blocks give values until no more are wanted or all are read (42_delta.md R340). -/
theorem length_of_deltaMinis {W perMini mn left p v q : Nat} {inp : List Byte} {wds vs : List Nat}
    (h : deltaMinis W perMini mn inp wds left p v = .ok (vs, q)) : vs.length = min left (perMini * wds.length) := by
  induction wds generalizing left p v vs with
  | nil => cases h; simp
  | cons wd wds ih =>
    by_cases hleft : left = 0
    · subst hleft; cases h; simp
    obtain ⟨-, -, rest, hrest, rfl⟩ := (deltaMinis_cons_eq_ok_iff hleft).1 h
    rw [List.length_append, ih hrest, length_miniValues, List.length_cons, Nat.mul_succ]
    omega

theorem length_blockWidths {minis p : Nat} {inp : List Byte} (h : p + minis ≤ inp.length) :
    (blockWidths minis inp p).length = minis := by
  rw [blockWidths, List.length_map, List.length_take, List.length_drop]
  omega

/-- A well-formed stream gives as many values as are wanted (42_delta.md R340): each block gives at least one, so the
fuel is enough. -/
theorem length_of_deltaBlocksFrom {W perMini minis fuel left p v q : Nat} {inp : List Byte} {vs : List Nat}
    (hper : 0 < perMini) (hminis : 0 < minis) (hfuel : left ≤ fuel)
    (h : deltaBlocksFrom W perMini minis inp fuel left p v = .ok (vs, q)) : vs.length = left := by
  induction fuel generalizing left p v vs with
  | zero => cases h; exact (Nat.le_zero.1 hfuel).symm
  | succ fuel ih =>
    by_cases hleft : left = 0
    · subst hleft; cases h; rfl
    obtain ⟨mz, p₁, now, p₂, rest, -, hlen, hnow, hrest, rfl⟩ := (deltaBlocksFrom_succ_eq_ok_iff hleft).1 h
    have hsome := length_of_deltaMinis hnow
    rw [length_blockWidths hlen] at hsome
    have hblock : 0 < perMini * minis := Nat.mul_pos hper hminis
    rw [List.length_append, ih (by omega) hrest]
    omega

theorem length_of_deltaValues {W n used : Nat} {inp : List Byte} {h : DeltaHeader} {vs : List Nat}
    (hh : deltaHeader W inp = .ok h) (hvs : deltaValues W h inp n = .ok (vs, used)) : vs.length = n := by
  obtain ⟨hper, hminis⟩ := pos_of_deltaHeader hh
  cases n with
  | zero => cases hvs; rfl
  | succ n =>
    obtain ⟨rest, hrest, rfl⟩ := deltaValues_succ_eq_ok_iff.1 hvs
    rw [List.length_cons, length_of_deltaBlocksFrom hper hminis le_rfl hrest]

theorem deltaDec_of_small {W E : Nat} {s : State} {h : DeltaHeader} (hready : OneShotReady s 0 0 0)
    (hh : deltaHeader W (s.bytesOf s.operands.src) = .ok h)
    (hsmall : s.operands.dstCap.toNat < E * min s.operands.count.toNat h.total) :
    deltaDec W E s = .next (raise .dstTooSmall s.operands.dst s) := by
  dsimp only [deltaDec]
  rw [runCommand_of_checks (hready.checks rfl (List.forall_mem_nil _))]
  simp only [hh, if_pos hsmall]

theorem deltaDec_of_values {W E used : Nat} {s : State} {h : DeltaHeader} {vs : List Nat}
    (hready : OneShotReady s 0 0 0) (hh : deltaHeader W (s.bytesOf s.operands.src) = .ok h)
    (hroom : E * min s.operands.count.toNat h.total ≤ s.operands.dstCap.toNat)
    (hvs : deltaValues W h (s.bytesOf s.operands.src) (min s.operands.count.toNat h.total) = .ok (vs, used)) :
    deltaDec W E s = .next (deliver s.operands.dst (vs.flatMap (leBytes E))
      (s.engine.results.counted used (min s.operands.count.toNat h.total)) s) := by
  dsimp only [deltaDec]
  rw [runCommand_of_checks (hready.checks rfl (List.forall_mem_nil _))]
  simp only [hh, if_neg hroom.not_gt, hvs]

/-- DST_TOO_SMALL changes no byte of memory (20_memory.md R107). -/
theorem raise_dstTooSmall_nothingElse (x : Extent) (s : State) : NothingElse s (raise .dstTooSmall x s) :=
  ⟨rfl, rfl, rfl, rfl, raise_read_of_not_spoils rfl x s⟩

/-- Settles O50: the room decides; where it is enough, as many values as are wanted come out of the stream. -/
theorem deltaDecodeCommands : Obligations.DeltaDecodeCommands := by
  intro s h vs used p inp outn decodes hready
  have hdecodes {i : Instr} {W E : Nat} (hi : exec i s = deltaDec W E s) : decodes i W E := by
    intro hh
    refine ⟨fun hsmall => ?_, fun hroom hvs => ?_⟩
    · have hexec := hi.trans (deltaDec_of_small hready hh hsmall)
      exact ⟨_, ⟨hexec, others_refl s, rfl, rfl, rfl, rfl, rfl⟩, raise_dstTooSmall_nothingElse _ s⟩
    · have hlen : (vs.flatMap (leBytes E)).length = E * outn := by
        rw [length_elements, length_of_deltaValues hh hvs]
      have hfit : (vs.flatMap (leBytes E)).length ≤ s.operands.dst.len := hlen.trans_le hroom
      have hends := ends_of_deliver (hi.trans (deltaDec_of_values hready hh hroom hvs)) (others_refl s) hfit
      rw [hlen] at hends
      exact ⟨_, hends, deliver_holds _ s hfit⟩
  exact ⟨hdecodes rfl, hdecodes rfl⟩

end Sys2Proof.Machine
end

section
/-! ## The byte transpose

Where a transform puts each byte, that transforming back gives the bytes again, and the two commands: the statements of
43_transpose.md. -/

namespace Sys2Proof.Machine

/-! ### A transform and its inverse -/

theorem length_gather (inp : List Byte) (outer inner stride : Nat) :
    (gather inp outer inner stride).length = outer * inner := by
  rw [gather, length_flatMap_const _ inner (by simp), List.length_range]

/-- Each row of the output is one column of the input (43_transpose.md R370). -/
theorem getD_gather (inp : List Byte) (stride : Nat) {outer inner i j : Nat} (hj : j < outer) (hi : i < inner) :
    (gather inp outer inner stride).getD (j * inner + i) 0 = inp.getD (i * stride + j) 0 := by
  have hrow : (List.range outer).getD j 0 = j := by simp [hj]
  rw [gather, getD_flatMap _ inner (by simp) 0 0 _ (by rwa [List.length_range]) hi, hrow]
  simp [hi]

/-- Transposing twice, the second time with rows and columns exchanged, leaves every byte in its place. -/
theorem gather_gather {x : List Byte} {rows cols : Nat} (hlen : x.length = rows * cols) :
    gather (gather x cols rows cols) rows cols rows = x := by
  have hlength : (gather (gather x cols rows cols) rows cols rows).length = rows * cols := length_gather ..
  refine list_ext_getD 0 (hlength.trans hlen.symm) fun k hk => ?_
  rw [hlength] at hk
  have hcols : 0 < cols := Nat.pos_of_mul_pos_left (Nat.zero_lt_of_lt hk)
  have hrow : k / cols < rows := (Nat.div_lt_iff_lt_mul hcols).2 hk
  have hcol : k % cols < cols := Nat.mod_lt k hcols
  have htwice := getD_gather (gather x cols rows cols) rows hrow hcol
  rwa [getD_gather x cols hcol hrow, Nat.div_add_mod'] at htwice

/-- Settles O53: both orders are one double transposition. -/
theorem transposeInverse : Obligations.TransposeInverse := fun size n _ _ hlen =>
  ⟨gather_gather hlen, gather_gather (hlen.trans (Nat.mul_comm n size)),
    (length_gather ..).trans (Nat.mul_comm size n), length_gather ..⟩

/-! ### The commands -/

theorem bssRun_of_ready {f : Nat → Nat → List Byte → List Byte} {size : BitVec 8} {s : State} {total : Nat}
    (hsize : 1 ≤ size.toNat) (htotal : total = s.operands.count.toNat * size.toNat)
    (hready : OneShotReady s total total total) :
    bssRun f size s = .next (deliver s.operands.dst
      (f size.toNat s.operands.count.toNat (s.mem.readBytes s.operands.src.base total))
      { s.engine.results with used := BitVec.ofNat 32 total, count := s.operands.count } s) := by
  subst htotal
  have hchecks := hready.checks ((elemError_eq_none size).2 hsize) (List.forall_mem_singleton.2 le_rfl)
  dsimp only [bssRun]
  rw [runCommand_of_checks hchecks, Results.counted, BitVec.ofNat_toNat, BitVec.setWidth_eq]

/-- Memory that holds a transform of a source has each byte of the source at its new place. -/
theorem read_of_readBytes_gather {m m' : Memory} {src dst outer inner total : Nat} (htotal : total = outer * inner)
    (h : m'.readBytes dst total = gather (m.readBytes src total) outer inner outer) {i j : Nat} (hj : j < outer)
    (hi : i < inner) : m'.read (dst + (j * inner + i)) = m.read (src + (i * outer + j)) := by
  have hnew : j * inner + i < total := htotal ▸ bitPlace_lt hj hi
  have hold : i * outer + j < total := htotal ▸ Nat.mul_comm outer inner ▸ bitPlace_lt hi hj
  rw [← getD_readBytes _ _ _ _ hnew, h, getD_gather _ _ hj hi, getD_readBytes _ _ _ _ hold]

/-- Settles O52: the transformed bytes are delivered, and each stands where `gather` puts it. -/
theorem transposeCommands : Obligations.TransposeCommands := by
  intro size s p n total moves hsize hready
  have hmoves {i : Instr} {f : Nat → Nat → List Byte → List Byte} {P : State → Prop}
      (hi : exec i s = bssRun f size s) (hlen : ∀ inp, (f size.toNat n inp).length = total)
      (hP : ∀ t : State, t.mem.readBytes p.dst.base total = f size.toNat n (s.mem.readBytes p.src.base total) → P t) :
      moves i P := by
    have hlength := hlen (s.mem.readBytes p.src.base total)
    have hfit : _ ≤ s.operands.dst.len := hlength.trans_le hready.dst_room
    have hends := ends_of_deliver (hi.trans (bssRun_of_ready hsize rfl hready)) (others_refl s) hfit
    obtain ⟨hout, hframe⟩ :=
      deliver_holds { s.engine.results with used := BitVec.ofNat 32 total, count := p.count } s hfit
    rw [hlength] at hends hout
    exact ⟨_, hends, hframe, hP _ hout⟩
  have hcomm : total = size.toNat * n := Nat.mul_comm n size.toNat
  exact ⟨hmoves rfl (fun _ => (length_gather ..).trans hcomm.symm)
      fun _ h _ _ hi hb => read_of_readBytes_gather hcomm h hb hi,
    hmoves rfl (fun _ => length_gather ..) fun _ h _ _ hi hb => read_of_readBytes_gather rfl h hi hb⟩

end Sys2Proof.Machine
end

section
/-! ## The block compressors

Which member a compressor writes, and the commands that compress and that give a bound: what 44_deflate.md, 45_lz4.md and
46_snappy.md say alike. -/

namespace Sys2Proof.Machine

/-! ### Which member is written -/

/-- What holds of the reference member and of every admissible one holds of the member written (log entry 6). -/
theorem chosenMember_of_forall {P : List Byte → Prop} {admissible : List Byte → Bool} {ref : List Byte} (href : P ref)
    (hadmissible : ∀ y, admissible y = true → P y) (members : List (List Byte)) :
    P (chosenMember admissible ref members) := by
  cases members with
  | nil => exact href
  | cons y ys =>
    by_cases hy : admissible y = true
    · simpa only [chosenMember, if_pos hy] using hadmissible y hy
    · simpa only [chosenMember, if_neg hy] using href

theorem deflateMember_zero (members : List (List Byte)) (x : List Byte) : deflateMember 0 members x = storedStream x :=
  if_pos rfl

theorem deflateMember_of_pos {level : Nat} (h : 1 ≤ level) (members : List (List Byte)) (x : List Byte) :
    deflateMember level members x = chosenMember (deflateAdmissible x) (deflateRef level x) members :=
  if_neg (by omega)

theorem deflateAdmissible_iff {x y : List Byte} :
    deflateAdmissible x y = true ↔ ∃ o, inflate y x.length = .ok o ∧ o.out.reverse = x ∧ ceilDiv o.bp 8 = y.length ∧
      y.length ≤ deflateBoundOf x.length ∧ o.dynamic = false ∧ o.long284 = false := by
  unfold deflateAdmissible
  cases inflate y x.length with
  | error e => simp
  | ok o => simp [and_assoc]

theorem lz4Admissible_iff {x y : List Byte} :
    lz4Admissible x y = true ↔ ∃ o, lz4Decode y x.length = .ok o ∧ o.out.reverse = x ∧
      y.length ≤ lz4BoundOf x.length ∧ lz4EndsWell x.length o.spans = true ∧ (x = [] → y = [0]) := by
  unfold lz4Admissible
  cases lz4Decode y x.length with
  | error e => simp
  | ok o => simp [and_assoc, imp_iff_not_or]

theorem snappyAdmissible_iff {x y : List Byte} :
    snappyAdmissible x y = true ↔ ∃ used, snappyDecompress y x.length = .ok (x, used) ∧
      y.length ≤ snappyBoundOf x.length ∧ y.take (varint x.length).length = varint x.length := by
  unfold snappyAdmissible
  rcases snappyDecompress y x.length with e | ⟨out, used⟩
  · simp
  · simp only [Bool.and_eq_true, beq_iff_eq, decide_eq_true_eq, Except.ok.injEq, Prod.mk.injEq, and_assoc]
    constructor
    · rintro ⟨rfl, hrest⟩
      exact ⟨used, rfl, rfl, hrest⟩
    · rintro ⟨_, rfl, -, hrest⟩
      exact ⟨rfl, hrest⟩

/-! ### The commands that compress -/

/-- A compress command that passes its checks delivers its output (44_deflate.md R460, 45_lz4.md R500, 46_snappy.md
R550). -/
theorem compressRun_writes {i : Instr} {s : State} {field : Option ErrorCode} {draws : Bool}
    {out : List Byte → List Byte} {y : List Byte} (hi : exec i s = compressRun field draws out s)
    (h : OneShotReady s 0 0 0) (hf : field = none) (hy : out (s.bytesOf s.operands.src) = y)
    (hfit : y.length ≤ s.operands.dstCap.toNat) :
    ∃ t, Ends i s t (s.engine.finished
        { s.engine.results with len := BitVec.ofNat 32 y.length, used := s.operands.srcLen }) ∧
      Holds s t s.operands.dst y := by
  subst hy
  dsimp only [compressRun] at hi
  rw [runCommand_of_checks (h.checks hf (List.forall_mem_nil _))] at hi
  exact ⟨_, ends_of_deliver hi ⟨rfl, rfl, rfl, rfl⟩ hfit, deliver_holds _ _ hfit⟩

theorem deflateCompress_writes {s : State} {level : BitVec 4} {y : List Byte} (hlevel : level.toNat ≤ 9)
    (h : OneShotReady s 0 0 0) (hy : deflateMember level.toNat s.members (s.bytesOf s.operands.src) = y)
    (hfit : y.length ≤ s.operands.dstCap.toNat) :
    ∃ t, Ends (.deflateCompress level) s t (s.engine.finished
        { s.engine.results with len := BitVec.ofNat 32 y.length, used := s.operands.srcLen }) ∧
      Holds s t s.operands.dst y :=
  compressRun_writes rfl h ((levelError_eq_none level).2 hlevel) hy hfit

theorem lz4Compress_writes {s : State} (level : BitVec 4) {y : List Byte} (h : OneShotReady s 0 0 0)
    (hy : chosenMember (lz4Admissible (s.bytesOf s.operands.src)) (lz4Ref (s.bytesOf s.operands.src)) s.members = y)
    (hfit : y.length ≤ s.operands.dstCap.toNat) :
    ∃ t, Ends (.lz4Compress level) s t (s.engine.finished
        { s.engine.results with len := BitVec.ofNat 32 y.length, used := s.operands.srcLen }) ∧
      Holds s t s.operands.dst y :=
  compressRun_writes (out := fun x => chosenMember (lz4Admissible x) (lz4Ref x) s.members) rfl h rfl hy hfit

theorem snappyCompress_writes {s : State} (level : BitVec 4) {y : List Byte} (h : OneShotReady s 0 0 0)
    (hy : chosenMember (snappyAdmissible (s.bytesOf s.operands.src)) (snappyRef (s.bytesOf s.operands.src))
      s.members = y)
    (hfit : y.length ≤ s.operands.dstCap.toNat) :
    ∃ t, Ends (.snappyCompress level) s t (s.engine.finished
        { s.engine.results with len := BitVec.ofNat 32 y.length, used := s.operands.srcLen }) ∧
      Holds s t s.operands.dst y :=
  compressRun_writes (out := fun x => chosenMember (snappyAdmissible x) (snappyRef x) s.members) rfl h rfl hy hfit

/-- Of an empty input the only LZ4 block is the byte 00 (45_lz4.md R500). -/
theorem lz4Member_nil (members : List (List Byte)) :
    chosenMember (lz4Admissible []) (lz4Ref []) members = [0] := by
  refine chosenMember_of_forall (P := (· = [0])) rfl (fun y hy => ?_) members
  obtain ⟨-, -, -, -, -, hnil⟩ := lz4Admissible_iff.1 hy
  exact hnil rfl

theorem snappyElement_cases (tag : Nat) (extra : List Byte) :
    (∃ l, snappyElement tag extra = .literal l ∧ 0 < l) ∨ ∃ l off, snappyElement tag extra = .copy l off ∧ 0 < l := by
  unfold snappyElement
  split
  · refine .inl ⟨_, rfl, ?_⟩
    split <;> exact Nat.succ_pos _
  · exact .inr ⟨_, _, rfl, by omega⟩
  · exact .inr ⟨_, _, rfl, by omega⟩

/-- Where the output is complete, another element cannot decode (46_snappy.md R560): each one adds a byte. -/
theorem snappyElements_full {inp out : List Byte} {ip fuel : Nat} {tag : Byte} (htag : inp[ip]? = some tag)
    (r : List Byte) : snappyElements inp out.length (fuel + 1) ip out ≠ .ok r := by
  intro h
  rw [snappyElements, htag] at h
  dsimp only at h
  split at h
  · cases h
  · rcases snappyElement_cases tag.toNat ((inp.drop (ip + 1)).take (snappyExtra tag.toNat)) with
      ⟨l, hl, hpos⟩ | ⟨l, off, hl, hpos⟩
    · simp only [hl, if_pos (Nat.lt_add_of_pos_right hpos)] at h
      split at h <;> cases h
    · simp only [hl, if_pos (Nat.lt_add_of_pos_right hpos)] at h
      split at h <;> cases h

/-- Of an empty input the only Snappy block is the byte 00: its length, and no element (46_snappy.md R540, R550). -/
theorem snappyMember_nil (members : List (List Byte)) :
    chosenMember (snappyAdmissible []) (snappyRef []) members = [0] := by
  refine chosenMember_of_forall (P := (· = [0])) rfl (fun y hy => ?_) members
  obtain ⟨used, hdecode, -, hhead⟩ := snappyAdmissible_iff.1 hy
  have hvarint : varint ([] : List Byte).length = [0] := rfl
  rw [hvarint] at hhead
  rcases y with _ | ⟨b, _ | ⟨tag, rest⟩⟩
  · cases hhead
  · exact hhead
  · obtain rfl : b = 0 := by simpa using hhead
    have hlen : readVarint 32 (0 :: tag :: rest) 0 = .ok (0, 1) := readVarint_header (u := 0) [] (tag :: rest) (by decide)
    rw [snappyDecompress, hlen] at hdecode
    dsimp only at hdecode
    rw [if_neg (Nat.not_lt_zero _)] at hdecode
    split at hdecode
    · cases hdecode
    · next hout => exact absurd hout (snappyElements_full (out := []) rfl _)

/-- Settles O54: the member chosen is delivered; of an empty input there is one member only. -/
theorem compressCommands : Obligations.CompressCommands := by
  intro s level p x writes hready
  refine ⟨fun hlevel hfit => ?_, fun hpos hle hfit => ?_, fun hfit => lz4Compress_writes level hready rfl hfit,
    fun hfit => snappyCompress_writes level hready rfl hfit, fun hempty => ?_⟩
  · subst hlevel
    exact deflateCompress_writes (by decide) hready (deflateMember_zero _ _) hfit
  · exact deflateCompress_writes hle hready (deflateMember_of_pos hpos _ _) hfit
  · have hnil : s.bytesOf s.operands.src = [] := by
      have hlen : s.operands.src.len = 0 := congrArg BitVec.toNat hempty
      rw [State.bytesOf, hlen, Memory.readBytes]
    exact ⟨fun hfit => lz4Compress_writes level hready (hnil ▸ lz4Member_nil _) hfit,
      fun hfit => snappyCompress_writes level hready (hnil ▸ snappyMember_nil _) hfit⟩

/-! ### The bound commands -/

/-- A bound command has one check, that its bound fits in a register (44_deflate.md R462, 45_lz4.md R502, 46_snappy.md
R552). -/
theorem checksPhase_bound (p : Platform) (b : Nat) :
    checksPhase p { sizes := [b] } = if b < 2 ^ 32 then none else some .rangeWrap := by
  have hsizes : [b].all (fun n => decide (n < 2 ^ 32)) = decide (b < 2 ^ 32) := by simp
  rw [checksPhase, hsizes]
  by_cases hb : b < 2 ^ 32
  · rw [if_pos hb, decide_eq_true hb]; rfl
  · rw [if_neg hb, decide_eq_false hb]; rfl

/-- Settles O57: the one check decides, and a command that passes it only writes RESULT_LEN. -/
theorem boundCommands : Obligations.BoundCommands := by
  intro s n gives
  have hgives {i : Instr} {bound : Nat → Nat} (hi : exec i s = boundRun bound s) : gives i (bound n) := by
    dsimp only [boundRun] at hi
    have hchecks := checksPhase_bound s.platform (bound n)
    refine ⟨fun hfits => ?_, fun hwraps => endsInError_of_checks hi (hchecks.trans (if_neg hwraps.not_gt))⟩
    exact ⟨_, ends_of_checks hi (hchecks.trans (if_pos hfits)) rfl ⟨rfl, rfl, rfl, rfl⟩, fun _ => rfl⟩
  exact ⟨hgives (bound := deflateBoundOf) rfl, hgives (bound := lz4BoundOf) rfl, hgives (bound := snappyBoundOf) rfl⟩

end Sys2Proof.Machine
end

section
/-! ## The bounds of the block compressors

Every member a compressor writes, the reference member and the admissible ones, is within its bound, so a command with
room for the bound completes: 44_deflate.md R441, 45_lz4.md R500, 46_snappy.md R550. -/

namespace Sys2Proof.Machine

/-! ### DEFLATE -/

@[simp] theorem length_storedChunk (final : Bool) (x : List Byte) : (storedChunk final x).length = x.length + 5 := by
  simp only [storedChunk, List.length_append, List.length_cons, length_leBytes]
  omega

theorem storedChunks_of_le {x : List Byte} (h : x.length ≤ 65535) (fuel : Nat) :
    storedChunks fuel x = storedChunk true x := by
  cases fuel with
  | zero => rfl
  | succ fuel => exact if_pos h

theorem storedChunks_of_gt {x : List Byte} (h : 65535 < x.length) (fuel : Nat) :
    storedChunks (fuel + 1) x = storedChunk false (x.take 65535) ++ storedChunks fuel (x.drop 65535) :=
  if_neg h.not_ge

theorem length_storedChunks_le (fuel : Nat) (x : List Byte) :
    (storedChunks fuel x).length ≤ x.length + 5 * (fuel + 1) := by
  induction fuel generalizing x with
  | zero => rw [storedChunks, length_storedChunk]
  | succ fuel ih =>
    rcases Nat.lt_or_ge 65535 x.length with hlong | hshort
    · have hrest := ih (x.drop 65535)
      rw [storedChunks_of_gt hlong, List.length_append, length_storedChunk, List.length_take]
      rw [List.length_drop] at hrest
      omega
    · rw [storedChunks_of_le hshort, length_storedChunk]
      omega

theorem length_storedStream_le (x : List Byte) : (storedStream x).length ≤ deflateBoundOf x.length :=
  length_storedChunks_le _ x

/-- The reference member is the shorter of the two streams (44_deflate.md R450). -/
theorem length_deflateRef_le (level : Nat) (x : List Byte) : (deflateRef level x).length ≤ (storedStream x).length := by
  dsimp only [deflateRef]
  split
  · exact le_rfl
  · split
    · next hshorter => exact hshorter.le
    · exact le_rfl

theorem length_deflateMember_le (level : Nat) (members : List (List Byte)) (x : List Byte) :
    (deflateMember level members x).length ≤ deflateBoundOf x.length := by
  rcases Nat.eq_zero_or_pos level with rfl | hpos
  · exact deflateMember_zero members x ▸ length_storedStream_le x
  · rw [deflateMember_of_pos hpos]
    refine chosenMember_of_forall (P := fun y => y.length ≤ deflateBoundOf x.length)
      ((length_deflateRef_le level x).trans (length_storedStream_le x)) (fun y hy => ?_) members
    obtain ⟨-, -, -, -, hbound, -⟩ := deflateAdmissible_iff.1 hy
    exact hbound

/-! ### Matches -/

theorem commonLen_le_limit (limit : Nat) (as bs : List Byte) : commonLen limit as bs ≤ limit := by
  induction limit generalizing as bs with
  | zero => simp [commonLen]
  | succ limit ih =>
    rcases as with _ | ⟨a, as⟩
    · simp [commonLen]
    rcases bs with _ | ⟨b, bs⟩
    · simp [commonLen]
    have := ih as bs
    rw [commonLen]
    split <;> omega

theorem commonLen_le_length (limit : Nat) (as bs : List Byte) : commonLen limit as bs ≤ bs.length := by
  induction limit generalizing as bs with
  | zero => simp [commonLen]
  | succ limit ih =>
    rcases as with _ | ⟨a, as⟩
    · simp [commonLen]
    rcases bs with _ | ⟨b, bs⟩
    · simp [commonLen]
    have := ih as bs
    rw [commonLen, List.length_cons]
    split <;> omega

/-- A match has at least four bytes and ends inside the input (45_lz4.md R495, 46_snappy.md R545). -/
theorem matchLen_bounds {x : List Byte} {c ip stop : Nat} (h : matchLen x c ip stop ≠ 0) :
    4 ≤ matchLen x c ip stop ∧ matchLen x c ip stop ≤ x.length - ip := by
  have hle := commonLen_le_length (max 4 (stop - ip)) (x.drop c) (x.drop ip)
  rw [List.length_drop] at hle
  dsimp only [matchLen] at h ⊢
  split at h
  · next hfour => rw [if_pos hfour]; exact ⟨hfour, hle⟩
  · exact absurd rfl h

/-- The length of the match at `ip` against the position a hash table gives, 0 where there is none near enough
(45_lz4.md R495, 46_snappy.md R545). -/
def entryMatch (x : List Byte) (stop ip : Nat) (entry : Option Nat) : Nat :=
  match entry with
  | some c => if ip - c ≤ 65535 then matchLen x c ip stop else 0
  | none => 0

theorem exists_of_entryMatch_ne_zero {x : List Byte} {stop ip : Nat} {entry : Option Nat}
    (h : entryMatch x stop ip entry ≠ 0) :
    ∃ c, entry = some c ∧ ip - c ≤ 65535 ∧ matchLen x c ip stop = entryMatch x stop ip entry := by
  cases entry with
  | none => exact absurd rfl h
  | some c =>
    by_cases hnear : ip - c ≤ 65535
    · exact ⟨c, rfl, hnear, (if_pos hnear).symm⟩
    · exact absurd (if_neg hnear) h

/-! ### LZ4 -/

/-- One pass of the search loop: it ends, goes on by one byte, or writes a match against the position its table gives
(45_lz4.md R495). -/
theorem lz4Loop_succ_cases (x : List Byte) (fuel ip anchor : Nat) (table : List (Nat × Nat)) :
    (x.length < ip + 12 ∧ lz4Loop x (fuel + 1) ip anchor table = lz4LastSeq (x.drop anchor)) ∨
      (ip + 12 ≤ x.length ∧ lz4Loop x (fuel + 1) ip anchor table =
        lz4Loop x fuel (ip + 1) anchor ((lz4Hash (wordAt (x.drop ip)), ip) :: table)) ∨
      ∃ c l, ip + 12 ≤ x.length ∧ table.lookup (lz4Hash (wordAt (x.drop ip))) = some c ∧ ip - c ≤ 65535 ∧
        matchLen x c ip (x.length - 5) = l ∧ l ≠ 0 ∧ lz4Loop x (fuel + 1) ip anchor table =
          lz4Seq ((x.drop anchor).take (ip - anchor)) (ip - c) l ++
            lz4Loop x fuel (ip + l) (ip + l) ((lz4Hash (wordAt (x.drop ip)), ip) :: table) := by
  have hpass : lz4Loop x (fuel + 1) ip anchor table = if x.length < ip + 12 then _ else
      if entryMatch x (x.length - 5) ip (table.lookup (lz4Hash (wordAt (x.drop ip)))) = 0 then _ else _ := rfl
  by_cases hend : x.length < ip + 12
  · exact .inl ⟨hend, hpass.trans (if_pos hend)⟩
  rw [if_neg hend] at hpass
  refine .inr ?_
  by_cases hl : entryMatch x (x.length - 5) ip (table.lookup (lz4Hash (wordAt (x.drop ip)))) = 0
  · exact .inl ⟨by omega, hpass.trans (if_pos hl)⟩
  · obtain ⟨c, hc, hnear, hlen⟩ := exists_of_entryMatch_ne_zero hl
    refine .inr ⟨c, _, by omega, hc, hnear, hlen, hl, hpass.trans ((if_neg hl).trans ?_)⟩
    rw [hc]
    rfl

theorem length_lz4Extend (v : Nat) : (lz4Extend v).length = if v < 15 then 0 else (v - 15) / 255 + 1 := by
  rw [lz4Extend]
  split <;> simp

theorem length_lz4LastSeq_le (lits : List Byte) : (lz4LastSeq lits).length ≤ lz4BoundOf lits.length := by
  rw [lz4LastSeq, List.cons_append, List.length_cons, List.length_append, length_lz4Extend, lz4BoundOf]
  split <;> omega

theorem length_lz4Seq_le {lits : List Byte} {off ml : Nat} (h : 4 ≤ ml) :
    (lz4Seq lits off ml).length ≤ lits.length + ml + (lits.length + ml) / 255 := by
  simp only [lz4Seq, List.length_cons, List.length_append, length_lz4Extend, length_leBytes]
  split <;> split <;> omega

/-- The bound of the bytes still to be written holds at each pass: a sequence is no longer than its share. -/
theorem length_lz4Loop_le {x : List Byte} {fuel ip anchor : Nat} {table : List (Nat × Nat)} (ha : anchor ≤ ip)
    (hip : ip ≤ x.length) : (lz4Loop x fuel ip anchor table).length ≤ lz4BoundOf (x.length - anchor) := by
  have hlast (a : Nat) : (lz4LastSeq (x.drop a)).length ≤ lz4BoundOf (x.length - a) := by
    simpa using length_lz4LastSeq_le (x.drop a)
  induction fuel generalizing ip anchor table with
  | zero => exact hlast anchor
  | succ fuel ih =>
    obtain ⟨-, h⟩ | ⟨hmore, h⟩ | ⟨c, l, hmore, -, -, rfl, hl, h⟩ := lz4Loop_succ_cases x fuel ip anchor table
    · exact h ▸ hlast anchor
    · rw [h]
      exact ih (by omega) (by omega)
    · obtain ⟨hfour, hin⟩ := matchLen_bounds hl
      have hlits : ((x.drop anchor).take (ip - anchor)).length = ip - anchor := by
        rw [List.length_take, List.length_drop]; omega
      have hseq := length_lz4Seq_le (lits := (x.drop anchor).take (ip - anchor)) (off := ip - c) hfour
      have hrest := ih (table := (lz4Hash (wordAt (x.drop ip)), ip) :: table) le_rfl
        (show ip + matchLen x c ip (x.length - 5) ≤ x.length by omega)
      rw [h, List.length_append]
      rw [hlits] at hseq
      rw [lz4BoundOf] at hrest ⊢
      omega

theorem length_lz4Ref_le (x : List Byte) : (lz4Ref x).length ≤ lz4BoundOf x.length := by
  rw [lz4Ref]
  split
  · exact length_lz4LastSeq_le x
  · exact length_lz4Loop_le le_rfl (Nat.zero_le _)

theorem length_lz4Member_le (x : List Byte) (members : List (List Byte)) :
    (chosenMember (lz4Admissible x) (lz4Ref x) members).length ≤ lz4BoundOf x.length := by
  refine chosenMember_of_forall (P := fun y => y.length ≤ lz4BoundOf x.length) (length_lz4Ref_le x) (fun y hy => ?_)
    members
  obtain ⟨-, -, -, hbound, -⟩ := lz4Admissible_iff.1 hy
  exact hbound

/-! ### Snappy -/

/-- One pass of the search loop: it ends, goes on by one byte, or writes a match against the position its table gives
(46_snappy.md R545). -/
theorem snappyLoop_succ_cases (x : List Byte) (fuel ip anchor : Nat) (table : List (Nat × Nat)) :
    (x.length < ip + 4 ∧ snappyLoop x (fuel + 1) ip anchor table = snappyLiteral (x.drop anchor)) ∨
      (ip + 4 ≤ x.length ∧ snappyLoop x (fuel + 1) ip anchor table =
        snappyLoop x fuel (ip + 1) anchor ((snappyHash (wordAt (x.drop ip)), ip) :: table)) ∨
      ∃ c l, ip + 4 ≤ x.length ∧ table.lookup (snappyHash (wordAt (x.drop ip))) = some c ∧ ip - c ≤ 65535 ∧
        matchLen x c ip x.length = l ∧ l ≠ 0 ∧ snappyLoop x (fuel + 1) ip anchor table =
          snappyLiteral ((x.drop anchor).take (ip - anchor)) ++ snappyCopy (ip - c) l ++
            snappyLoop x fuel (ip + l) (ip + l) ((snappyHash (wordAt (x.drop ip)), ip) :: table) := by
  have hpass : snappyLoop x (fuel + 1) ip anchor table = if x.length < ip + 4 then _ else
      if entryMatch x x.length ip (table.lookup (snappyHash (wordAt (x.drop ip)))) = 0 then _ else _ := rfl
  by_cases hend : x.length < ip + 4
  · exact .inl ⟨hend, hpass.trans (if_pos hend)⟩
  rw [if_neg hend] at hpass
  refine .inr ?_
  by_cases hl : entryMatch x x.length ip (table.lookup (snappyHash (wordAt (x.drop ip)))) = 0
  · exact .inl ⟨by omega, hpass.trans (if_pos hl)⟩
  · obtain ⟨c, hc, hnear, hlen⟩ := exists_of_entryMatch_ne_zero hl
    refine .inr ⟨c, _, by omega, hc, hnear, hlen, hl, hpass.trans ((if_neg hl).trans ?_)⟩
    rw [hc]
    rfl

theorem length_varintFrom_le (fuel u : Nat) : (varintFrom fuel u).length ≤ fuel + 1 := by
  induction fuel generalizing u with
  | zero => exact le_rfl
  | succ fuel ih =>
    have := ih (u / 128)
    rw [varintFrom]
    split
    · simp
    · rw [List.length_cons]; omega

theorem snappyLenBytes_le (v : Nat) : snappyLenBytes v ≤ 4 := by
  rw [snappyLenBytes]
  split_ifs <;> decide

/-- A literal's head takes at most five bytes, one where the literal is short, none where it is empty (46_snappy.md
R545). -/
theorem length_snappyLiteral_le (b : List Byte) :
    (snappyLiteral b).length ≤ b.length + if b.length ≤ 60 then min b.length 1 else 5 := by
  have hbytes := snappyLenBytes_le (b.length - 1)
  rw [snappyLiteral]
  split
  · simp
  · next hne =>
    have hpos : 0 < b.length := List.length_pos_iff.2 (by simpa using hne)
    split
    · rw [List.length_cons]; omega
    · rw [List.cons_append, List.length_cons, List.length_append, length_leBytes]; omega

theorem length_snappyCopyPiece_le {off len : Nat} (h : off ≤ 65535) : (snappyCopyPiece off len).length ≤ 3 := by
  rw [snappyCopyPiece, if_pos h]
  split <;> simp

theorem length_snappyCopyFrom_lt {off fuel len : Nat} (hoff : off ≤ 65535) (hlen : 4 ≤ len) :
    (snappyCopyFrom off fuel len).length < len := by
  have hpiece (n : Nat) : (snappyCopyPiece off n).length ≤ 3 := length_snappyCopyPiece_le hoff
  induction fuel generalizing len with
  | zero => exact (hpiece len).trans_lt (by omega)
  | succ fuel ih =>
    rw [snappyCopyFrom]
    split
    · have hrest := ih (len := len - 64) (by omega)
      have := hpiece 64
      rw [List.length_append]; omega
    · split
      · have := hpiece 60
        have := hpiece (len - 60)
        rw [List.length_append]; omega
      · exact (hpiece len).trans_lt (by omega)

/-- What is written of `n` bytes that are left takes a sixth more, and the room of a last literal's head. -/
theorem length_snappyLoop_le {x : List Byte} {fuel ip anchor : Nat} {table : List (Nat × Nat)} (ha : anchor ≤ ip)
    (hip : ip ≤ x.length) :
    (snappyLoop x fuel ip anchor table).length ≤ x.length - anchor + (x.length - anchor) / 6 + 5 := by
  have hlast (a : Nat) : (snappyLiteral (x.drop a)).length ≤ x.length - a + (x.length - a) / 6 + 5 := by
    have := length_snappyLiteral_le (x.drop a)
    rw [List.length_drop] at this
    split at this <;> omega
  induction fuel generalizing ip anchor table with
  | zero => exact hlast anchor
  | succ fuel ih =>
    obtain ⟨-, h⟩ | ⟨hmore, h⟩ | ⟨c, l, hmore, -, hnear, rfl, hl, h⟩ := snappyLoop_succ_cases x fuel ip anchor table
    · exact h ▸ hlast anchor
    · rw [h]
      exact ih (by omega) (by omega)
    · obtain ⟨hfour, hin⟩ := matchLen_bounds hl
      have hcopy : (snappyCopy (ip - c) (matchLen x c ip x.length)).length < matchLen x c ip x.length :=
        length_snappyCopyFrom_lt hnear hfour
      have hlits := length_snappyLiteral_le ((x.drop anchor).take (ip - anchor))
      have hrest := ih (table := (snappyHash (wordAt (x.drop ip)), ip) :: table) le_rfl
        (show ip + matchLen x c ip x.length ≤ x.length by omega)
      rw [show ((x.drop anchor).take (ip - anchor)).length = ip - anchor by
        rw [List.length_take, List.length_drop]; omega] at hlits
      rw [h, List.length_append, List.length_append]
      split at hlits <;> omega

theorem length_snappyRef_le (x : List Byte) : (snappyRef x).length ≤ snappyBoundOf x.length := by
  have hhead : (varint x.length).length ≤ 10 := length_varintFrom_le 9 x.length
  have hloop := length_snappyLoop_le (x := x) (fuel := x.length) (table := []) le_rfl (Nat.zero_le x.length)
  rw [snappyRef, List.length_append, snappyBoundOf]
  omega

theorem length_snappyMember_le (x : List Byte) (members : List (List Byte)) :
    (chosenMember (snappyAdmissible x) (snappyRef x) members).length ≤ snappyBoundOf x.length := by
  refine chosenMember_of_forall (P := fun y => y.length ≤ snappyBoundOf x.length) (length_snappyRef_le x)
    (fun y hy => ?_) members
  obtain ⟨-, -, hbound, -⟩ := snappyAdmissible_iff.1 hy
  exact hbound

/-! ### Room for the bound -/

/-- A command that writes an output within a bound completes within it, where there is room for the bound. -/
theorem completes_of_writes {i : Instr} {s : State} {y : List Byte} {bound : Nat}
    (hwrites : y.length ≤ s.operands.dstCap.toNat → ∃ t, Ends i s t (s.engine.finished
        { s.engine.results with len := BitVec.ofNat 32 y.length, used := s.operands.srcLen }) ∧
      Holds s t s.operands.dst y)
    (hy : y.length ≤ bound) (hroom : bound ≤ s.operands.dstCap.toNat) :
    ∃ t, exec i s = .next t ∧ t.engine.status.err = false ∧ t.engine.results.used = s.operands.srcLen ∧
      t.engine.results.len.toNat ≤ bound := by
  obtain ⟨t, ⟨hexec, hengine, -⟩, -⟩ := hwrites (hy.trans hroom)
  refine ⟨t, hexec, ?_, ?_, ?_⟩
  · rw [hengine]; rfl
  · rw [hengine]; rfl
  · rw [hengine]
    exact (BitVec.toNat_ofNat y.length 32).trans_le ((Nat.mod_le _ _).trans hy)

/-- Settles O55: every member is within the bound, so it fits. -/
theorem compressWithinBound : Obligations.CompressWithinBound := by
  intro s level hready n cap completes
  have hlen : (s.bytesOf s.operands.src).length = n := length_readBytes ..
  refine ⟨fun hlevel => completes_of_writes (deflateCompress_writes hlevel hready rfl) ?_,
    completes_of_writes (lz4Compress_writes level hready rfl) ?_,
    completes_of_writes (snappyCompress_writes level hready rfl) ?_⟩
  · exact hlen ▸ length_deflateMember_le level.toNat s.members _
  · exact hlen ▸ length_lz4Member_le _ s.members
  · exact hlen ▸ length_snappyMember_le _ s.members

end Sys2Proof.Machine
end

section
/-! ## The room a block decoder has

No decoder makes its output longer than its room, so a command that decompresses delivers it; and what a DEFLATE stream
decodes to does not depend on the room it fits in. -/

namespace Sys2Proof.Machine

@[simp] theorem length_copyBack (off len : Nat) (out : List Byte) :
    (copyBack off len out).length = out.length + len := by
  induction len generalizing out with
  | zero => rfl
  | succ len ih => rw [copyBack, ih, List.length_cons]; omega

/-! ### LZ4 -/

theorem length_out_of_lz4Sequences {inp : List Byte} {cap fuel ip : Nat} {o r : Lz4Output}
    (h : lz4Sequences inp cap fuel ip o = .ok r) : r.out.length ≤ cap := by
  induction fuel generalizing ip o with
  | zero => cases h
  | succ fuel ih =>
    unfold lz4Sequences at h
    dsimp only at h
    split at h
    · cases h
    split at h
    · cases h
    split at h
    · cases h
    split at h
    · cases h
    next hroom =>
    split at h
    · cases h
      rw [List.length_append, List.length_reverse, List.length_take]
      omega
    split at h
    · cases h
    split at h
    · cases h
    split at h
    · cases h
    split at h
    · cases h
    · exact ih h

theorem length_of_lz4Decompress {inp out : List Byte} {cap used : Nat}
    (h : lz4Decompress inp cap = .ok (out, used)) : out.length ≤ cap := by
  rw [lz4Decompress] at h
  split at h
  · cases h
  · next ho =>
    cases h
    exact (List.length_reverse ..).trans_le (length_out_of_lz4Sequences ho)

/-! ### Snappy -/

theorem length_of_snappyElements {inp out r : List Byte} {len fuel ip : Nat} (hout : out.length ≤ len)
    (h : snappyElements inp len fuel ip out = .ok r) : r.length ≤ len := by
  induction fuel generalizing ip out with
  | zero => cases h; exact hout
  | succ fuel ih =>
    unfold snappyElements at h
    dsimp only at h
    split at h
    · split at h
      · cases h; exact hout
      · cases h
    split at h
    · cases h
    split at h
    · split at h
      · cases h
      split at h
      · cases h
      · refine ih ?_ h
        rw [List.length_append, List.length_reverse, List.length_take]
        omega
    · split at h
      · cases h
      split at h
      · cases h
      · refine ih ?_ h
        rw [length_copyBack]
        omega

theorem length_of_snappyDecompress {inp out : List Byte} {cap used : Nat}
    (h : snappyDecompress inp cap = .ok (out, used)) : out.length ≤ cap := by
  rw [snappyDecompress] at h
  split at h
  · cases h
  split at h
  · cases h
  split at h
  · cases h
  next hroom _ _ ho =>
  cases h
  have := length_of_snappyElements (Nat.zero_le _) ho
  rw [List.length_reverse]
  omega

/-! ### DEFLATE -/

/-- A stage that gives `r` with room for `cap` bytes: its output is in the room, and with more room it is the same. -/
structure FitsIn (stage : Nat → Except ErrorCode Inflated) (cap : Nat) (r : Inflated) : Prop where
  length_le : r.out.length ≤ cap
  of_le : ∀ {c}, cap ≤ c → stage c = .ok r

theorem inflateCopy_fitsIn {dist : List (Nat × Nat × Nat)} {inp : List Byte} {cap s : Nat} {o r : Inflated}
    (h : inflateCopy dist inp cap s o = .ok r) : FitsIn (fun c => inflateCopy dist inp c s o) cap r := by
  unfold inflateCopy at h
  split at h
  · cases h
  next hlen =>
  split at h
  · cases h
  next hsym =>
  split at h
  · cases h
  next hoff =>
  split at h
  · cases h
  next hback =>
  split at h
  · cases h
  next hroom =>
  cases h
  refine ⟨by simpa using hroom, fun hc => ?_⟩
  simp only [inflateCopy, hlen, hsym, hoff, if_neg hback]
  rw [if_neg (by omega)]

/-- The same for a symbol, which can also end its block (44_deflate.md R413). -/
theorem inflateSymbol_room {dist : List (Nat × Nat × Nat)} {inp : List Byte} {cap s : Nat} {o r : Inflated}
    {ended : Bool} (ho : o.out.length ≤ cap) (h : inflateSymbol dist inp cap s o = .ok (ended, r)) :
    r.out.length ≤ cap ∧ ∀ c, cap ≤ c → inflateSymbol dist inp c s o = .ok (ended, r) := by
  unfold inflateSymbol at h
  split at h
  · next hlit =>
    split at h
    · cases h
    · cases h
      refine ⟨by rw [List.length_cons]; omega, fun c hc => ?_⟩
      rw [inflateSymbol, if_pos hlit, if_neg (by omega)]
  next hlit =>
  split at h
  · next hend =>
    cases h
    exact ⟨ho, fun c hc => by rw [inflateSymbol, if_neg hlit, if_pos hend]⟩
  next hend =>
  split at h
  · cases h
  next hcopy =>
  cases h
  have hfits := inflateCopy_fitsIn hcopy
  refine ⟨hfits.length_le, fun c hc => ?_⟩
  have hmore := hfits.of_le hc
  simp only [inflateSymbol, if_neg hlit, if_neg hend, hmore]

theorem inflateData_fitsIn {lit dist : List (Nat × Nat × Nat)} {inp : List Byte} {cap fuel : Nat} {o r : Inflated}
    (ho : o.out.length ≤ cap) (h : inflateData lit dist inp cap fuel o = .ok r) :
    FitsIn (fun c => inflateData lit dist inp c fuel o) cap r := by
  induction fuel generalizing o with
  | zero => cases h
  | succ fuel ih =>
    unfold inflateData at h
    split at h
    · cases h
    next sym bp hsym =>
    split at h
    · cases h
    next ended o' hstep =>
    obtain ⟨hlen, hmore⟩ := inflateSymbol_room (o := { o with bp := bp }) ho hstep
    split at h
    · next hended =>
      cases h
      refine ⟨hlen, fun hc => ?_⟩
      simp only [inflateData, hsym, hmore _ hc, if_pos hended]
    · next hended =>
      have hrest := ih hlen h
      refine ⟨hrest.length_le, fun hc => ?_⟩
      simp only [inflateData, hsym, hmore _ hc, if_neg hended]
      exact hrest.of_le hc

theorem inflateStored_room {inp out r : List Byte} {cap bp q : Nat} (h : inflateStored inp cap bp out = .ok (r, q)) :
    r.length ≤ cap ∧ ∀ c, cap ≤ c → inflateStored inp c bp out = .ok (r, q) := by
  unfold inflateStored at h
  dsimp only at h
  split at h
  · cases h
  next hhead =>
  split at h
  · cases h
  next hcheck =>
  split at h
  · cases h
  next hdata =>
  split at h
  · cases h
  next hroom =>
  cases h
  refine ⟨?_, fun c hc => ?_⟩
  · rw [List.length_append, List.length_reverse, List.length_take]
    omega
  · simp only [inflateStored, if_neg hhead, if_neg hcheck, if_neg hdata]
    rw [if_neg (by omega)]

/-- The body of a block, its header already read: stored, fixed or dynamic (44_deflate.md R402). -/
def inflateBody (inp : List Byte) (cap : Nat) : Nat → Inflated → Except ErrorCode Inflated
  | 0, o => do
    let (out, bp) ← inflateStored inp cap o.bp o.out
    .ok { o with out := out, bp := bp }
  | 1, o => inflateData (codeTable fixedLitLens) (codeTable fixedDistLens) inp cap (8 * inp.length + 1) o
  | 2, o => do
    let (lit, dist, bp) ← readDynamic inp o.bp
    inflateData lit dist inp cap (8 * inp.length + 1) { o with bp := bp, dynamic := true }
  | _, _ => .error .badBlockType

/-- A stream is a block and, where that is not the final one, the blocks after it (44_deflate.md R402, R430). -/
theorem inflateBlocks_succ_eq_ok_iff {inp : List Byte} {cap fuel : Nat} {o r : Inflated} :
    inflateBlocks inp cap (fuel + 1) o = .ok r ↔
      ∃ final type bp₁ bp₂ o', takeBits inp o.bp 1 = .ok (final, bp₁) ∧ takeBits inp bp₁ 2 = .ok (type, bp₂) ∧
        inflateBody inp cap type { o with bp := bp₂ } = .ok o' ∧
        (if final = 1 then .ok o' else inflateBlocks inp cap fuel o') = .ok r := by
  have hblocks : inflateBlocks inp cap (fuel + 1) o = (takeBits inp o.bp 1 >>= fun f => takeBits inp f.2 2 >>= fun t =>
      inflateBody inp cap t.1 { o with bp := t.2 } >>= fun o' =>
        if f.1 = 1 then .ok o' else inflateBlocks inp cap fuel o') := by
    rw [inflateBlocks]
    refine congrArg (takeBits inp o.bp 1 >>= ·) (funext fun (final, bp) =>
      congrArg (takeBits inp bp 2 >>= ·) (funext fun (type, bp) => ?_))
    rcases type with _ | _ | _ | type
    · exact (bind_assoc (inflateStored inp cap bp o.out) _ _).symm
    · rfl
    · exact (bind_assoc (readDynamic inp bp) _ _).symm
    · rfl
  rw [hblocks]
  constructor
  · intro h
    obtain ⟨⟨final, bp₁⟩, hfinal, h⟩ := except_bind_ok h
    obtain ⟨⟨type, bp₂⟩, htype, h⟩ := except_bind_ok h
    obtain ⟨o', hbody, h⟩ := except_bind_ok h
    exact ⟨final, type, bp₁, bp₂, o', hfinal, htype, hbody, h⟩
  · rintro ⟨final, type, bp₁, bp₂, o', hfinal, htype, hbody, h⟩
    rw [hfinal]
    show (takeBits inp bp₁ 2 >>= _) = _
    rw [htype]
    show (inflateBody inp cap type _ >>= _) = _
    rw [hbody]
    exact h

theorem inflateBody_fitsIn {inp : List Byte} {cap type : Nat} {o r : Inflated} (ho : o.out.length ≤ cap)
    (h : inflateBody inp cap type o = .ok r) : FitsIn (fun c => inflateBody inp c type o) cap r := by
  rcases type with _ | _ | _ | type
  · obtain ⟨⟨out, bp⟩, hstored, hr⟩ := except_bind_ok h
    cases hr
    obtain ⟨hlen, hmore⟩ := inflateStored_room hstored
    refine ⟨hlen, fun hc => ?_⟩
    simp only [inflateBody, hmore _ hc]
    rfl
  · exact inflateData_fitsIn ho h
  · obtain ⟨⟨lit, dist, bp⟩, hcodes, hdata⟩ := except_bind_ok h
    have hfits := inflateData_fitsIn (o := { o with bp := bp, dynamic := true }) ho hdata
    refine ⟨hfits.length_le, fun hc => ?_⟩
    simp only [inflateBody, hcodes]
    exact hfits.of_le hc
  · cases h

theorem inflateBlocks_fitsIn {inp : List Byte} {cap fuel : Nat} {o r : Inflated} (ho : o.out.length ≤ cap)
    (h : inflateBlocks inp cap fuel o = .ok r) : FitsIn (fun c => inflateBlocks inp c fuel o) cap r := by
  induction fuel generalizing o with
  | zero => cases h
  | succ fuel ih =>
    obtain ⟨final, type, bp₁, bp₂, o', hfinal, htype, hbody, hr⟩ := inflateBlocks_succ_eq_ok_iff.1 h
    have hblock := inflateBody_fitsIn (o := { o with bp := bp₂ }) ho hbody
    by_cases hlast : final = 1
    · rw [if_pos hlast] at hr
      cases hr
      exact ⟨hblock.length_le, fun hc => inflateBlocks_succ_eq_ok_iff.2
        ⟨final, type, bp₁, bp₂, _, hfinal, htype, hblock.of_le hc, if_pos hlast⟩⟩
    · rw [if_neg hlast] at hr
      have hrest := ih hblock.length_le hr
      exact ⟨hrest.length_le, fun hc => inflateBlocks_succ_eq_ok_iff.2
        ⟨final, type, bp₁, bp₂, _, hfinal, htype, hblock.of_le hc, (if_neg hlast).trans (hrest.of_le hc)⟩⟩

theorem inflate_fitsIn {inp : List Byte} {cap : Nat} {r : Inflated} (h : inflate inp cap = .ok r) :
    FitsIn (inflate inp) cap r :=
  inflateBlocks_fitsIn (Nat.zero_le cap) h

theorem deflateDecompress_eq_ok_iff {inp out : List Byte} {cap used : Nat} :
    deflateDecompress inp cap = .ok (out, used) ↔
      ∃ o, inflate inp cap = .ok o ∧ o.out.reverse = out ∧ ceilDiv o.bp 8 = used := by
  rw [deflateDecompress]
  cases inflate inp cap with
  | error e => simp
  | ok o => simp

theorem length_of_deflateDecompress {inp out : List Byte} {cap used : Nat}
    (h : deflateDecompress inp cap = .ok (out, used)) : out.length ≤ cap := by
  obtain ⟨o, ho, rfl, -⟩ := deflateDecompress_eq_ok_iff.1 h
  exact (List.length_reverse ..).trans_le (inflate_fitsIn ho).length_le

/-! ### The commands that decompress -/

theorem decompressRun_of_error {decoder : List Byte → Nat → Except ErrorCode (List Byte × Nat)} {s : State}
    {e : ErrorCode} (h : OneShotReady s 0 0 0)
    (he : decoder (s.bytesOf s.operands.src) s.operands.dstCap.toNat = .error e) :
    decompressRun decoder s = .next (raise e s.operands.dst s) := by
  dsimp only [decompressRun]
  rw [runCommand_of_checks (h.checks rfl (List.forall_mem_nil _))]
  simp only [he]

theorem decompressRun_of_output {decoder : List Byte → Nat → Except ErrorCode (List Byte × Nat)} {s : State}
    {out : List Byte} {used : Nat} (h : OneShotReady s 0 0 0)
    (hout : decoder (s.bytesOf s.operands.src) s.operands.dstCap.toNat = .ok (out, used)) :
    decompressRun decoder s =
      .next (deliver s.operands.dst out { s.engine.results with used := BitVec.ofNat 32 used } s) := by
  dsimp only [decompressRun]
  rw [runCommand_of_checks (h.checks rfl (List.forall_mem_nil _))]
  simp only [hout]

/-- Settles O56: the decoder's error is raised, and its output, which no decoder makes longer than the room, is
delivered. -/
theorem decompressCommands : Obligations.DecompressCommands := by
  intro s hready p inp decodes
  have hdecodes {i : Instr} {decoder : List Byte → Nat → Except ErrorCode (List Byte × Nat)}
      (hi : exec i s = decompressRun decoder s)
      (hfits : ∀ out used, decoder inp p.dstCap.toNat = .ok (out, used) → out.length ≤ p.dstCap.toNat) :
      decodes i (decoder inp p.dstCap.toNat) := by
    refine ⟨fun e he => ?_, fun out used hout => ?_⟩
    · have hexec := hi.trans (decompressRun_of_error hready he)
      exact ⟨_, ⟨hexec, others_refl s, rfl, rfl, rfl, rfl, rfl⟩, fun _ ha => raise_read e _ s ha⟩
    · have hexec := hi.trans (decompressRun_of_output hready hout)
      have hfit : _ ≤ s.operands.dst.len := hfits out used hout
      exact ⟨_, ends_of_deliver hexec (others_refl s) hfit, deliver_holds _ s hfit⟩
  exact ⟨hdecodes rfl fun _ _ => length_of_deflateDecompress, hdecodes rfl fun _ _ => length_of_lz4Decompress,
    hdecodes rfl fun _ _ => length_of_snappyDecompress⟩

end Sys2Proof.Machine
end

section
/-! ## DEFLATE

What the compressor writes decodes to its input: the bits of a stream, canonical codes, stored blocks, LZ77 tokens and
fixed-Huffman blocks, then the round trip of 44_deflate.md R465. -/

namespace Sys2Proof.Machine

/-! ### The bits of a stream -/

/-- The stream has these bits from position `bp` on (44_deflate.md R401). -/
structure HasBits (inp : List Byte) (bp : Nat) (bits : List Bool) : Prop where
  inside : bp + bits.length ≤ 8 * inp.length
  bit : ∀ j, j < bits.length → bitAt inp (bp + j) = bits.getD j false

theorem hasBits_append_iff {inp : List Byte} {bp : Nat} {as bs : List Bool} :
    HasBits inp bp (as ++ bs) ↔ HasBits inp bp as ∧ HasBits inp (bp + as.length) bs := by
  constructor
  · rintro ⟨hin, hbit⟩
    rw [List.length_append] at hin hbit
    refine ⟨⟨by omega, fun j hj => ?_⟩, by omega, fun j hj => ?_⟩
    · rw [hbit j (by omega), List.getD_append _ _ _ _ hj]
    · rw [Nat.add_assoc, hbit _ (by omega), List.getD_append_right _ _ _ _ (Nat.le_add_right _ _),
        Nat.add_sub_cancel_left]
  · rintro ⟨has, hbs⟩
    have hin := hbs.inside
    refine ⟨by rw [List.length_append]; omega, fun j hj => ?_⟩
    rw [List.length_append] at hj
    by_cases hja : j < as.length
    · rw [has.bit j hja, List.getD_append _ _ _ _ hja]
    · rw [List.getD_append_right _ _ _ _ (by omega), ← hbs.bit _ (by omega)]
      congr 1
      omega

theorem takeBits_of_hasBits {inp : List Byte} {bp k v : Nat} (hv : v < 2 ^ k) (h : HasBits inp bp (bitsOf k v)) :
    takeBits inp bp k = .ok (v, bp + k) := by
  have hin := h.inside
  rw [length_bitsOf] at hin
  have hvalue : getBits inp bp k = v := eq_of_testBit_lt (getBits_lt _ _ _) hv fun j hj => by
    rw [testBit_getBits, decide_eq_true hj, Bool.true_and, h.bit j (by rwa [length_bitsOf]), getD_bitsOf _ _ _ hj]
  rw [takeBits, if_neg (by omega), hvalue]

theorem takeBits_one {inp : List Byte} {bp : Nat} {b : Bool} (h : HasBits inp bp [b]) :
    takeBits inp bp 1 = .ok (b.toNat, bp + 1) := by
  refine takeBits_of_hasBits (by cases b <;> decide) ?_
  cases b <;> exact h

theorem hasBits_bytesOfBits {n : Nat} {bits : List Bool} (h : bits.length ≤ 8 * n) :
    HasBits (bytesOfBits n bits) 0 bits :=
  ⟨by rw [length_bytesOfBits]; omega, fun j hj => by rw [Nat.zero_add, bitAt_bytesOfBits n bits (by omega)]⟩

theorem hasBits_byteOf (n : Nat) : HasBits [byteOf n] 0 (bitsOf 8 n) := by
  refine ⟨by simp, fun j hj => ?_⟩
  rw [length_bitsOf] at hj
  rw [getD_bitsOf _ _ _ hj, Nat.zero_add, bitAt, Nat.div_eq_of_lt hj, Nat.mod_eq_of_lt hj, List.getD_cons_zero,
    getLsbD_byteOf, decide_eq_true hj, Bool.true_and]

/-- The bits of bytes that stand between others. -/
theorem HasBits.between {bs : List Byte} {bits : List Bool} (h : HasBits bs 0 bits) (before after : List Byte) :
    HasBits (before ++ bs ++ after) (8 * before.length) bits := by
  have hin := h.inside
  refine ⟨by simp only [List.length_append]; omega, fun j hj => ?_⟩
  have hbit := h.bit j hj
  rwa [Nat.zero_add, ← bitAt_between before bs after (by omega)] at hbit

/-! ### Stored blocks -/

/-- A part of a byte string that stands between two others. -/
theorem take_drop_part {x pre bs post : List Byte} (h : x = pre ++ bs ++ post) (before after : List Byte) :
    ((before ++ x ++ after).drop (before.length + pre.length)).take bs.length = bs := by
  rw [h, show before ++ (pre ++ bs ++ post) ++ after = (before ++ pre) ++ (bs ++ (post ++ after)) by
    simp only [List.append_assoc], List.drop_left' (List.length_append ..), List.take_left' rfl]

/-- A stored block is read back, its header's three bits already read (44_deflate.md R403, R454). -/
theorem inflateStored_storedChunk {x before after out : List Byte} {final : Bool} {cap : Nat}
    (hlen : x.length ≤ 65535) (hroom : out.length + x.length ≤ cap) :
    inflateStored (before ++ storedChunk final x ++ after) cap (8 * before.length + 3) out =
      .ok (x.reverse ++ out, 8 * (before ++ storedChunk final x).length) := by
  have hstart : ceilDiv (8 * before.length + 3) 8 = before.length + 1 := by rw [ceilDiv]; omega
  have hxor : x.length ^^^ 0xFFFF < 256 ^ 2 :=
    (Nat.xor_lt_two_pow (n := 16) (by omega) (by decide) : x.length ^^^ 0xFFFF < 2 ^ 16)
  have hlenField := take_drop_part (x := storedChunk final x) (pre := [byteOf final.toNat]) (bs := leBytes 2 x.length)
    (post := leBytes 2 (x.length ^^^ 0xFFFF) ++ x) (by simp [storedChunk]) before after
  have hnlenField := take_drop_part (x := storedChunk final x) (pre := byteOf final.toNat :: leBytes 2 x.length)
    (bs := leBytes 2 (x.length ^^^ 0xFFFF)) (post := x) (by simp [storedChunk]) before after
  have hdata := take_drop_part (x := storedChunk final x)
    (pre := byteOf final.toNat :: leBytes 2 x.length ++ leBytes 2 (x.length ^^^ 0xFFFF)) (bs := x) (post := [])
    (by simp [storedChunk]) before after
  simp only [List.length_append, List.length_cons, List.length_nil, length_leBytes, Nat.zero_add, Nat.reduceAdd]
    at hlenField hnlenField hdata
  have htotal : (before ++ storedChunk final x ++ after).length = before.length + (x.length + 5) + after.length := by
    rw [List.length_append, List.length_append, length_storedChunk]
  dsimp only [inflateStored]
  rw [hstart, htotal, if_neg (by omega), Nat.add_assoc before.length 1 2, Nat.add_assoc before.length 1 4, hlenField,
    hnlenField, leValue_leBytes _ _ hxor, leValue_leBytes 2 x.length (by omega), if_neg (not_not.2 rfl), if_neg (by omega),
    if_neg (by omega), hdata, List.length_append, length_storedChunk]
  congr 3
  omega

/-- The header of a stored block: BFINAL and BTYPE 0 (44_deflate.md R402, R454). -/
theorem takeBits_storedChunk (before after x : List Byte) (final : Bool) :
    takeBits (before ++ storedChunk final x ++ after) (8 * before.length) 1 =
        .ok (final.toNat, 8 * before.length + 1) ∧
      takeBits (before ++ storedChunk final x ++ after) (8 * before.length + 1) 2 =
        .ok (0, 8 * before.length + 3) := by
  have hbits := (hasBits_byteOf final.toNat).between before
    (leBytes 2 x.length ++ leBytes 2 (x.length ^^^ 0xFFFF) ++ x ++ after)
  rw [show before ++ [byteOf final.toNat] ++ (leBytes 2 x.length ++ leBytes 2 (x.length ^^^ 0xFFFF) ++ x ++ after) =
      before ++ storedChunk final x ++ after by simp [storedChunk],
    show bitsOf 8 final.toNat = [final] ++ (bitsOf 2 0 ++ bitsOf 5 0) by cases final <;> rfl, hasBits_append_iff,
    hasBits_append_iff] at hbits
  obtain ⟨hfinal, htype, -⟩ := hbits
  exact ⟨takeBits_one hfinal, takeBits_of_hasBits (by decide) htype⟩

/-- A stored block of a stream: the final one ends the decoding, after another it goes on (44_deflate.md R430). -/
theorem inflateBlocks_storedChunk {x before after : List Byte} {final : Bool} {cap fuel : Nat} {o r : Inflated}
    (hbp : o.bp = 8 * before.length) (hlen : x.length ≤ 65535) (hroom : o.out.length + x.length ≤ cap)
    (hrest : (if final.toNat = 1 then .ok { o with
        out := x.reverse ++ o.out
        bp := 8 * (before ++ storedChunk final x).length }
      else inflateBlocks (before ++ storedChunk final x ++ after) cap fuel { o with
        out := x.reverse ++ o.out
        bp := 8 * (before ++ storedChunk final x).length }) = .ok r) :
    inflateBlocks (before ++ storedChunk final x ++ after) cap (fuel + 1) o = .ok r := by
  obtain ⟨hfinal, htype⟩ := takeBits_storedChunk before after x final
  refine inflateBlocks_succ_eq_ok_iff.2 ⟨_, _, _, _, _, hbp ▸ hfinal, htype, ?_, hrest⟩
  simp only [inflateBody, inflateStored_storedChunk hlen hroom]
  rfl

/-- Reading stored blocks, wherever they stand, gives their data: each takes bits, so the fuel is enough. -/
theorem inflateBlocks_storedChunks {x before inp : List Byte} {cap k fuel : Nat} {o : Inflated}
    (hinp : inp = before ++ storedChunks k x) (hbp : o.bp = 8 * before.length) (hlen : x.length ≤ 65535 * (k + 1))
    (hroom : o.out.length + x.length ≤ cap) (hfuel : 8 * inp.length < fuel + o.bp) :
    ∃ r, inflateBlocks inp cap fuel o = .ok r ∧ r.out = x.reverse ++ o.out := by
  induction fuel generalizing k x before o with
  | zero => rw [hinp, List.length_append, hbp] at hfuel; omega
  | succ fuel ih =>
    rcases Nat.lt_or_ge 65535 x.length with hlong | hshort
    · obtain ⟨k, rfl⟩ : ∃ j, k = j + 1 := ⟨k - 1, by omega⟩
      rw [storedChunks_of_gt hlong, ← List.append_assoc] at hinp
      have htake : (x.take 65535).length = 65535 := by rw [List.length_take]; omega
      obtain ⟨r, hr, hout⟩ := ih (o := { o with
        out := (x.take 65535).reverse ++ o.out
        bp := 8 * (before ++ storedChunk false (x.take 65535)).length }) hinp rfl
        (by rw [List.length_drop]; omega)
        (by simp only [List.length_append, List.length_reverse, List.length_drop, htake]; omega)
        (by simp only [List.length_append, length_storedChunk]; omega)
      refine ⟨r, ?_, ?_⟩
      · subst hinp
        exact inflateBlocks_storedChunk hbp htake.le (by omega) hr
      · rw [hout, ← List.append_assoc, ← List.reverse_append, List.take_append_drop]
    · rw [storedChunks_of_le hshort, ← List.append_nil (before ++ _)] at hinp
      subst hinp
      exact ⟨_, inflateBlocks_storedChunk hbp hshort hroom (if_pos rfl), rfl⟩

theorem inflate_storedStream {x : List Byte} {cap : Nat} (h : x.length ≤ cap) :
    ∃ r, inflate (storedStream x) cap = .ok r ∧ r.out = x.reverse := by
  obtain ⟨r, hr, hout⟩ := inflateBlocks_storedChunks (before := []) (k := x.length / 65535) (cap := cap) (x := x)
    (o := ⟨[], 0, false, false⟩) (fuel := 8 * (storedStream x).length + 1) (List.nil_append _).symm rfl (by omega)
    (by simpa using h) (Nat.lt_succ_self _)
  exact ⟨r, hr, hout.trans (List.append_nil _)⟩

/-! ### Canonical codes -/

/-- A table of codes as (length, code, symbol) that a decoder reads one bit at a time: no code is the beginning of
another, and no symbol has two (44_deflate.md R405, R411). -/
structure PrefixCode (table : List (Nat × Nat × Nat)) : Prop where
  length_pos : ∀ t ∈ table, 0 < t.1
  length_le : ∀ t ∈ table, t.1 ≤ 15
  code_lt : ∀ t ∈ table, t.2.1 < 2 ^ t.1
  eq_of_begins : ∀ t ∈ table, ∀ u ∈ table, u.2.1 / 2 ^ (u.1 - t.1) = t.2.1 → t.1 ≤ u.1 → t = u
  symbol_inj : ∀ t ∈ table, ∀ u ∈ table, t.2.2 = u.2.2 → t = u

/-- A code's bits, most significant first (44_deflate.md R404). -/
def codeBits (t : Nat × Nat × Nat) : List Bool := (bitsOf t.1 t.2.1).reverse

@[simp] theorem length_codeBits (t : Nat × Nat × Nat) : (codeBits t).length = t.1 := by
  rw [codeBits, List.length_reverse, length_bitsOf]

theorem reverse_bitsOf_succ (k v : Nat) : (bitsOf (k + 1) v).reverse = v.testBit k :: (bitsOf k v).reverse := by
  simp [bitsOf_eq_map_testBit, List.range_succ]

theorem find?_eq_some_of_unique {α : Type} {l : List α} {p : α → Bool} {a : α} (ha : a ∈ l) (hp : p a = true)
    (h : ∀ b ∈ l, p b = true → b = a) : l.find? p = some a := by
  cases hfind : l.find? p with
  | none => exact absurd hp (List.find?_eq_none.1 hfind a ha)
  | some b => rw [h b (List.mem_of_find?_eq_some hfind) (List.find?_some hfind)]

/-- Whether an entry of a table has this length and this code. -/
def codeIs (l c : Nat) (t : Nat × Nat × Nat) : Bool := t.1 == l && t.2.1 == c

theorem decodeSymFrom_of_found {table : List (Nat × Nat × Nat)} {inp : List Byte} {left l c bp : Nat} {b : Bool}
    {t : Nat × Nat × Nat} (hb : HasBits inp bp [b])
    (h : table.find? (codeIs (l + 1) (2 * c + b.toNat)) = some t) :
    decodeSymFrom table inp (left + 1) l c bp = .ok (t.2.2, bp + 1) := by
  unfold codeIs at h
  simp only [decodeSymFrom, takeBits_one hb, h]

theorem decodeSymFrom_of_not_found {table : List (Nat × Nat × Nat)} {inp : List Byte} {left l c bp : Nat} {b : Bool}
    (hb : HasBits inp bp [b]) (h : table.find? (codeIs (l + 1) (2 * c + b.toNat)) = none) :
    decodeSymFrom table inp (left + 1) l c bp = decodeSymFrom table inp left (l + 1) (2 * c + b.toNat) (bp + 1) := by
  unfold codeIs at h
  simp only [decodeSymFrom, takeBits_one hb, h]

theorem two_mul_add_testBit (v k : Nat) : 2 * (v / 2 ^ (k + 1)) + (v.testBit k).toNat = v / 2 ^ k := by
  rw [Nat.toNat_testBit, pow_succ, ← Nat.div_div_eq_div_mul]
  omega

/-- An entry whose code begins the code of `t` is `t` itself (44_deflate.md R411). -/
theorem PrefixCode.eq_of_codeIs {table : List (Nat × Nat × Nat)} (h : PrefixCode table) {t u : Nat × Nat × Nat}
    (ht : t ∈ table) (hu : u ∈ table) {k : Nat} (hk : k < t.1) (hcode : codeIs (t.1 - k) (t.2.1 / 2 ^ k) u = true) :
    u = t := by
  simp only [codeIs, Bool.and_eq_true, beq_iff_eq] at hcode
  obtain ⟨hlen, hprefix⟩ := hcode
  exact h.eq_of_begins u hu t ht (by rw [hprefix, hlen, Nat.sub_sub_self hk.le]) (by omega)

/-- The bits of a code that are left, `k + 1` of them, lead to its symbol. -/
theorem decodeSymFrom_of_prefixCode {table : List (Nat × Nat × Nat)} (h : PrefixCode table) {t : Nat × Nat × Nat}
    (ht : t ∈ table) {inp : List Byte} {k left bp : Nat} (hk : k < t.1) (hleft : k ≤ left)
    (hbits : HasBits inp bp (bitsOf (k + 1) t.2.1).reverse) :
    decodeSymFrom table inp (left + 1) (t.1 - (k + 1)) (t.2.1 / 2 ^ (k + 1)) bp = .ok (t.2.2, bp + (k + 1)) := by
  induction k generalizing left bp with
  | zero =>
    have hcode : codeIs (t.1 - (0 + 1) + 1) (2 * (t.2.1 / 2 ^ (0 + 1)) + (t.2.1.testBit 0).toNat) =
        codeIs (t.1 - 0) (t.2.1 / 2 ^ 0) := by
      rw [two_mul_add_testBit, Nat.sub_add_cancel hk, Nat.sub_zero]
    rw [reverse_bitsOf_succ] at hbits
    refine decodeSymFrom_of_found hbits ?_
    rw [hcode]
    exact find?_eq_some_of_unique ht (by simp [codeIs]) fun u hu hcode => h.eq_of_codeIs ht hu hk hcode
  | succ k ih =>
    rw [reverse_bitsOf_succ, ← List.singleton_append, hasBits_append_iff, List.length_singleton] at hbits
    obtain ⟨hbit, hrest⟩ := hbits
    obtain ⟨left, rfl⟩ : ∃ n, left = n + 1 := ⟨left - 1, by omega⟩
    have hlen : t.1 - (k + 1 + 1) + 1 = t.1 - (k + 1) := by omega
    have hnone : table.find? (codeIs (t.1 - (k + 1)) (t.2.1 / 2 ^ (k + 1))) = none := by
      refine List.find?_eq_none.2 fun u hu hcode => ?_
      have hut := h.eq_of_codeIs ht hu hk hcode
      simp only [codeIs, Bool.and_eq_true, beq_iff_eq, hut] at hcode
      omega
    rw [decodeSymFrom_of_not_found hbit (by rwa [two_mul_add_testBit, hlen]), two_mul_add_testBit, hlen,
      ih (by omega) (by omega) hrest, Nat.add_assoc, Nat.add_comm 1]

/-- Decoding the bits of a code gives its symbol (44_deflate.md R404, R411). -/
theorem decodeSym_codeBits {table : List (Nat × Nat × Nat)} (h : PrefixCode table) {t : Nat × Nat × Nat}
    (ht : t ∈ table) {inp : List Byte} {bp : Nat} (hbits : HasBits inp bp (codeBits t)) :
    decodeSym table inp bp = .ok (t.2.2, bp + t.1) := by
  have hpos := h.length_pos t ht
  have hle := h.length_le t ht
  obtain ⟨k, hk⟩ : ∃ k, t.1 = k + 1 := ⟨t.1 - 1, by omega⟩
  rw [codeBits, hk] at hbits
  have hread := decodeSymFrom_of_prefixCode h ht (left := 14) (by omega) (by omega) hbits
  rwa [← hk, Nat.sub_self, Nat.div_eq_of_lt (h.code_lt t ht)] at hread

theorem huffBits_of_mem {lens : List Nat} (h : PrefixCode (codeTable lens)) {t : Nat × Nat × Nat}
    (ht : t ∈ codeTable lens) : huffBits lens t.2.2 = codeBits t := by
  have hfind : (codeTable lens).find? (fun u => u.2.2 == t.2.2) = some t :=
    find?_eq_some_of_unique ht (beq_self_eq_true _) fun u hu hsym => h.symbol_inj u hu t ht (beq_iff_eq.1 hsym)
  rw [huffBits, hfind]
  rfl

/-- Decoding what the encoder writes for a symbol of the code gives it back, and takes a bit at least. -/
theorem decodeSym_huffBits {lens : List Nat} (h : PrefixCode (codeTable lens)) {sym : Nat}
    (hsym : ∃ t ∈ codeTable lens, t.2.2 = sym) :
    0 < (huffBits lens sym).length ∧ ∀ {inp : List Byte} {bp : Nat}, HasBits inp bp (huffBits lens sym) →
      decodeSym (codeTable lens) inp bp = .ok (sym, bp + (huffBits lens sym).length) := by
  obtain ⟨t, ht, rfl⟩ := hsym
  rw [huffBits_of_mem h ht, length_codeBits]
  exact ⟨h.length_pos t ht, fun hbits => decodeSym_codeBits h ht hbits⟩

/-! ### The fixed codes -/

/-- Symbols of one length take codes that follow one another (44_deflate.md R405). -/
theorem assignCodes_replicate {l : Nat} (hl : l ≠ 0) (n : Nat) (lens : List Nat) (sym : Nat) (next : List Nat)
    (hnext : l < next.length) :
    assignCodes (List.replicate n l ++ lens) sym next =
      (List.range n).map (fun i => (l, next.getD l 0 + i, sym + i)) ++
        assignCodes lens (sym + n) (next.set l (next.getD l 0 + n)) := by
  induction n generalizing sym next with
  | zero => simp [List.getD_eq_getElem?_getD, hnext]
  | succ n ih =>
    have hset : (next.set l (next.getD l 0 + 1)).getD l 0 = next.getD l 0 + 1 := by
      simp [List.getD_eq_getElem?_getD, hnext]
    rw [List.replicate_succ, List.cons_append, assignCodes, if_neg hl, ih _ _ (by simpa using hnext), hset,
      List.set_set, List.range_succ_eq_map, List.map_cons, List.map_map, List.cons_append]
    simp only [Function.comp_def, Nat.add_zero, Nat.succ_eq_add_one, Nat.add_assoc, Nat.add_comm 1]

/-- The codes of `n` symbols from `sym` on, of length `l`, from the code `c` on. -/
def codeRange (l c sym n : Nat) : List (Nat × Nat × Nat) := (List.range n).map fun i => (l, c + i, sym + i)

theorem mem_codeRange {l c sym n : Nat} {t : Nat × Nat × Nat} :
    t ∈ codeRange l c sym n ↔ t.1 = l ∧ sym ≤ t.2.2 ∧ t.2.2 < sym + n ∧ t.2.1 = c + (t.2.2 - sym) := by
  obtain ⟨tl, tc, ts⟩ := t
  simp only [codeRange, List.mem_map, List.mem_range, Prod.mk.injEq]
  constructor
  · rintro ⟨i, hi, rfl, rfl, rfl⟩
    omega
  · rintro ⟨rfl, hlo, hhi, rfl⟩
    exact ⟨ts - sym, by omega, rfl, rfl, by omega⟩

theorem getD_set_self {next : List Nat} {l : Nat} (h : l < next.length) (v : Nat) : (next.set l v).getD l 0 = v := by
  simp [List.getD_eq_getElem?_getD, h]

theorem getD_set_ne {next : List Nat} {l m : Nat} (h : l ≠ m) (v : Nat) :
    (next.set l v).getD m 0 = next.getD m 0 := by
  simp [List.getD_eq_getElem?_getD, h]

theorem getD_firstCodes (lens : List Nat) {l : Nat} (h : l < 16) :
    ((List.range 16).map (firstCode lens)).getD l 0 = firstCode lens l := by
  simp [List.getD_eq_getElem?_getD, h]

theorem assignCodes_fixedLitLens {next : List Nat} (hlen : next.length = 16) (h7 : next.getD 7 0 = 0)
    (h8 : next.getD 8 0 = 48) (h9 : next.getD 9 0 = 400) :
    assignCodes fixedLitLens 0 next =
      codeRange 8 48 0 144 ++ (codeRange 9 400 144 112 ++ (codeRange 7 0 256 24 ++ codeRange 8 192 280 8)) := by
  have hlens : fixedLitLens = List.replicate 144 8 ++ (List.replicate 112 9 ++ (List.replicate 24 7 ++
      (List.replicate 8 8 ++ []))) := by
    simp only [fixedLitLens, List.append_assoc, List.append_nil]
  rw [hlens, assignCodes_replicate (by decide), assignCodes_replicate (by decide), assignCodes_replicate (by decide),
    assignCodes_replicate (by decide), assignCodes, List.append_nil, h8, getD_set_ne (by decide), h9,
    getD_set_ne (by decide), getD_set_ne (by decide), h7, getD_set_ne (by decide), getD_set_ne (by decide),
    getD_set_self]
  · rfl
  all_goals simp [hlen]

/-- The fixed literal/length code (44_deflate.md R412). -/
theorem codeTable_fixedLitLens : codeTable fixedLitLens =
    codeRange 8 48 0 144 ++ (codeRange 9 400 144 112 ++ (codeRange 7 0 256 24 ++ codeRange 8 192 280 8)) := by
  have hcount (b : Nat) : lenCount fixedLitLens b = if b = 0 then 0 else
      (if 8 = b then 144 else 0) + (if 9 = b then 112 else 0) + (if 7 = b then 24 else 0) + if 8 = b then 8 else 0 := by
    simp only [lenCount, fixedLitLens, List.count_append, List.count_replicate, beq_iff_eq]
  refine assignCodes_fixedLitLens (by simp) ?_ ?_ ?_
  all_goals
    rw [getD_firstCodes fixedLitLens (by decide)]
    simp only [firstCode, hcount]
    rfl

/-- The fixed distance code (44_deflate.md R412). -/
theorem codeTable_fixedDistLens : codeTable fixedDistLens = codeRange 5 0 0 32 := by
  have hcount (b : Nat) : lenCount fixedDistLens b = if b = 0 then 0 else if 5 = b then 32 else 0 := by
    simp only [lenCount, fixedDistLens, List.count_replicate, beq_iff_eq]
  have hfirst : ((List.range 16).map (firstCode fixedDistLens)).getD 5 0 = 0 := by
    rw [getD_firstCodes fixedDistLens (by decide)]
    simp only [firstCode, hcount]
    rfl
  rw [codeTable, fixedDistLens, ← List.append_nil (List.replicate 32 5), assignCodes_replicate (by decide) _ _ _ _
    (by simp), assignCodes, List.append_nil, List.append_nil, ← fixedDistLens, hfirst]
  rfl

/-- The entry of a literal/length symbol in the fixed code (44_deflate.md R405, R412). -/
def fixedLitEntry (s : Nat) : Nat × Nat × Nat :=
  if s < 144 then (8, 48 + s, s)
  else if s < 256 then (9, 400 + (s - 144), s)
  else if s < 280 then (7, s - 256, s)
  else (8, 192 + (s - 280), s)

theorem mem_codeTable_fixedLitLens {t : Nat × Nat × Nat} :
    t ∈ codeTable fixedLitLens ↔ t.2.2 < 288 ∧ t = fixedLitEntry t.2.2 := by
  obtain ⟨l, c, s⟩ := t
  simp only [codeTable_fixedLitLens, List.mem_append, mem_codeRange, fixedLitEntry]
  split_ifs <;> simp only [Prod.mk.injEq, and_true] <;> omega

@[simp] theorem fixedLitEntry_symbol (s : Nat) : (fixedLitEntry s).2.2 = s := by
  unfold fixedLitEntry
  split_ifs <;> rfl

/-- The lengths of the fixed literal/length code and the range of the codes of each. -/
theorem fixedLitEntry_range {s : Nat} (h : s < 288) :
    ((fixedLitEntry s).1 = 7 ∧ (fixedLitEntry s).2.1 < 24) ∨
      ((fixedLitEntry s).1 = 8 ∧ 48 ≤ (fixedLitEntry s).2.1 ∧ (fixedLitEntry s).2.1 < 200) ∨
      ((fixedLitEntry s).1 = 9 ∧ 400 ≤ (fixedLitEntry s).2.1 ∧ (fixedLitEntry s).2.1 < 512) := by
  unfold fixedLitEntry
  split_ifs
  · exact .inr (.inl ⟨rfl, Nat.le_add_right _ _, by simp only; omega⟩)
  · exact .inr (.inr ⟨rfl, Nat.le_add_right _ _, by simp only; omega⟩)
  · exact .inl ⟨rfl, by simp only; omega⟩
  · exact .inr (.inl ⟨rfl, by simp only; omega, by simp only; omega⟩)

theorem fixedLitEntry_inj {s u : Nat} (hs : s < 288) (hu : u < 288) (hlen : (fixedLitEntry s).1 = (fixedLitEntry u).1)
    (hcode : (fixedLitEntry s).2.1 = (fixedLitEntry u).2.1) : s = u := by
  unfold fixedLitEntry at hlen hcode
  split_ifs at hlen hcode <;> simp only at hlen hcode <;> omega

/-- No fixed literal/length code begins another: those of 7 bits are below 24, those of 8 below 200 but not below 48,
those of 9 not below 400. -/
theorem prefixCode_fixedLitLens : PrefixCode (codeTable fixedLitLens) := by
  have hentry {t : Nat × Nat × Nat} (ht : t ∈ codeTable fixedLitLens) :
      ∃ s, s < 288 ∧ t = fixedLitEntry s := ⟨_, mem_codeTable_fixedLitLens.1 ht⟩
  refine ⟨fun t ht => ?_, fun t ht => ?_, fun t ht => ?_, fun t ht u hu hcode hle => ?_, fun t ht u hu hsym => ?_⟩
  all_goals
    obtain ⟨s, hs, rfl⟩ := hentry ht
    have hrange := fixedLitEntry_range hs
  · omega
  · omega
  · obtain ⟨hl, hc⟩ | ⟨hl, -, hc⟩ | ⟨hl, -, hc⟩ := hrange <;> rw [hl] <;> omega
  · obtain ⟨v, hv, rfl⟩ := hentry hu
    have hrange' := fixedLitEntry_range hv
    have hsame : (fixedLitEntry v).1 - (fixedLitEntry s).1 = 0 := by
      by_contra hne
      have hbits : (fixedLitEntry v).1 - (fixedLitEntry s).1 = 1 ∨ (fixedLitEntry v).1 - (fixedLitEntry s).1 = 2 := by
        omega
      rcases hbits with hbits | hbits <;> rw [hbits] at hcode <;> omega
    rw [hsame, pow_zero, Nat.div_one] at hcode
    rw [fixedLitEntry_inj hs hv (by omega) hcode.symm]
  · obtain ⟨v, hv, rfl⟩ := hentry hu
    rw [fixedLitEntry_symbol, fixedLitEntry_symbol] at hsym
    rw [hsym]

theorem mem_codeTable_fixedDistLens {t : Nat × Nat × Nat} :
    t ∈ codeTable fixedDistLens ↔ ∃ s, s < 32 ∧ t = (5, s, s) := by
  simp only [codeTable_fixedDistLens, codeRange, List.mem_map, List.mem_range, Nat.zero_add, eq_comm]

theorem prefixCode_fixedDistLens : PrefixCode (codeTable fixedDistLens) := by
  refine ⟨fun t ht => ?_, fun t ht => ?_, fun t ht => ?_, fun t ht u hu hcode _ => ?_, fun t ht u hu hsym => ?_⟩
  all_goals obtain ⟨s, hs, rfl⟩ := mem_codeTable_fixedDistLens.1 ht
  · exact Nat.succ_pos 4
  · exact Nat.le_add_left 5 10
  · exact hs
  · obtain ⟨v, hv, rfl⟩ := mem_codeTable_fixedDistLens.1 hu
    simp only [Nat.sub_self, pow_zero, Nat.div_one] at hcode
    rw [hcode]
  · obtain ⟨v, hv, rfl⟩ := mem_codeTable_fixedDistLens.1 hu
    simp only at hsym
    rw [hsym]

theorem decodeSym_fixedLit {sym : Nat} (h : sym < 288) :
    0 < (huffBits fixedLitLens sym).length ∧ ∀ {inp : List Byte} {bp : Nat}, HasBits inp bp (huffBits fixedLitLens sym) →
      decodeSym (codeTable fixedLitLens) inp bp = .ok (sym, bp + (huffBits fixedLitLens sym).length) :=
  decodeSym_huffBits prefixCode_fixedLitLens ⟨fixedLitEntry sym,
    mem_codeTable_fixedLitLens.2 (by rw [fixedLitEntry_symbol]; exact ⟨h, rfl⟩), fixedLitEntry_symbol sym⟩

theorem decodeSym_fixedDist {sym : Nat} (h : sym < 32) :
    0 < (huffBits fixedDistLens sym).length ∧
      ∀ {inp : List Byte} {bp : Nat}, HasBits inp bp (huffBits fixedDistLens sym) →
        decodeSym (codeTable fixedDistLens) inp bp = .ok (sym, bp + (huffBits fixedDistLens sym).length) :=
  decodeSym_huffBits prefixCode_fixedDistLens ⟨(5, sym, sym), mem_codeTable_fixedDistLens.2 ⟨sym, h, rfl⟩, rfl⟩

/-! ### Lengths and distances -/

theorem basedRow_add (first i : Nat) (table : List (Nat × Nat)) : basedRow first table (first + i) = table[i]? := by
  rw [basedRow]
  induction table generalizing first i with
  | nil => rfl
  | cons row table ih =>
    rw [List.length_cons, List.range'_succ, List.zip_cons_cons, List.lookup_cons]
    cases i with
    | zero => simp
    | succ i =>
      rw [show (first + (i + 1) == first) = false by simp, show first + (i + 1) = first + 1 + i by omega]
      exact ih (first + 1) i

/-- Rows of rising bases without a gap: the values of a row reach to the next row's base, those of the last to `limit`
(44_deflate.md R406, R407). -/
def NoGap (limit : Nat) : Nat × Nat → List (Nat × Nat) → Prop
  | row, [] => limit ≤ row.1 + 2 ^ row.2
  | row, next :: rest => row.1 ≤ next.1 ∧ next.1 ≤ row.1 + 2 ^ row.2 ∧ NoGap limit next rest

theorem basedIndex_of_lt {limit v : Nat} {row : Nat × Nat} {rest : List (Nat × Nat)} (h : NoGap limit row rest)
    (hv : v < row.1) (i : Nat) (best : Nat × Nat × Nat) : basedIndex v rest i best = best := by
  induction rest generalizing row i with
  | nil => rfl
  | cons next rest ih =>
    obtain ⟨hle, -, hrest⟩ := h
    rw [basedIndex, if_neg (by omega)]
    exact ih hrest (by omega) _

/-- The row found holds the value: its base is not above it, and its extra bits reach it (44_deflate.md R453). -/
theorem basedIndex_spec {limit v i : Nat} {table rest : List (Nat × Nat)} {best : Nat × Nat × Nat}
    (hgap : NoGap limit best.2 rest) (hbest : table[best.1]? = some best.2) (hbase : best.2.1 ≤ v) (hv : v < limit)
    (hrest : table.drop i = rest) :
    table[(basedIndex v rest i best).1]? = some (basedIndex v rest i best).2 ∧
      (basedIndex v rest i best).2.1 ≤ v ∧
      v < (basedIndex v rest i best).2.1 + 2 ^ (basedIndex v rest i best).2.2 := by
  induction rest generalizing i best with
  | nil => exact ⟨hbest, hbase, hv.trans_le hgap⟩
  | cons next rest ih =>
    obtain ⟨-, hreach, hnext⟩ := hgap
    rw [basedIndex]
    by_cases hle : next.1 ≤ v
    · rw [if_pos hle]
      refine ih hnext ?_ hle ?_
      · rw [← List.head?_drop, hrest, List.head?_cons]
      · rw [← List.drop_drop, hrest, List.drop_one, List.tail_cons]
    · rw [if_neg hle, basedIndex_of_lt hnext (by omega)]
      exact ⟨hbest, hbase, by omega⟩

theorem basedIndex_lengthTable {len : Nat} (h3 : 3 ≤ len) (h258 : len ≤ 258) :
    lengthTable[(basedIndex len lengthTable 0 (0, 0, 0)).1]? = some (basedIndex len lengthTable 0 (0, 0, 0)).2 ∧
      (basedIndex len lengthTable 0 (0, 0, 0)).2.1 ≤ len ∧
      len < (basedIndex len lengthTable 0 (0, 0, 0)).2.1 + 2 ^ (basedIndex len lengthTable 0 (0, 0, 0)).2.2 := by
  have hfirst : basedIndex len lengthTable 0 (0, 0, 0) = basedIndex len (lengthTable.drop 1) 1 (0, 3, 0) := by
    rw [lengthTable, basedIndex, if_pos h3]; rfl
  rw [hfirst]
  exact basedIndex_spec (limit := 259) (by simp [NoGap, lengthTable]) rfl h3 (by omega) rfl

theorem basedIndex_distTable {dist : Nat} (h1 : 1 ≤ dist) (hmax : dist ≤ 32768) :
    distTable[(basedIndex dist distTable 0 (0, 0, 0)).1]? = some (basedIndex dist distTable 0 (0, 0, 0)).2 ∧
      (basedIndex dist distTable 0 (0, 0, 0)).2.1 ≤ dist ∧
      dist < (basedIndex dist distTable 0 (0, 0, 0)).2.1 + 2 ^ (basedIndex dist distTable 0 (0, 0, 0)).2.2 := by
  have hfirst : basedIndex dist distTable 0 (0, 0, 0) = basedIndex dist (distTable.drop 1) 1 (0, 1, 0) := by
    rw [distTable, basedIndex, if_pos h1]; rfl
  rw [hfirst]
  exact basedIndex_spec (limit := 32769) (by simp [NoGap, distTable]) rfl h1 (by omega) rfl

/-- A base and extra bits give the value they were written for (44_deflate.md R406, R407, R453). -/
theorem takeBased_of_hasBits {row : Nat × Nat} {inp : List Byte} {bp v : Nat} (hle : row.1 ≤ v)
    (hlt : v < row.1 + 2 ^ row.2) (h : HasBits inp bp (bitsOf row.2 (v - row.1))) :
    takeBased (some row) inp bp = .ok (v, bp + row.2) := by
  simp only [takeBased, takeBits_of_hasBits (show v - row.1 < 2 ^ row.2 by omega) h, Nat.add_sub_cancel' hle]

/-! ### Tokens -/

/-- The `len` bytes of `x` from position `p` on are those `dist` bytes back, with a length and a distance the format has
(44_deflate.md R406, R407). -/
structure MatchAt (x : List Byte) (p len dist : Nat) : Prop where
  dist_pos : 1 ≤ dist
  dist_le : dist ≤ p
  dist_max : dist ≤ 32768
  len_max : len ≤ 258
  inside : p + len ≤ x.length
  same : ∀ k, k < len → x[p - dist + k]? = x[p + k]?

/-- The tokens stand for the bytes of `x` from position `p` to the end. -/
inductive TokensOf (x : List Byte) : Nat → List Token → Prop where
  | nil : TokensOf x x.length []
  | lit {p : Nat} {b : Byte} {ts : List Token} (hb : x[p]? = some b) (hrest : TokensOf x (p + 1) ts) :
    TokensOf x p (.lit b :: ts)
  | copy {p len dist : Nat} {ts : List Token} (hlen : 3 ≤ len) (hmatch : MatchAt x p len dist)
    (hrest : TokensOf x (p + len) ts) : TokensOf x p (.copy len dist :: ts)

theorem reverse_take_succ {x : List Byte} {p : Nat} {b : Byte} (hb : x[p]? = some b) :
    (x.take (p + 1)).reverse = b :: (x.take p).reverse := by
  rw [List.take_add_one, hb, Option.toList_some, List.reverse_append]
  rfl

/-- A copy adds the bytes of its match (70_reset_and_hazards.md R716). -/
theorem copyBack_of_same {x : List Byte} {p dist len : Nat} (hpos : 1 ≤ dist) (hle : dist ≤ p)
    (hin : p + len ≤ x.length) (hsame : ∀ k, k < len → x[p - dist + k]? = x[p + k]?) :
    copyBack dist len (x.take p).reverse = (x.take (p + len)).reverse := by
  induction len generalizing p with
  | zero => rfl
  | succ len ih =>
    have hp : x[p]? = some x[p] := List.getElem?_eq_getElem (by omega)
    have hbyte : (x.take p).reverse.getD (dist - 1) 0 = x[p] := by
      have hback := hsame 0 (Nat.succ_pos len)
      rw [Nat.add_zero, Nat.add_zero, hp] at hback
      have hlength : (x.take p).length = p := by rw [List.length_take]; omega
      rw [List.getD_eq_getElem?_getD, List.getElem?_reverse (by omega), hlength,
        show p - 1 - (dist - 1) = p - dist by omega, List.getElem?_take_of_lt (by omega), hback]
      rfl
    rw [copyBack, hbyte, ← reverse_take_succ hp, ih (by omega) (by omega) fun k hk => ?_, Nat.add_assoc, Nat.add_comm 1]
    have := hsame (k + 1) (by omega)
    rwa [show p - dist + (k + 1) = p + 1 - dist + k by omega, ← Nat.add_assoc, Nat.add_right_comm] at this

/-! ### The data of a fixed block -/

/-- The decoder of a fixed block's data (44_deflate.md R412, R413). -/
def inflateFixed (inp : List Byte) (cap fuel : Nat) (o : Inflated) : Except ErrorCode Inflated :=
  inflateData (codeTable fixedLitLens) (codeTable fixedDistLens) inp cap fuel o

theorem inflateFixed_lit {inp : List Byte} {cap fuel : Nat} {o : Inflated} {b : Byte}
    (h : HasBits inp o.bp (tokenBits (.lit b))) (hroom : o.out.length < cap) :
    inflateFixed inp cap (fuel + 1) o =
      inflateFixed inp cap fuel { o with out := b :: o.out, bp := o.bp + (tokenBits (.lit b)).length } := by
  obtain ⟨-, hread⟩ := decodeSym_fixedLit (sym := b.toNat) (by omega)
  have hb : byteOf b.toNat = b := BitVec.ofNat_toNat ..
  simp only [inflateFixed, inflateData, hread h, inflateSymbol, if_pos b.isLt, if_neg hroom.not_ge, hb]
  rfl

theorem inflateFixed_end {inp : List Byte} {cap fuel : Nat} {o : Inflated}
    (h : HasBits inp o.bp (huffBits fixedLitLens 256)) :
    inflateFixed inp cap (fuel + 1) o = .ok { o with bp := o.bp + (huffBits fixedLitLens 256).length } := by
  obtain ⟨-, hread⟩ := decodeSym_fixedLit (sym := 256) (by decide)
  simp only [inflateFixed, inflateData, hread h, inflateSymbol]
  rfl

/-- A copy's two symbols and their extra bits give its length and its distance (44_deflate.md R413, R453). -/
theorem inflateFixed_copy {inp : List Byte} {cap fuel len dist : Nat} {o : Inflated}
    (h : HasBits inp o.bp (tokenBits (.copy len dist))) (hlen : 3 ≤ len) (hlenMax : len ≤ 258) (hdist : 1 ≤ dist)
    (hdistMax : dist ≤ 32768) (hback : dist ≤ o.out.length) (hroom : o.out.length + len ≤ cap) :
    ∃ long284, inflateFixed inp cap (fuel + 1) o = inflateFixed inp cap fuel { o with
      out := copyBack dist len o.out
      bp := o.bp + (tokenBits (.copy len dist)).length
      long284 := long284 } := by
  obtain ⟨hlrow, hlle, hllt⟩ := basedIndex_lengthTable hlen hlenMax
  obtain ⟨hdrow, hdle, hdlt⟩ := basedIndex_distTable hdist hdistMax
  rw [tokenBits] at h ⊢
  generalize basedIndex len lengthTable 0 (0, 0, 0) = l at *
  generalize basedIndex dist distTable 0 (0, 0, 0) = d at *
  have hl : l.1 < 29 := (List.getElem?_eq_some_iff.1 hlrow).1
  have hd : d.1 < 30 := (List.getElem?_eq_some_iff.1 hdrow).1
  simp only [hasBits_append_iff, List.length_append, length_bitsOf, ← Nat.add_assoc] at h ⊢
  obtain ⟨⟨⟨hlsym, hlextra⟩, hdsym⟩, hdextra⟩ := h
  have hlread := (decodeSym_fixedLit (sym := 257 + l.1) (by omega)).2 hlsym
  have hdread := (decodeSym_fixedDist (sym := d.1) (by omega)).2 hdsym
  have hlvalue := takeBased_of_hasBits hlle hllt hlextra
  have hdvalue := takeBased_of_hasBits hdle hdlt hdextra
  rw [← hlrow, ← basedRow_add 257] at hlvalue
  rw [← hdrow, ← basedRow_add 0, Nat.zero_add] at hdvalue
  refine ⟨o.long284 || (257 + l.1 == 284 && len == 258), ?_⟩
  simp only [inflateFixed, inflateData, hlread, inflateSymbol, inflateCopy, hlvalue, hdread, hdvalue]
  rw [if_neg (by omega), if_neg (by omega), if_neg hback.not_gt, if_neg hroom.not_gt]
  rfl

theorem tokenBits_pos {x : List Byte} {p : Nat} {t : Token} {ts : List Token} (h : TokensOf x p (t :: ts)) :
    0 < (tokenBits t).length := by
  cases h with
  | lit hb _ => exact (decodeSym_fixedLit (by omega)).1
  | copy hlen hmatch _ =>
    obtain ⟨hrow, -, -⟩ := basedIndex_lengthTable hlen hmatch.len_max
    have hl := (List.getElem?_eq_some_iff.1 hrow).1
    have hpos := (decodeSym_fixedLit (sym := 257 + (basedIndex _ lengthTable 0 (0, 0, 0)).1)
      (Nat.add_lt_add_left (show _ < 31 from hl.trans (by decide)) 257)).1
    rw [tokenBits, List.append_assoc, List.append_assoc, List.length_append]
    omega

/-- Decoding the bits of tokens that stand for the rest of `x` completes `x`: each token takes a bit, so the fuel is
enough. -/
theorem inflateFixed_tokens {x inp : List Byte} {cap fuel p : Nat} {ts : List Token} {o : Inflated}
    (hts : TokensOf x p ts) (hcap : x.length ≤ cap) (hout : o.out = (x.take p).reverse)
    (hbits : HasBits inp o.bp (ts.flatMap tokenBits ++ huffBits fixedLitLens 256))
    (hfuel : 8 * inp.length < fuel + o.bp) : ∃ r, inflateFixed inp cap fuel o = .ok r ∧ r.out = x.reverse := by
  have hlength (q : Nat) (hq : q ≤ x.length) : (x.take q).reverse.length = q := by
    rw [List.length_reverse, List.length_take]; omega
  obtain ⟨fuel, rfl⟩ : ∃ n, fuel = n + 1 := ⟨fuel - 1, by have := hbits.inside; omega⟩
  induction hts generalizing o fuel with
  | nil => exact ⟨_, inflateFixed_end hbits, by rw [hout, List.take_length]⟩
  | @lit p b ts hb hrest ih =>
    have hpos := tokenBits_pos (.lit hb hrest)
    have hp := (List.getElem?_eq_some_iff.1 hb).1
    rw [List.flatMap_cons, List.append_assoc, hasBits_append_iff] at hbits
    obtain ⟨hhead, htail⟩ := hbits
    have hin := htail.inside
    obtain ⟨fuel, rfl⟩ : ∃ n, fuel = n + 1 := ⟨fuel - 1, by omega⟩
    rw [inflateFixed_lit hhead (by rw [hout, hlength p hp.le]; omega)]
    exact ih (by rw [hout, reverse_take_succ hb]) htail fuel (by simp only; omega)
  | @copy p len dist ts hlen hmatch hrest ih =>
    have hpos := tokenBits_pos (.copy hlen hmatch hrest)
    have hp := hmatch.inside
    have hdist := hmatch.dist_le
    rw [List.flatMap_cons, List.append_assoc, hasBits_append_iff] at hbits
    obtain ⟨hhead, htail⟩ := hbits
    have hin := htail.inside
    obtain ⟨fuel, rfl⟩ : ∃ n, fuel = n + 1 := ⟨fuel - 1, by omega⟩
    have holen : o.out.length = p := by rw [hout, hlength p (by omega)]
    obtain ⟨long284, hstep⟩ := inflateFixed_copy (cap := cap) (fuel := fuel + 1) hhead hlen hmatch.len_max
      hmatch.dist_pos hmatch.dist_max (by omega) (by omega)
    rw [hstep]
    exact ih (by rw [hout, copyBack_of_same hmatch.dist_pos hdist hp hmatch.same]) htail fuel (by simp only; omega)

/-- A fixed block that is the whole stream (44_deflate.md R453). -/
theorem inflate_fixedStream {x : List Byte} {ts : List Token} {cap : Nat} (hts : TokensOf x 0 ts)
    (hcap : x.length ≤ cap) : ∃ r, inflate (fixedStream ts) cap = .ok r ∧ r.out = x.reverse := by
  have hbits : HasBits (fixedStream ts) 0
      ([true, true, false] ++ ts.flatMap tokenBits ++ huffBits fixedLitLens 256) :=
    hasBits_bytesOfBits (by rw [ceilDiv]; omega)
  rw [show [true, true, false] = [true] ++ bitsOf 2 1 from rfl, List.append_assoc, List.append_assoc] at hbits
  obtain ⟨hfinal, hbits⟩ := hasBits_append_iff.1 hbits
  obtain ⟨htype, hdata⟩ := hasBits_append_iff.1 hbits
  obtain ⟨r, hr, hout⟩ := inflateFixed_tokens (fuel := 8 * (fixedStream ts).length + 1) (o := ⟨[], 3, false, false⟩) hts
    hcap rfl hdata (by simp only; omega)
  exact ⟨r, inflateBlocks_succ_eq_ok_iff.2
    ⟨_, _, _, _, _, takeBits_one hfinal, takeBits_of_hasBits (by decide) htype, hr, if_pos rfl⟩, hout⟩

/-! ### The match finder -/

theorem getElem?_of_lt_commonLen {limit k : Nat} {as bs : List Byte} (h : k < commonLen limit as bs) :
    as[k]? = bs[k]? := by
  induction limit generalizing as bs k with
  | zero => simp [commonLen] at h
  | succ limit ih =>
    rcases as with _ | ⟨a, as⟩
    · simp [commonLen] at h
    rcases bs with _ | ⟨b, bs⟩
    · simp [commonLen] at h
    rw [commonLen] at h
    split at h
    · next hab =>
      cases k with
      | zero => rw [hab]; rfl
      | succ k => exact ih (as := as) (bs := bs) (by omega)
    · omega

theorem matchAt_of_commonLen {x : List Byte} {p c : Nat} (hc : c < p) (hnear : p - c ≤ 32768) (hp : p ≤ x.length) :
    MatchAt x p (commonLen (min 258 (x.length - p)) (x.drop c) (x.drop p)) (p - c) := by
  have hlimit := commonLen_le_limit (min 258 (x.length - p)) (x.drop c) (x.drop p)
  refine ⟨by omega, by omega, hnear, by omega, by omega, fun k hk => ?_⟩
  have hsame := getElem?_of_lt_commonLen hk
  rwa [List.getElem?_drop, List.getElem?_drop, show c + k = p - (p - c) + k by omega] at hsame

/-- The best of near candidates before `p` is a match, where it has any byte (44_deflate.md R452). -/
theorem bestMatch_matchAt {x : List Byte} {p : Nat} {cs : List Nat} {best : Nat × Nat} (hp : p ≤ x.length)
    (hcs : ∀ c ∈ cs, c < p ∧ p - c ≤ 32768) (hbest : best.1 ≠ 0 → MatchAt x p best.1 best.2)
    (h : (bestMatch x p cs best).1 ≠ 0) : MatchAt x p (bestMatch x p cs best).1 (bestMatch x p cs best).2 := by
  induction cs generalizing best with
  | nil => exact hbest h
  | cons c cs ih =>
    obtain ⟨⟨hc, hnear⟩, hcs⟩ := List.forall_mem_cons.1 hcs
    rw [bestMatch] at h ⊢
    refine ih hcs ?_ h
    intro hne
    split at hne
    · next hlonger =>
      rw [if_pos hlonger]
      exact matchAt_of_commonLen hc hnear hp
    · next hlonger =>
      rw [if_neg hlonger]
      exact hbest hne

theorem chainCandidates_near {x : List Byte} {p depth : Nat} {chain : List (Nat × Nat)} (hchain : ∀ e ∈ chain, e.2 < p) :
    ∀ c ∈ chainCandidates x p depth chain, c < p ∧ p - c ≤ 32768 := by
  intro c hc
  have htake := List.mem_of_mem_take hc
  have hnear := List.mem_takeWhile_imp htake
  obtain ⟨e, he, rfl⟩ := List.mem_map.1 ((List.takeWhile_sublist _).subset htake)
  exact ⟨hchain e (List.mem_of_mem_filter he), of_decide_eq_true hnear⟩

/-- The chains hold positions already passed (44_deflate.md R452). -/
theorem enterChain_lt {x : List Byte} {p k : Nat} {chain : List (Nat × Nat)} (hchain : ∀ e ∈ chain, e.2 < p) :
    ∀ e ∈ enterChain x p k chain, e.2 < p + k := by
  induction k generalizing p chain with
  | zero => exact hchain
  | succ k ih =>
    rw [enterChain, show p + (k + 1) = p + 1 + k by omega]
    refine ih fun e he => ?_
    split at he
    · rcases List.mem_cons.1 he with rfl | he
      · exact Nat.lt_succ_self p
      · exact (hchain e he).trans (Nat.lt_succ_self p)
    · exact (hchain e he).trans (Nat.lt_succ_self p)

/-- The match finder's tokens stand for the bytes from its position on: each pass covers one at least, so the fuel is
enough (44_deflate.md R452). -/
theorem tokensOf_lz77From {x : List Byte} {depth fuel p : Nat} {chain : List (Nat × Nat)} (hp : p ≤ x.length)
    (hfuel : x.length ≤ p + fuel) (hchain : ∀ e ∈ chain, e.2 < p) : TokensOf x p (lz77From x depth fuel p chain) := by
  induction fuel generalizing p chain with
  | zero =>
    obtain rfl : p = x.length := by omega
    exact .nil
  | succ fuel ih =>
    rcases Nat.lt_or_ge p x.length with hlt | hge
    · have hb : x[p]? = some x[p] := List.getElem?_eq_getElem hlt
      have hlit (ts : List Token) (h : TokensOf x (p + 1) ts) : TokensOf x p (.lit x[p] :: ts) := .lit hb h
      by_cases hthree : p + 3 ≤ x.length
      · simp only [lz77From, hb, if_pos hthree]
        split
        · next hlong =>
          have hmatch := bestMatch_matchAt (best := (0, 0)) hp (chainCandidates_near (x := x) (depth := depth) hchain)
            (absurd rfl) (by omega)
          exact .copy hlong hmatch (ih hmatch.inside (by omega) (enterChain_lt hchain))
        · exact hlit _ (ih hlt (by omega) (enterChain_lt hchain))
      · simp only [lz77From, hb, if_neg hthree]
        exact hlit _ (ih hlt (by omega) (enterChain_lt hchain))
    · obtain rfl : p = x.length := by omega
      simp only [lz77From, List.getElem?_eq_none hge]
      exact .nil

/-! ### The round trip -/

theorem inflate_deflateRef {x : List Byte} {cap : Nat} (level : Nat) (h : x.length ≤ cap) :
    ∃ r, inflate (deflateRef level x) cap = .ok r ∧ r.out = x.reverse := by
  dsimp only [deflateRef]
  split
  · exact inflate_storedStream h
  · split
    · exact inflate_fixedStream (tokensOf_lz77From (Nat.zero_le _) (by omega) (List.forall_mem_nil _)) h
    · exact inflate_storedStream h

theorem inflate_deflateMember {x : List Byte} {cap : Nat} (level : Nat) (members : List (List Byte))
    (h : x.length ≤ cap) : ∃ r, inflate (deflateMember level members x) cap = .ok r ∧ r.out = x.reverse := by
  rcases Nat.eq_zero_or_pos level with rfl | hpos
  · exact deflateMember_zero members x ▸ inflate_storedStream h
  · rw [deflateMember_of_pos hpos]
    refine chosenMember_of_forall (P := fun y => ∃ r, inflate y cap = .ok r ∧ r.out = x.reverse)
      (inflate_deflateRef level h) (fun y hy => ?_) members
    obtain ⟨o, ho, hout, -⟩ := deflateAdmissible_iff.1 hy
    exact ⟨o, (inflate_fitsIn ho).of_le h, by rw [← hout, List.reverse_reverse]⟩

/-- Settles O58: a stored stream and a fixed block decode to the input, and an admissible member does by R440; that the
level is at most 9 is not needed. -/
theorem deflateRoundTrip : Obligations.DeflateRoundTrip := by
  intro x level cap members _ hcap
  obtain ⟨r, hr, hout⟩ := inflate_deflateMember level members hcap
  exact ⟨_, deflateDecompress_eq_ok_iff.2 ⟨r, hr, by rw [hout, List.reverse_reverse], rfl⟩⟩

end Sys2Proof.Machine
end

section
/-! ## LZ4

What the compressor writes decodes to its input: what one pass of the decoder does, the length fields, the two kinds of
sequence, then the search loop and the round trip of 45_lz4.md R515. -/

namespace Sys2Proof.Machine

/-! ### One pass of the decoder -/

/-- A sequence begins at `ip` with this token, then `ll` literals from `p` on, inside the input and with room for them
after `n` bytes of output (45_lz4.md R510). -/
structure Lz4Literals (inp : List Byte) (cap ip n : Nat) (tok : Byte) (ll p : Nat) : Prop where
  token : inp[ip]? = some tok
  count : lz4Length inp (tok.toNat / 16) (ip + 1) = .ok (ll, p)
  inside : p + ll ≤ inp.length
  room : n + ll ≤ cap

/-- A match follows at `p` with this offset and length field and ends at `q`, inside the `n` bytes of output before it
and with room for it after them (45_lz4.md R510). -/
structure Lz4Match (inp : List Byte) (cap nibble p n off ml q : Nat) : Prop where
  inside : p + 2 ≤ inp.length
  offset : leValue ((inp.drop p).take 2) = off
  offset_pos : 1 ≤ off
  offset_le : off ≤ n
  count : lz4Length inp nibble (p + 2) = .ok (ml, q)
  room : n + (ml + 4) ≤ cap

/-- The output with `ll` literals from `p` on. -/
def Lz4Output.addLiterals (o : Lz4Output) (inp : List Byte) (p ll : Nat) : Lz4Output :=
  { o with out := ((inp.drop p).take ll).reverse ++ o.out }

/-- The output with a match of `len` bytes from `off` back. -/
def Lz4Output.addMatch (o : Lz4Output) (off len : Nat) : Lz4Output :=
  ⟨copyBack off len o.out, (o.out.length, len) :: o.spans⟩

/-- A pass succeeds on literals that end the input, or on literals and a match after which the decoder succeeds
(45_lz4.md R510). -/
theorem lz4Sequences_succ_eq_ok_iff {inp : List Byte} {cap fuel ip : Nat} {o r : Lz4Output} :
    lz4Sequences inp cap (fuel + 1) ip o = .ok r ↔ ∃ tok ll p, Lz4Literals inp cap ip o.out.length tok ll p ∧
      (p + ll = inp.length ∧ o.addLiterals inp p ll = r ∨ p + ll ≠ inp.length ∧
        ∃ off ml q, Lz4Match inp cap (tok.toNat % 16) (p + ll) (o.addLiterals inp p ll).out.length off ml q ∧
          lz4Sequences inp cap fuel q ((o.addLiterals inp p ll).addMatch off (ml + 4)) = .ok r) := by
  constructor
  · intro h
    unfold lz4Sequences at h
    dsimp only at h
    split at h
    · cases h
    next tok htok =>
    split at h
    · cases h
    next ll p hll =>
    split at h
    · cases h
    next hinside =>
    split at h
    · cases h
    next hroom =>
    refine ⟨tok, ll, p, ⟨htok, hll, by omega, by omega⟩, ?_⟩
    split at h
    · next hend =>
      cases h
      exact .inl ⟨hend, rfl⟩
    next hend =>
    split at h
    · cases h
    next hin =>
    split at h
    · cases h
    next hoff =>
    split at h
    · cases h
    next ml q hml =>
    split at h
    · cases h
    next hfull =>
    obtain ⟨hpos, hback⟩ := not_or.1 hoff
    exact .inr ⟨hend, _, ml, q, ⟨by omega, rfl, Nat.pos_of_ne_zero hpos, Nat.not_lt.1 hback, hml,
      Nat.not_lt.1 hfull⟩, h⟩
  · rintro ⟨tok, ll, p, ⟨htok, hll, hinside, hroom⟩, hend⟩
    unfold lz4Sequences
    simp only [htok, hll, if_neg (Nat.not_lt.2 hinside), if_neg (Nat.not_lt.2 hroom)]
    obtain ⟨hend, rfl⟩ | ⟨hend, off, ml, q, ⟨hin, rfl, hpos, hle, hml, hfull⟩, h⟩ := hend
    · rw [if_pos hend]
      rfl
    · rw [if_neg hend, if_neg (Nat.not_lt.2 hin), if_neg, hml]
      · exact (if_neg (Nat.not_lt.2 hfull)).trans h
      · exact not_or.2 ⟨Nat.ne_of_gt hpos, Nat.not_lt.2 hle⟩

/-- More room does not change what a block decodes to (45_lz4.md R490). -/
theorem lz4Sequences_of_le {inp : List Byte} {cap cap' fuel ip : Nat} {o r : Lz4Output} (hcap : cap ≤ cap')
    (h : lz4Sequences inp cap fuel ip o = .ok r) : lz4Sequences inp cap' fuel ip o = .ok r := by
  induction fuel generalizing ip o with
  | zero => cases h
  | succ fuel ih =>
    obtain ⟨tok, ll, p, hlits, hend⟩ := lz4Sequences_succ_eq_ok_iff.1 h
    refine lz4Sequences_succ_eq_ok_iff.2 ⟨tok, ll, p, { hlits with room := hlits.room.trans hcap }, ?_⟩
    obtain hlast | ⟨hmore, off, ml, q, hmatch, hrest⟩ := hend
    · exact .inl hlast
    · exact .inr ⟨hmore, off, ml, q, { hmatch with room := hmatch.room.trans hcap }, ih hrest⟩

/-! ### Length fields -/

theorem drop_add_length_of_drop_eq {inp bs rest : List Byte} {p : Nat} (h : inp.drop p = bs ++ rest) :
    inp.drop (p + bs.length) = rest := by
  rw [← List.drop_drop, h, List.drop_left]

theorem getElem?_of_drop_eq_cons {inp rest : List Byte} {b : Byte} {p : Nat} (h : inp.drop p = b :: rest) :
    inp[p]? = some b := by
  rw [← List.head?_drop, h, List.head?_cons]

/-- Extension bytes are read back, up to and with the one that is not 255 (45_lz4.md R472). -/
theorem lz4Extension_replicate {inp rest : List Byte} {k u fuel p len : Nat} (hu : u < 255) (hfuel : k < fuel)
    (h : inp.drop p = List.replicate k (byteOf 255) ++ byteOf u :: rest) :
    lz4Extension inp fuel p len = .ok (len + 255 * k + u, p + k + 1) := by
  obtain ⟨fuel, rfl⟩ : ∃ n, fuel = n + 1 := ⟨fuel - 1, by omega⟩
  induction k generalizing p len fuel with
  | zero =>
    simp only [lz4Extension, getElem?_of_drop_eq_cons h, toNat_byteOf (show u < 256 by omega), if_neg hu.ne]
    rfl
  | succ k ih =>
    obtain ⟨fuel, rfl⟩ : ∃ n, fuel = n + 1 := ⟨fuel - 1, by omega⟩
    rw [List.replicate_succ, List.cons_append] at h
    have hnext := ih (len := len + 255) (drop_add_length_of_drop_eq (bs := [byteOf 255]) h) fuel (by omega)
    rw [List.length_singleton] at hnext
    rw [lz4Extension, getElem?_of_drop_eq_cons h]
    simp only [toNat_byteOf (show 255 < 256 by decide), if_pos, hnext]
    congr 2 <;> omega

/-- A length field and its extension bytes are read back (45_lz4.md R472). -/
theorem lz4Length_lz4Extend {inp rest : List Byte} {v p : Nat} (h : inp.drop p = lz4Extend v ++ rest) :
    lz4Length inp (min v 15) p = .ok (v, p + (lz4Extend v).length) := by
  rw [lz4Length, length_lz4Extend]
  rw [lz4Extend] at h
  by_cases hv : v < 15
  · rw [if_neg (by omega), if_pos hv, Nat.min_eq_left hv.le]
    rfl
  · rw [if_neg hv, List.append_assoc] at h
    have hlen := congrArg List.length h
    simp only [List.length_append, List.length_replicate, List.length_drop, List.length_cons] at hlen
    rw [if_pos (by omega), if_neg hv,
      lz4Extension_replicate (Nat.mod_lt _ (by decide)) (by omega) h]
    congr 2; omega

/-! ### Sequences -/

/-- The literal-length field of a token (45_lz4.md R471). -/
theorem highNibble_token {u v : Nat} (hu : u ≤ 15) (hv : v ≤ 15) : (byteOf (16 * u + v)).toNat / 16 = u := by
  rw [toNat_byteOf (by omega)]
  omega

/-- The match-length field of a token (45_lz4.md R471). -/
theorem lowNibble_token {u v : Nat} (hu : u ≤ 15) (hv : v ≤ 15) : (byteOf (16 * u + v)).toNat % 16 = v := by
  rw [toNat_byteOf (by omega)]
  omega

/-- A token and its literals are read back: from `p` on the input goes on with the literals and what follows them. -/
theorem lz4Literals_of_drop {inp lits rest : List Byte} {cap ip n v : Nat} (hv : v ≤ 15)
    (h : inp.drop ip = byteOf (16 * min lits.length 15 + v) :: (lz4Extend lits.length ++ (lits ++ rest)))
    (hroom : n + lits.length ≤ cap) :
    inp.drop (ip + 1 + (lz4Extend lits.length).length) = lits ++ rest ∧
      Lz4Literals inp cap ip n (byteOf (16 * min lits.length 15 + v)) lits.length
        (ip + 1 + (lz4Extend lits.length).length) := by
  have htail := drop_add_length_of_drop_eq (bs := [_]) h
  rw [List.length_singleton] at htail
  have hlen := congrArg List.length h
  simp only [List.length_append, List.length_drop, List.length_cons] at hlen
  refine ⟨drop_add_length_of_drop_eq htail, getElem?_of_drop_eq_cons h, ?_, by omega, hroom⟩
  rw [highNibble_token (Nat.min_le_right ..) hv]
  exact lz4Length_lz4Extend htail

/-- An offset and a match's extension bytes are read back. -/
theorem lz4Match_of_drop {inp rest : List Byte} {cap nibble p n off ml : Nat} (hnibble : nibble = min (ml - 4) 15)
    (hml : 4 ≤ ml) (hpos : 1 ≤ off) (hmax : off ≤ 65535) (hback : off ≤ n) (hroom : n + ml ≤ cap)
    (h : inp.drop p = leBytes 2 off ++ (lz4Extend (ml - 4) ++ rest)) :
    Lz4Match inp cap nibble p n off (ml - 4) (p + 2 + (lz4Extend (ml - 4)).length) := by
  have hextend := drop_add_length_of_drop_eq h
  have hlen := congrArg List.length h
  rw [length_leBytes] at hextend
  simp only [List.length_append, List.length_drop, length_leBytes] at hlen
  refine ⟨by omega, ?_, hpos, hback, hnibble ▸ lz4Length_lz4Extend hextend, by omega⟩
  rw [h, List.take_left' (length_leBytes ..), leValue_leBytes _ _ (by omega)]

theorem addLiterals_of_drop {inp lits rest : List Byte} {p : Nat} (o : Lz4Output) (h : inp.drop p = lits ++ rest) :
    o.addLiterals inp p lits.length = ⟨lits.reverse ++ o.out, o.spans⟩ := by
  rw [Lz4Output.addLiterals, h, List.take_left]

/-- The last sequence ends the block (45_lz4.md R495). -/
theorem lz4Sequences_lz4LastSeq {inp lits : List Byte} {cap fuel ip : Nat} {o : Lz4Output}
    (h : inp.drop ip = lz4LastSeq lits) (hroom : o.out.length + lits.length ≤ cap) :
    lz4Sequences inp cap (fuel + 1) ip o = .ok ⟨lits.reverse ++ o.out, o.spans⟩ := by
  obtain ⟨hdrop, hlits⟩ := lz4Literals_of_drop (rest := []) (Nat.zero_le _) (by simpa [lz4LastSeq] using h) hroom
  refine lz4Sequences_succ_eq_ok_iff.2 ⟨_, _, _, hlits, .inl ⟨?_, addLiterals_of_drop o hdrop⟩⟩
  have hlen := congrArg List.length h
  simp only [lz4LastSeq, List.length_append, List.length_drop, List.length_cons] at hlen
  omega

theorem length_lz4Seq (lits : List Byte) (off ml : Nat) : (lz4Seq lits off ml).length =
    1 + (lz4Extend lits.length).length + lits.length + 2 + (lz4Extend (ml - 4)).length := by
  simp only [lz4Seq, List.length_append, List.length_cons, length_leBytes]
  omega

/-- A sequence with a match adds its literals and the copy, where the decoder succeeds on what follows it
(45_lz4.md R495). -/
theorem lz4Sequences_lz4Seq {inp lits rest : List Byte} {cap fuel ip off ml : Nat} {o r : Lz4Output}
    (h : inp.drop ip = lz4Seq lits off ml ++ rest) (hml : 4 ≤ ml) (hpos : 1 ≤ off) (hmax : off ≤ 65535)
    (hback : off ≤ o.out.length + lits.length) (hroom : o.out.length + lits.length + ml ≤ cap)
    (hrest : lz4Sequences inp cap fuel (ip + (lz4Seq lits off ml).length)
      (Lz4Output.addMatch ⟨lits.reverse ++ o.out, o.spans⟩ off ml) = .ok r) :
    lz4Sequences inp cap (fuel + 1) ip o = .ok r := by
  obtain ⟨hdrop, hlits⟩ := lz4Literals_of_drop (cap := cap) (n := o.out.length)
    (rest := leBytes 2 off ++ (lz4Extend (ml - 4) ++ rest)) (Nat.min_le_right (ml - 4) 15)
    (by simpa [lz4Seq] using h) (by omega)
  have hlength : (o.addLiterals inp (ip + 1 + (lz4Extend lits.length).length) lits.length).out.length =
      o.out.length + lits.length := by
    rw [addLiterals_of_drop o hdrop, List.length_append, List.length_reverse, Nat.add_comm]
  have hmatch := lz4Match_of_drop (cap := cap)
    (lowNibble_token (Nat.min_le_right lits.length 15) (Nat.min_le_right ..)) hml hpos hmax
    (hback.trans_eq hlength.symm) (by rwa [hlength]) (drop_add_length_of_drop_eq hdrop)
  have hinside := hmatch.inside
  rw [length_lz4Seq, ← addLiterals_of_drop o hdrop] at hrest
  simp only [← Nat.add_assoc] at hrest
  refine lz4Sequences_succ_eq_ok_iff.2 ⟨_, _, _, hlits, .inr ⟨by omega, off, ml - 4, _, hmatch, ?_⟩⟩
  rwa [Nat.sub_add_cancel hml]

/-! ### The search loop -/

theorem getElem?_of_lt_matchLen {x : List Byte} {c ip stop k : Nat} (h : k < matchLen x c ip stop) :
    x[c + k]? = x[ip + k]? := by
  dsimp only [matchLen] at h
  split at h
  · simpa only [List.getElem?_drop] using getElem?_of_lt_commonLen h
  · exact absurd h (Nat.not_lt_zero k)

/-- The copy of a match the search finds (45_lz4.md R495, 46_snappy.md R545). -/
theorem copyBack_matchLen {x : List Byte} {c ip stop : Nat} (hc : c < ip) (h : matchLen x c ip stop ≠ 0) :
    copyBack (ip - c) (matchLen x c ip stop) (x.take ip).reverse = (x.take (ip + matchLen x c ip stop)).reverse := by
  obtain ⟨hfour, hin⟩ := matchLen_bounds h
  refine copyBack_of_same (by omega) (by omega) (by omega) fun k hk => ?_
  rw [show ip - (ip - c) = c by omega]
  exact getElem?_of_lt_matchLen hk

theorem snd_lt_of_lookup {table : List (Nat × Nat)} {h c ip : Nat} (htable : ∀ e ∈ table, e.2 < ip)
    (hc : table.lookup h = some c) : c < ip := by
  obtain ⟨before, after, rfl, -⟩ := List.lookup_eq_some_iff.1 hc
  exact htable (h, c) (by simp)

/-- A new entry and the earlier ones lie before a position further on. -/
theorem forall_mem_cons_snd_lt {table : List (Nat × Nat)} {h ip next : Nat} (htable : ∀ e ∈ table, e.2 < ip)
    (hnext : ip < next) : ∀ e ∈ (h, ip) :: table, e.2 < next :=
  List.forall_mem_cons.2 ⟨hnext, fun e he => (htable e he).trans hnext⟩

/-- The bytes put out and the literals after them are a longer part of the input. -/
theorem reverse_literals_append {x : List Byte} {anchor ip : Nat} (h : anchor ≤ ip) :
    ((x.drop anchor).take (ip - anchor)).reverse ++ (x.take anchor).reverse = (x.take ip).reverse := by
  rw [← List.reverse_append, ← List.take_add, Nat.add_sub_cancel' h]

/-- The last sequence of what is left of the input completes the output. -/
theorem lz4Sequences_rest {x inp : List Byte} {cap fuel p anchor : Nat} {o : Lz4Output} (hcap : x.length ≤ cap)
    (ha : anchor ≤ x.length) (hout : o.out = (x.take anchor).reverse) (h : inp.drop p = lz4LastSeq (x.drop anchor)) :
    ∃ r, lz4Sequences inp cap (fuel + 1) p o = .ok r ∧ r.out = x.reverse := by
  refine ⟨_, lz4Sequences_lz4LastSeq h ?_, ?_⟩
  · rw [hout, List.length_reverse, List.length_take, List.length_drop]
    omega
  · rw [hout, ← List.reverse_append, List.take_append_drop]

/-- At each pass of the search loop, the decoder that has put out the bytes before `anchor` gets the whole input from
what is still to be written: the table holds positions already passed, so a match repeats bytes of the output
(45_lz4.md R495). -/
theorem lz4Sequences_lz4Loop {x inp : List Byte} {cap fuel ip anchor left p : Nat} {table : List (Nat × Nat)}
    {o : Lz4Output} (hcap : x.length ≤ cap) (ha : anchor ≤ ip) (hip : ip ≤ x.length) (htable : ∀ e ∈ table, e.2 < ip)
    (hinp : inp.drop p = lz4Loop x fuel ip anchor table) (hout : o.out = (x.take anchor).reverse)
    (hleft : inp.length ≤ left + p) : ∃ r, lz4Sequences inp cap (left + 1) p o = .ok r ∧ r.out = x.reverse := by
  induction fuel generalizing ip anchor left p table o with
  | zero => exact lz4Sequences_rest hcap (ha.trans hip) hout hinp
  | succ fuel ih =>
    obtain ⟨-, h⟩ | ⟨hmore, h⟩ | ⟨c, l, hmore, hc, hnear, rfl, hl, h⟩ := lz4Loop_succ_cases x fuel ip anchor table
    · exact lz4Sequences_rest hcap (ha.trans hip) hout (hinp.trans h)
    · exact ih (by omega) (by omega) (forall_mem_cons_snd_lt htable (Nat.lt_succ_self ip)) (hinp.trans h) hout hleft
    · obtain ⟨hfour, hin⟩ := matchLen_bounds hl
      have hbefore := snd_lt_of_lookup htable hc
      have hlits : o.out.length + ((x.drop anchor).take (ip - anchor)).length = ip := by
        rw [hout, List.length_reverse, List.length_take, List.length_take, List.length_drop]
        omega
      have hseq := hinp.trans h
      have hlen := congrArg List.length hseq
      have hpos := length_lz4Seq ((x.drop anchor).take (ip - anchor)) (ip - c) (matchLen x c ip (x.length - 5))
      rw [List.length_drop, List.length_append] at hlen
      obtain ⟨left, rfl⟩ : ∃ n, left = n + 1 := ⟨left - 1, by omega⟩
      have hcopied : (Lz4Output.addMatch ⟨((x.drop anchor).take (ip - anchor)).reverse ++ o.out, o.spans⟩ (ip - c)
          (matchLen x c ip (x.length - 5))).out = (x.take (ip + matchLen x c ip (x.length - 5))).reverse := by
        rw [Lz4Output.addMatch, hout, reverse_literals_append ha, copyBack_matchLen hbefore hl]
      obtain ⟨r, hr, hrout⟩ := ih le_rfl (by omega) (forall_mem_cons_snd_lt htable (by omega))
        (drop_add_length_of_drop_eq hseq) hcopied (left := left) (by omega)
      exact ⟨r, lz4Sequences_lz4Seq hseq hfour (by omega) hnear (by omega) (by omega) hr, hrout⟩

/-! ### The round trip -/

theorem lz4Decode_lz4Ref {x : List Byte} {cap : Nat} (h : x.length ≤ cap) :
    ∃ o, lz4Decode (lz4Ref x) cap = .ok o ∧ o.out = x.reverse := by
  rw [lz4Ref]
  split
  · exact lz4Sequences_rest h (Nat.zero_le _) rfl rfl
  · exact lz4Sequences_lz4Loop h le_rfl (Nat.zero_le _) (List.forall_mem_nil _) rfl rfl le_rfl

theorem lz4Decode_lz4Member {x : List Byte} {cap : Nat} (members : List (List Byte)) (h : x.length ≤ cap) :
    ∃ o, lz4Decode (chosenMember (lz4Admissible x) (lz4Ref x) members) cap = .ok o ∧ o.out = x.reverse := by
  refine chosenMember_of_forall (P := fun y => ∃ o, lz4Decode y cap = .ok o ∧ o.out = x.reverse) (lz4Decode_lz4Ref h)
    (fun y hy => ?_) members
  obtain ⟨o, ho, hout, -⟩ := lz4Admissible_iff.1 hy
  exact ⟨o, lz4Sequences_of_le h ho, by rw [← hout, List.reverse_reverse]⟩

theorem lz4Decompress_of_lz4Decode {inp : List Byte} {cap : Nat} {o : Lz4Output} (h : lz4Decode inp cap = .ok o) :
    lz4Decompress inp cap = .ok (o.out.reverse, inp.length) := by
  rw [lz4Decompress, h]

/-- Settles O59: the sequences of the reference member decode to the input, and an admissible member does by R490; that
the bound is below `2 ^ 32` is not needed. -/
theorem lzFourRoundTrip : Obligations.LzFourRoundTrip := by
  intro x cap members _ hcap
  obtain ⟨o, ho, hout⟩ := lz4Decode_lz4Member members hcap
  exact ⟨_, by rw [lz4Decompress_of_lz4Decode ho, hout, List.reverse_reverse]⟩

end Sys2Proof.Machine
end

section
/-! ## Snappy

What the compressor writes decodes to its input: the elements of the tag stream and what decoding one adds, the literals
and copies the encoder writes, then the search loop and the round trip of 46_snappy.md R565. -/

namespace Sys2Proof.Machine

/-! ### The elements -/

/-- A tag and its extra bytes are the head of this element (46_snappy.md R521). -/
structure SnappyHead (tag : Nat) (extra : List Byte) (e : SnappyElement) : Prop where
  tag_lt : tag < 256
  length_extra : extra.length = snappyExtra tag
  element : snappyElement tag extra = e

theorem snappyHead_shortLiteral {n : Nat} (hpos : 1 ≤ n) (h : n ≤ 60) :
    SnappyHead (4 * (n - 1)) [] (.literal n) := by
  have hkind : 4 * (n - 1) % 4 = 0 := Nat.mul_mod_right ..
  have hfield : 4 * (n - 1) / 4 = n - 1 := Nat.mul_div_cancel_left _ (by decide)
  refine ⟨by omega, ?_, ?_⟩
  · simp only [snappyExtra, hkind, hfield, List.length_nil]
    omega
  · simp only [snappyElement, hkind, hfield, if_pos (show n - 1 < 60 by omega), Nat.sub_add_cancel hpos]

theorem snappyLenBytes_pos (v : Nat) : 1 ≤ snappyLenBytes v := by
  rw [snappyLenBytes]
  split_ifs <;> decide

theorem lt_pow_snappyLenBytes {v : Nat} (h : v < 2 ^ 32) : v < 256 ^ snappyLenBytes v := by
  rw [snappyLenBytes]
  split_ifs <;> assumption

theorem snappyHead_longLiteral {n : Nat} (hpos : 1 ≤ n) (h : n ≤ 2 ^ 32) :
    SnappyHead (4 * (59 + snappyLenBytes (n - 1))) (leBytes (snappyLenBytes (n - 1)) (n - 1)) (.literal n) := by
  have hle := snappyLenBytes_le (n - 1)
  have hlow := snappyLenBytes_pos (n - 1)
  have hvalue := leValue_leBytes _ _ (lt_pow_snappyLenBytes (v := n - 1) (by omega))
  generalize snappyLenBytes (n - 1) = k at hle hlow hvalue ⊢
  have hkind : 4 * (59 + k) % 4 = 0 := Nat.mul_mod_right ..
  have hfield : 4 * (59 + k) / 4 = 59 + k := Nat.mul_div_cancel_left _ (by decide)
  refine ⟨by omega, ?_, ?_⟩
  · simp only [snappyExtra, hkind, hfield, length_leBytes, Nat.add_sub_cancel_left]
  · simp only [snappyElement, hkind, hfield, if_neg (show ¬ 59 + k < 60 by omega), hvalue, Nat.sub_add_cancel hpos]

/-- The copy with an 11-bit offset, three bits of it in the tag. -/
theorem snappyHead_nearCopy {off len : Nat} (hfour : 4 ≤ len) (hlen : len ≤ 11) (hoff : off ≤ 2047) :
    SnappyHead (1 + 4 * (len - 4) + 32 * (off / 256)) [byteOf (off % 256)] (.copy len off) := by
  have hkind : (1 + 4 * (len - 4) + 32 * (off / 256)) % 4 = 1 := by omega
  have hbyte : (byteOf (off % 256)).toNat = off % 256 := toNat_byteOf (Nat.mod_lt _ (by decide))
  refine ⟨by omega, ?_, ?_⟩
  · simp only [snappyExtra, hkind, List.length_singleton]
  · simp only [snappyElement, hkind, leValue, hbyte]
    congr 1 <;> omega

/-- The copy with a two-byte offset. -/
theorem snappyHead_copy {off len : Nat} (hpos : 1 ≤ len) (hlen : len ≤ 64) (hoff : off ≤ 65535) :
    SnappyHead (2 + 4 * (len - 1)) (leBytes 2 off) (.copy len off) := by
  have hkind : (2 + 4 * (len - 1)) % 4 = 2 := by omega
  refine ⟨by omega, ?_, ?_⟩
  · simp only [snappyExtra, hkind, length_leBytes]
  · simp only [snappyElement, hkind, leValue_leBytes 2 off (by omega)]
    congr 1; omega

/-! ### Decoding what follows -/

/-- Wherever these bytes end the input, the decoder that has put out `out` ends with `r` (46_snappy.md R560). Outputs
are held last byte first. -/
def SnappyDecodes (len : Nat) (bs out r : List Byte) : Prop :=
  ∀ (before : List Byte) (fuel : Nat), bs.length < fuel →
    snappyElements (before ++ bs) len fuel before.length out = .ok r

theorem snappyDecodes_nil {len : Nat} {out : List Byte} (h : out.length = len) : SnappyDecodes len [] out out := by
  intro before fuel hfuel
  obtain ⟨fuel, rfl⟩ := Nat.exists_eq_succ_of_ne_zero hfuel.ne'
  simp [snappyElements, h]

/-- What a pass of the decoder sees where an element's head stands in the input. -/
theorem SnappyHead.seen {tag : Nat} {extra inp : List Byte} {e : SnappyElement} (hhead : SnappyHead tag extra e)
    (before tail : List Byte) (hinp : before ++ byteOf tag :: (extra ++ tail) = inp) :
    inp[before.length]? = some (byteOf tag) ∧ inp.length = before.length + 1 + snappyExtra tag + tail.length ∧
      snappyElement tag ((inp.drop (before.length + 1)).take (snappyExtra tag)) = e ∧
      inp.drop (before.length + 1 + snappyExtra tag) = tail := by
  have hdrop : inp.drop before.length = byteOf tag :: (extra ++ tail) := hinp ▸ List.drop_left
  have htail : inp.drop (before.length + 1) = extra ++ tail := drop_add_length_of_drop_eq (bs := [_]) hdrop
  rw [← hhead.length_extra]
  refine ⟨getElem?_of_drop_eq_cons hdrop, ?_, ?_, drop_add_length_of_drop_eq htail⟩
  · rw [← hinp, List.length_append, List.length_cons, List.length_append]
    omega
  · rw [htail, List.take_left, hhead.element]

/-- A literal adds its bytes (46_snappy.md R521). -/
theorem SnappyDecodes.literal {len tag : Nat} {extra lits rest out r : List Byte}
    (hhead : SnappyHead tag extra (.literal lits.length)) (hroom : out.length + lits.length ≤ len)
    (h : SnappyDecodes len rest (lits.reverse ++ out) r) :
    SnappyDecodes len (byteOf tag :: (extra ++ (lits ++ rest))) out r := by
  intro before fuel hfuel
  simp only [List.length_cons, List.length_append] at hfuel
  obtain ⟨fuel, rfl⟩ := Nat.exists_eq_succ_of_ne_zero (Nat.ne_zero_of_lt hfuel)
  obtain ⟨htag, hlength, helement, htail⟩ := hhead.seen before (lits ++ rest) rfl
  rw [List.length_append (as := lits)] at hlength
  have hrest := h (before ++ byteOf tag :: (extra ++ lits)) fuel (by omega)
  simp only [snappyElements, htag, toNat_byteOf hhead.tag_lt, helement, htail, List.take_left]
  rw [if_neg (by omega), if_neg (by omega), if_neg (by omega), ← hhead.length_extra]
  simpa [Nat.add_assoc, Nat.add_comm 1] using hrest

/-- A copy repeats bytes of the output (46_snappy.md R521). -/
theorem SnappyDecodes.copy {len tag n off : Nat} {extra rest out r : List Byte}
    (hhead : SnappyHead tag extra (.copy n off)) (hpos : 1 ≤ off) (hback : off ≤ out.length)
    (hroom : out.length + n ≤ len) (h : SnappyDecodes len rest (copyBack off n out) r) :
    SnappyDecodes len (byteOf tag :: (extra ++ rest)) out r := by
  intro before fuel hfuel
  simp only [List.length_cons, List.length_append] at hfuel
  obtain ⟨fuel, rfl⟩ := Nat.exists_eq_succ_of_ne_zero (Nat.ne_zero_of_lt hfuel)
  obtain ⟨htag, hlength, helement, -⟩ := hhead.seen before rest rfl
  have hrest := h (before ++ byteOf tag :: extra) fuel (by omega)
  simp only [snappyElements, htag, toNat_byteOf hhead.tag_lt, helement]
  rw [if_neg (by omega), if_neg (by omega), if_neg (by omega), ← hhead.length_extra]
  simpa [Nat.add_assoc, Nat.add_comm 1] using hrest

/-! ### What the encoder writes -/

theorem snappyDecodes_snappyLiteral {len : Nat} {lits rest out r : List Byte} (hsize : lits.length ≤ 2 ^ 32)
    (hroom : out.length + lits.length ≤ len) (h : SnappyDecodes len rest (lits.reverse ++ out) r) :
    SnappyDecodes len (snappyLiteral lits ++ rest) out r := by
  rw [snappyLiteral]
  split
  · next hempty =>
    obtain rfl := List.isEmpty_iff.1 hempty
    exact h
  next hne =>
  have hpos : 1 ≤ lits.length := List.length_pos_iff.2 (by simpa using hne)
  split
  · next hshort => exact .literal (snappyHead_shortLiteral hpos hshort) hroom h
  · simp only [List.cons_append, List.append_assoc]
    exact .literal (snappyHead_longLiteral hpos hsize) hroom h

theorem snappyDecodes_snappyCopyPiece {len off n : Nat} {rest out r : List Byte} (hn : 1 ≤ n) (hmax : n ≤ 64)
    (hpos : 1 ≤ off) (hnear : off ≤ 65535) (hback : off ≤ out.length) (hroom : out.length + n ≤ len)
    (h : SnappyDecodes len rest (copyBack off n out) r) : SnappyDecodes len (snappyCopyPiece off n ++ rest) out r := by
  rw [snappyCopyPiece, if_pos hnear]
  split
  · next hshort =>
    obtain ⟨hfour, hlen, hoff⟩ := hshort
    exact .copy (snappyHead_nearCopy hfour hlen hoff) hpos hback hroom h
  · exact .copy (snappyHead_copy hn hmax hnear) hpos hback hroom h

theorem copyBack_add (off m n : Nat) (out : List Byte) :
    copyBack off (m + n) out = copyBack off n (copyBack off m out) := by
  induction m generalizing out with
  | zero => rw [Nat.zero_add, copyBack]
  | succ m ih => rw [Nat.succ_add, copyBack, copyBack, ih]

/-- The pieces of a copy make the whole copy (46_snappy.md R545). -/
theorem snappyDecodes_snappyCopyFrom {len off fuel n : Nat} {rest out r : List Byte} (hn : 1 ≤ n)
    (hfuel : n ≤ fuel + 64) (hpos : 1 ≤ off) (hnear : off ≤ 65535) (hback : off ≤ out.length)
    (hroom : out.length + n ≤ len) (h : SnappyDecodes len rest (copyBack off n out) r) :
    SnappyDecodes len (snappyCopyFrom off fuel n ++ rest) out r := by
  induction fuel generalizing n out with
  | zero => exact snappyDecodes_snappyCopyPiece hn hfuel hpos hnear hback hroom h
  | succ fuel ih =>
    rw [snappyCopyFrom]
    split
    · have hgrown := length_copyBack off 64 out
      rw [List.append_assoc]
      refine snappyDecodes_snappyCopyPiece (by omega) le_rfl hpos hnear hback (by omega)
        (ih (by omega) (by omega) (by omega) (by omega) ?_)
      rwa [← copyBack_add, Nat.add_sub_cancel' (by omega)]
    split
    · have hgrown := length_copyBack off 60 out
      rw [List.append_assoc]
      refine snappyDecodes_snappyCopyPiece (by omega) (by omega) hpos hnear hback (by omega)
        (snappyDecodes_snappyCopyPiece (by omega) (by omega) hpos hnear (by omega) (by omega) ?_)
      rwa [← copyBack_add, Nat.add_sub_cancel' (by omega)]
    · exact snappyDecodes_snappyCopyPiece hn (by omega) hpos hnear hback hroom h

/-! ### The search loop -/

/-- The last literal completes the output. -/
theorem snappyDecodes_rest {x : List Byte} {anchor : Nat} (hx : x.length ≤ 2 ^ 32) (ha : anchor ≤ x.length) :
    SnappyDecodes x.length (snappyLiteral (x.drop anchor)) (x.take anchor).reverse x.reverse := by
  have hrest := snappyDecodes_snappyLiteral (rest := []) (lits := x.drop anchor) (out := (x.take anchor).reverse)
    (r := x.reverse) (len := x.length) (by rw [List.length_drop]; omega)
    (by rw [List.length_reverse, List.length_take, List.length_drop]; omega)
  rw [← List.reverse_append, List.take_append_drop, List.append_nil] at hrest
  exact hrest (snappyDecodes_nil (List.length_reverse ..))

/-- At each pass of the search loop, the decoder that has put out the bytes before `anchor` gets the whole input from
what is still to be written: the table holds positions already passed, so a match repeats bytes of the output
(46_snappy.md R545). -/
theorem snappyDecodes_snappyLoop {x : List Byte} {fuel ip anchor : Nat} {table : List (Nat × Nat)}
    (hx : x.length ≤ 2 ^ 32) (ha : anchor ≤ ip) (hip : ip ≤ x.length) (htable : ∀ e ∈ table, e.2 < ip) :
    SnappyDecodes x.length (snappyLoop x fuel ip anchor table) (x.take anchor).reverse x.reverse := by
  induction fuel generalizing ip anchor table with
  | zero => exact snappyDecodes_rest hx (ha.trans hip)
  | succ fuel ih =>
    obtain ⟨-, h⟩ | ⟨hmore, h⟩ | ⟨c, l, hmore, hc, hnear, rfl, hl, h⟩ := snappyLoop_succ_cases x fuel ip anchor table
    · exact h ▸ snappyDecodes_rest hx (ha.trans hip)
    · exact h ▸ ih (by omega) (by omega) (forall_mem_cons_snd_lt htable (Nat.lt_succ_self ip))
    · obtain ⟨hfour, hin⟩ := matchLen_bounds hl
      have hbefore := snd_lt_of_lookup htable hc
      have hlits : ((x.drop anchor).take (ip - anchor)).length = ip - anchor := by
        rw [List.length_take, List.length_drop]; omega
      have hout : (x.take anchor).reverse.length = anchor := by
        rw [List.length_reverse, List.length_take]; omega
      have hpassed : (x.take ip).reverse.length = ip := by
        rw [List.length_reverse, List.length_take]; omega
      rw [h, List.append_assoc]
      refine snappyDecodes_snappyLiteral (by omega) (by omega) ?_
      rw [reverse_literals_append ha]
      refine snappyDecodes_snappyCopyFrom (by omega) (by omega) (by omega) hnear (by omega) (by omega) ?_
      rw [copyBack_matchLen hbefore hl]
      exact ih le_rfl (by omega) (forall_mem_cons_snd_lt htable (by omega))

/-! ### The round trip -/

theorem snappyDecompress_snappyRef {x : List Byte} {cap : Nat} (hx : x.length < 2 ^ 32) (hcap : x.length ≤ cap) :
    snappyDecompress (snappyRef x) cap = .ok (x, (snappyRef x).length) := by
  have hlen : readVarint 32 (snappyRef x) 0 = .ok (x.length, (varint x.length).length) :=
    readVarint_header [] (snappyLoop x x.length 0 0 []) hx
  have hloop : snappyElements (snappyRef x) x.length ((snappyRef x).length + 1) (varint x.length).length [] =
      .ok x.reverse :=
    snappyDecodes_snappyLoop hx.le le_rfl (Nat.zero_le _) (List.forall_mem_nil _) (varint x.length) _
      (by rw [snappyRef, List.length_append]; omega)
  simp only [snappyDecompress, hlen, if_neg (Nat.not_lt.2 hcap), hloop, List.reverse_reverse]

/-- More room does not change what a block decodes to: the block names its length (46_snappy.md R540). -/
theorem snappyDecompress_of_le {inp : List Byte} {cap cap' : Nat} {r : List Byte × Nat} (hcap : cap ≤ cap')
    (h : snappyDecompress inp cap = .ok r) : snappyDecompress inp cap' = .ok r := by
  unfold snappyDecompress at h ⊢
  split at h
  · cases h
  split at h
  · cases h
  next hroom => rwa [if_neg (by omega)]

/-- Settles O60: the elements of the reference member decode to the input, and an admissible member does by R540. -/
theorem snappyRoundTrip : Obligations.SnappyRoundTrip := by
  intro x cap members hbound hcap
  refine chosenMember_of_forall (P := fun y => ∃ used, snappyDecompress y cap = .ok (x, used))
    ⟨_, snappyDecompress_snappyRef (by omega) hcap⟩ (fun y hy => ?_) members
  obtain ⟨used, hdecode, -⟩ := snappyAdmissible_iff.1 hy
  exact ⟨used, snappyDecompress_of_le hcap hdecode⟩

end Sys2Proof.Machine
end

section
/-! ## Exceptions, completion and several engines

The statements of 60_exceptions.md: the error values, what every command leaves when it completes and when it ends in
error, what each host action does to IGNORED and to irq, and that engines share buffer memory only. -/

namespace Sys2Proof.Machine

/-! ### Error values -/

/-- The rows of 60_exceptions.md R603, in its order. -/
def errorRows : List ErrorCode :=
  [.illegalOp, .reservedField, .badWidth, .badElemSize, .badLevel, .noSession, .rangeWrap, .srcShort, .overlap,
    .dstTooSmall, .dstOverflow, .truncated, .badVarint, .badHeader, .badWidthField, .badBlockType, .badStoredLen,
    .badHuffmanTable, .badCode, .badOffset, .lengthMismatch, .busFault]

theorem mem_errorRows (c : ErrorCode) : c ∈ errorRows := by cases c <;> decide

theorem nodup_value_errorRows : (errorRows.map ErrorCode.value).Nodup := by decide

theorem value_injective : Function.Injective ErrorCode.value := fun c d h =>
  List.inj_on_of_nodup_map nodup_value_errorRows (mem_errorRows c) (mem_errorRows d) h

/-- Settles O25: each value by evaluation; the 22 rows have 22 values. -/
theorem errorValues : Obligations.ErrorValues :=
  ⟨rfl, rfl, rfl, rfl, rfl, rfl, rfl, rfl, rfl, rfl, rfl, rfl, rfl, rfl, rfl, rfl, rfl, rfl, rfl, rfl, rfl, rfl,
    fun _ _ h => value_injective h⟩

/-- The errors that leave the destination unspecified (20_memory.md R107). -/
theorem spoilsDst_eq_true_iff (c : ErrorCode) : c.spoilsDst = true ↔ c.kind = 3 ∨ c = .dstOverflow := by
  simp [ErrorCode.spoilsDst]

/-- The other errors are those of the checks phase (20_memory.md R107). -/
theorem spoilsDst_eq_false_iff (c : ErrorCode) :
    c.spoilsDst = false ↔ c.kind = 1 ∨ c = .busFault ∨ c = .dstTooSmall := by
  cases c <;> decide

/-- No error is one of both phases. -/
theorem not_spoils_of_checks {c : ErrorCode} (h : c.kind = 1 ∨ c = .busFault ∨ c = .dstTooSmall) :
    ¬(c.kind = 3 ∨ c = .dstOverflow) := by
  rw [← spoilsDst_eq_true_iff, (spoilsDst_eq_false_iff c).2 h]
  decide

/-! ### Every end of a command -/

section
variable {i : Instr} {s t : State}

/-- A command that completes is idle with DONE, and leaves IGNORED alone (60_exceptions.md R610, R611). -/
theorem Effect.status_eq (h : Effect i s t) : t.engine.status =
    { s.engine.status with
      busy := false, done := true, err := t.engine.status.err, recovered := t.engine.status.recovered } := by
  cases h <;> rfl

theorem Effect.latched_eq_none (h : Effect i s t) : t.engine.latched = none := by cases h <;> rfl

theorem Effect.regs_eq (h : Effect i s t) : t.engine.regs = s.engine.regs := by cases h <;> rfl

theorem Effect.irqEn_eq (h : Effect i s t) : t.engine.irqEn = s.engine.irqEn := by cases h <;> rfl

theorem Effect.othersKept (h : Effect i s t) : OthersKept s t := by cases h <;> exact ⟨rfl, rfl, rfl, rfl⟩

/-- ERR is exactly where an error was raised: without it ERROR stays, with it ERROR is an error's value
(60_exceptions.md R602, R610). -/
theorem Effect.error_cases (h : Effect i s t) :
    (t.engine.status.err = false ∧ t.engine.error = s.engine.error) ∨
      (t.engine.status.err = true ∧ ∃ c : ErrorCode, t.engine.error = c.value) := by
  cases h with
  | done => exact .inl ⟨rfl, rfl⟩
  | checks c | error c | rle c => exact .inr ⟨rfl, c, rfl⟩

theorem Effect.endsInError {c : ErrorCode} (h : Effect i s t) (hi : exec i s = .next t)
    (herr : t.engine.status.err = true) (hc : t.engine.error = c.value) : EndsInError i s t c := by
  refine ⟨hi, h.othersKept, hc, h.latched_eq_none, ?_, h.regs_eq, h.irqEn_eq⟩
  rw [h.status_eq, herr]

end

/-- Settles O24: every command answers a next state, and each of its ends is one of `exec_effect`. -/
theorem everyCommandCompletes : Obligations.EveryCommandCompletes := by
  intro i s
  obtain ⟨t, hi⟩ := exec_next i s
  have h := exec_effect hi
  refine ⟨t, hi, ?_, ?_, h.latched_eq_none, fun hok => ?_, fun herr => ?_, h.regs_eq, h.irqEn_eq, h.othersKept⟩
  · rw [h.status_eq]
  · rw [h.status_eq]
  · rcases h.error_cases with ⟨-, hkept⟩ | ⟨herr, -⟩
    · exact hkept
    · rw [hok] at herr; cases herr
  · rcases h.error_cases with ⟨hok, -⟩ | ⟨-, hvalue⟩
    · rw [hok] at herr; cases herr
    · exact hvalue

/-- Settles O6: the step is the engine's turn, which raises the word's error with no destination. -/
theorem badWordEndsInError : Obligations.BadWordEndsInError := by
  intro s e hb hin he
  refine ⟨_, (step_of_busy hb hin).trans (engineTurn_of_bad_word hb he), ?_, rfl, rfl, rfl, raise_nothingElse _ s,
    others_refl s⟩
  cases e with
  | illegalOp => rfl
  | reservedField => rfl

/-! ### What an error leaves -/

/-- The bytes of the extent an error spoils become free (20_memory.md R107, R108). -/
theorem raise_read_inside {c : ErrorCode} (hc : c.spoilsDst = true) {x : Extent} (s : State) {a : Nat}
    (ha : x.contains a = true) : (raise c x s).mem.read a = Config.freeByte s.draws a := by
  obtain ⟨hlo, hhi⟩ := (contains_iff x a).1 ha
  rw [raise_mem, if_pos hc, read_scramble, if_pos ⟨hlo, hhi⟩]

/-- An error of the execute phase makes the destination of its command unspecified, where it has one, and changes no
other byte (60_exceptions.md R602, 20_memory.md R107). -/
theorem raise_spoils_dst {i : Instr} {s u : State} {c : ErrorCode} {x : Extent} (hu : u.mem = s.mem)
    (hx : dstExtent s.engine i = some x ∨ (dstExtent s.engine i = none ∧ x = ⟨0, 0⟩)) (hc : c.spoilsDst = true) :
    (∀ a, OutsideDst i s a → (raise c x u).mem.read a = s.mem.read a) ∧
      ∀ y a, dstExtent s.engine i = some y → y.contains a = true →
        ∃ d, (raise c x u).mem.read a = Config.freeByte d a := by
  rcases hx with hx | ⟨hx, rfl⟩
  · refine ⟨fun a ha => (raise_read c x u (ha x hx)).trans (by rw [hu]), fun y a hy ha => ⟨u.draws, ?_⟩⟩
    obtain rfl : x = y := Option.some.inj (hx.symm.trans hy)
    exact raise_read_inside hc u ha
  · refine ⟨fun a _ => (raise_nowhere_read c u a).trans (by rw [hu]), fun y a hy _ => ?_⟩
    cases hx.symm.trans hy

/-- Settles O26: of the four ends of `exec_effect` three are errors. One of the checks phase has no destination; one of
the execute phase spoils it unless it is DST_TOO_SMALL; only one in an RLE session command touches a session. -/
theorem errorEffects : Obligations.ErrorEffects := by
  intro i s t hi herr
  have heffect := exec_effect hi
  have hends {c : ErrorCode} (hc : t.engine.error = c.value) := heffect.endsInError hi herr hc
  cases heffect with
  | checks c hc =>
    have hnot := not_spoils_of_checks hc
    refine ⟨c, hends rfl, ⟨_, rfl⟩, rfl, rfl, fun _ => raise_nothingElse c s, fun hspoils => absurd hspoils hnot, ?_⟩
    exact (if_neg fun hrle => hnot (.inl hrle.1)).mpr rfl
  | error c x b ms hx _ hc hsession =>
    refine ⟨c, hends rfl, ⟨_, rfl⟩, rfl, rfl, fun hchecks => ?_, fun hspoils => ?_, ?_⟩
    · have hnot := not_spoils_of_checks hchecks
      rcases hc with hmalformed | hoverflow | ⟨-, rfl⟩
      · exact absurd (.inl hmalformed) hnot
      · exact absurd (.inr hoverflow) hnot
      · exact ⟨rfl, rfl, rfl, Bool.or_false _, raise_read_of_not_spoils ((spoilsDst_eq_false_iff c).2 hchecks) x _⟩
    · exact raise_spoils_dst rfl (.inl hx) ((spoilsDst_eq_true_iff c).2 hspoils)
    · exact (if_neg fun hrle => hsession hrle.2).mpr rfl
  | rle c x b hx hc hsession =>
    refine ⟨c, hends rfl, ⟨_, rfl⟩, rfl, rfl, fun hchecks => absurd (.inl hc) (not_spoils_of_checks hchecks),
      fun hspoils => ?_, ?_⟩
    · exact raise_spoils_dst (u := recover b s) rfl (hx.imp_left And.left) ((spoilsDst_eq_true_iff c).2 hspoils)
    · exact (if_pos ⟨hc, hsession⟩).mpr rfl
  | done => cases herr

/-! ### Steps that take an action -/

theorem step_engineTurn {s : State} {rest : List Event} (hin : s.inbox = .engineTurn :: rest) :
    step s = engineTurn { s with inbox := rest } := by
  rw [step, hin]

theorem step_hostAction {s : State} {ev : Event} {rest : List Event} (hin : s.inbox = ev :: rest)
    (hev : ev ≠ .engineTurn) : step s = hostAction ev { s with inbox := rest } := by
  cases ev with
  | engineTurn => contradiction
  | _ => rw [step, hin]

/-- The engine's turn leaves the world outside and IGNORED as they were (60_exceptions.md R611, R637). -/
theorem engineTurn_keeps {s t : State} (h : engineTurn s = .next t) :
    OthersKept s t ∧ t.engine.status.ignored = s.engine.status.ignored := by
  unfold engineTurn at h
  split at h
  · split at h
    · have heffect := exec_effect h
      exact ⟨heffect.othersKept, by rw [heffect.status_eq]⟩
    · cases h
      exact ⟨others_refl s, rfl⟩
  · cases h
    exact ⟨others_refl s, rfl⟩

/-- A write changes nothing outside the addressed engine; while BUSY it sets IGNORED, and else only one to STATUS with
bit 4 clears it (60_exceptions.md R611). -/
theorem writeReg_next {r : Reg} {v : Word} {s t : State} (h : writeReg r v s = .next t) :
    t.peers = s.peers ∧ t.engine.status.ignored =
      (s.engine.status.busy || s.engine.status.ignored && !(decide (r = .status) && v.getLsbD 4)) := by
  cases hb : s.engine.status.busy with
  | true =>
    rw [writeReg_busy r v hb] at h
    cases h
    exact ⟨rfl, rfl⟩
  | false =>
    by_cases hctrl : r = .ctrl
    · subst hctrl
      rw [writeReg_ctrl v hb] at h
      split at h
      · obtain rfl := startChecked_next h
        exact ⟨rfl, by simp⟩
      · cases h
        exact ⟨rfl, by simp⟩
    · rw [writeReg_idle hctrl v hb] at h
      cases h
      refine ⟨rfl, ?_⟩
      by_cases hstatus : r = .status
      · simp [hstatus, Status.writeOneToClear]
      · simp [hstatus]

/-- An access that reaches a register is at its offset of the block (10_state.md R50, R51). -/
theorem regOf_eq_some {p : Platform} {addr width : Nat} {r : Reg} (h : regOf p addr width = some r) :
    ∃ off, addr = p.engineBase + off ∧ r = regAt off := by
  by_cases hblock : width = 4 ∧ ∃ off, off % 4 = 0 ∧ off ≤ 0xFC ∧ addr = p.engineBase + off
  · obtain ⟨rfl, off, halign, hle, rfl⟩ := hblock
    rw [regOf_block p halign hle] at h
    exact ⟨off, rfl, (Option.some.inj h).symm⟩
  · rw [regOf_eq_none hblock] at h
    cases h

theorem hostAction_regWrite {addr width : Nat} {v : Word} {s t : State}
    (h : hostAction (.regWrite addr width v) s = .next t) :
    ∃ off, addr = s.platform.engineBase + off ∧ writeReg (regAt off) v s = .next t := by
  simp only [hostAction] at h
  split at h
  · cases h
  · next hr =>
    obtain ⟨off, haddr, rfl⟩ := regOf_eq_some hr
    exact ⟨off, haddr, h⟩

theorem hostAction_regRead {addr width : Nat} {s t : State} (h : hostAction (.regRead addr width) s = .next t) :
    ∃ r, t = readReg r s := by
  simp only [hostAction] at h
  split at h
  · cases h
  · cases h
    exact ⟨_, rfl⟩

theorem readReg_keeps (r : Reg) (s : State) : (readReg r s).peers = s.peers ∧ (readReg r s).engine = s.engine := by
  obtain ⟨v, d, -, heq⟩ := readReg_eq r s
  rw [heq]
  exact ⟨rfl, rfl⟩

/-! ### IGNORED -/

/-- IGNORED after an action that is neither `select` nor the reset input (60_exceptions.md R611). -/
def ignoredAfter (s : State) : Event → Bool
  | .regWrite addr _ v => s.engine.status.busy ||
    s.engine.status.ignored && !(decide (addr = s.platform.engineBase + 0x08) && v.getLsbD 4)
  | _ => s.engine.status.ignored

theorem hostAction_ignored {ev : Event} {s t : State} (h : hostAction ev s = .next t) (hreset : ev ≠ .resetPin)
    (hselect : ∀ k, ev ≠ .select k) : t.engine.status.ignored = ignoredAfter s ev := by
  cases ev with
  | engineTurn => cases h; rfl
  | select k => exact absurd rfl (hselect k)
  | regWrite addr width v =>
    obtain ⟨off, rfl, hwrite⟩ := hostAction_regWrite h
    obtain ⟨-, hignored⟩ := writeReg_next hwrite
    simpa only [ignoredAfter, regAt_eq_status_iff, Nat.add_left_cancel_iff] using hignored
  | regRead addr width =>
    obtain ⟨r, rfl⟩ := hostAction_regRead h
    exact congrArg (·.status.ignored) (readReg_keeps r s).2
  | memStore addr bytes => obtain ⟨-, rfl⟩ := hostStore_next h; rfl
  | memLoad addr => obtain rfl := hostLoad_next h; rfl
  | resetPin => contradiction

/-- Settles O14: a write while busy is `writeReg_busy` at every offset; the engine's turn and each other action are
inverted once above. -/
theorem writesWhileBusy : Obligations.WritesWhileBusy := by
  refine ⟨fun s rest off v halign hle hin hb => ?_, fun s t rest ev hin hreset hselect hstep => ?_,
    fun i s t hi => by rw [(exec_effect hi).status_eq]⟩
  · rw [step_regWrite hin (regOf_block s.platform halign hle)]
    exact writeReg_busy (s := { s with inbox := rest }) _ v hb
  · by_cases hev : ev = .engineTurn
    · subst hev
      rw [step_engineTurn hin] at hstep
      obtain ⟨-, hignored⟩ := engineTurn_keeps hstep
      exact hignored
    · rw [step_hostAction hin hev] at hstep
      refine (hostAction_ignored hstep hreset hselect).trans ?_
      cases ev <;> rfl

/-! ### irq -/

/-- Settles O19: a command that completes sets DONE and keeps IRQ_EN; a write to STATUS clears DONE by bit 1; one to
CTRL stores IRQ_EN, and START clears DONE. -/
theorem interruptOutput : Obligations.InterruptOutput := by
  refine ⟨fun e => rfl, fun i s t hi => ?_, fun s t rest v hb hin hstep => ?_, fun s t rest v hb hin hstep => ?_⟩
  · have heffect := exec_effect hi
    rw [Engine.irq, heffect.status_eq, heffect.irqEn_eq, Bool.true_and]
  · have hreg : regOf s.platform (s.platform.engineBase + 0x08) 4 = some .status :=
      regOf_block _ (by decide) (by decide)
    rw [step_regWrite hin hreg, writeReg_idle (s := { s with inbox := rest }) (by decide) v hb] at hstep
    cases hstep
    exact Bool.and_right_comm _ _ _
  · have hreg : regOf s.platform (s.platform.engineBase + 0x04) 4 = some .ctrl :=
      regOf_block _ (by decide) (by decide)
    rw [step_regWrite hin hreg, writeReg_ctrl (s := { s with inbox := rest }) v hb] at hstep
    split at hstep
    · next hstart =>
      obtain rfl := startChecked_next hstep
      rw [hstart]
      exact (Bool.and_false _).symm
    · next hidle =>
      cases hstep
      rw [Bool.eq_false_of_not_eq_true hidle]
      exact (Bool.and_true _).symm

/-! ### Several engines -/

/-- Only turning to another engine changes the others (60_exceptions.md R637). -/
theorem hostAction_peers {ev : Event} {s t : State} (h : hostAction ev s = .next t) (hselect : ∀ k, ev ≠ .select k) :
    t.peers = s.peers := by
  cases ev with
  | engineTurn => cases h; rfl
  | select k => exact absurd rfl (hselect k)
  | regWrite addr width v =>
    obtain ⟨off, -, h⟩ := hostAction_regWrite h
    exact (writeReg_next h).1
  | regRead addr width =>
    obtain ⟨r, rfl⟩ := hostAction_regRead h
    exact (readReg_keeps r s).1
  | memStore addr bytes => obtain ⟨-, rfl⟩ := hostStore_next h; rfl
  | memLoad addr => obtain rfl := hostLoad_next h; rfl
  | resetPin => cases h; exact applyReset_peers s

/-- The machine with other engines beside the addressed one. -/
def State.withPeers (s : State) (others : List Engine) : State := { s with peers := others }

section
variable {others : List Engine}

@[simp] theorem engine_withPeers (s : State) : (s.withPeers others).engine = s.engine := rfl
@[simp] theorem mem_withPeers (s : State) : (s.withPeers others).mem = s.mem := rfl
@[simp] theorem operands_withPeers (s : State) : (s.withPeers others).operands = s.operands := rfl
@[simp] theorem bytesOf_withPeers (s : State) (x : Extent) : (s.withPeers others).bytesOf x = s.bytesOf x := rfl

@[simp] theorem deliver_withPeers (x : Extent) (out : List Byte) (r : Results) (s : State) :
    deliver x out r (s.withPeers others) = (deliver x out r s).withPeers others := by
  unfold deliver
  split <;> rfl

/-- The checks ask nothing of the other engines, so a command does the same beside any where its execute phase does. -/
theorem runCommand_withPeers {d : Demand} {s t : State} {body : State → State} (h : runCommand d s body = .next t)
    (hbody : body (s.withPeers others) = (body s).withPeers others) :
    runCommand d (s.withPeers others) body = .next (t.withPeers others) := by
  rcases runCommand_cases h with ⟨e, hc, rfl⟩ | ⟨hc, rfl⟩
  · exact runCommand_of_error hc
  · rw [runCommand_of_checks (s := s.withPeers others) hc, hbody]

theorem withRleValues_withPeers (max : Nat) (dst : Extent) (s : State) {k : List Nat → State → State}
    (hk : ∀ vs u, k vs (u.withPeers others) = (k vs u).withPeers others) :
    withRleValues max dst (s.withPeers others) k = (withRleValues max dst s k).withPeers others := by
  simp only [withRleValues, engine_withPeers, bytesOf_withPeers]
  rcases nextValues s.engine.rle.w (s.bytesOf s.engine.rle.extent) max s.engine.rle.cursor with ⟨e | vs, c⟩
  · rfl
  · refine Eq.trans ?_ (hk vs _)
    rfl

theorem deltaDec_withPeers {W E : Nat} {s t : State} (h : deltaDec W E s = .next t) :
    deltaDec W E (s.withPeers others) = .next (t.withPeers others) := by
  dsimp only [deltaDec] at h
  refine runCommand_withPeers h ?_
  simp only [bytesOf_withPeers]
  rcases deltaHeader W (s.bytesOf s.operands.src) with e | hd
  · rfl
  · dsimp only
    split
    · rfl
    · rcases deltaValues W hd (s.bytesOf s.operands.src) (min s.operands.count.toNat hd.total) with e | ⟨vs, used⟩
      · rfl
      · exact deliver_withPeers _ _ _ _

theorem compressRun_withPeers {field : Option ErrorCode} {draws : Bool} {out : List Byte → List Byte} {s t : State}
    (h : compressRun field draws out s = .next t) :
    compressRun field draws out (s.withPeers others) = .next (t.withPeers others) := by
  dsimp only [compressRun] at h
  exact runCommand_withPeers h
    (deliver_withPeers _ _ _ { s with members := if draws then s.members.tail else s.members })

theorem decompressRun_withPeers {decoder : List Byte → Nat → Except ErrorCode (List Byte × Nat)} {s t : State}
    (h : decompressRun decoder s = .next t) :
    decompressRun decoder (s.withPeers others) = .next (t.withPeers others) := by
  dsimp only [decompressRun] at h
  refine runCommand_withPeers h ?_
  simp only [bytesOf_withPeers]
  rcases decoder (s.bytesOf s.operands.src) s.operands.dstCap.toNat with e | ⟨out, used⟩
  · rfl
  · exact deliver_withPeers _ _ _ _

/-- What a command does is the same beside any other engines (60_exceptions.md R637). -/
theorem exec_withPeers {i : Instr} {s t : State} (h : exec i s = .next t) :
    exec i (s.withPeers others) = .next (t.withPeers others) := by
  cases i with
  | pack8 w | unpack8 w | packBulk w | unpackBulk w | rleEnc w | deltaEncI32 | deltaEncI64 | bssEnc w | bssDec w =>
    simp only [exec, execPack8, execUnpack8, execPackBulk, execUnpackBulk, execRleEnc, execDeltaEncI32,
      execDeltaEncI64, deltaEnc, execBssEnc, execBssDec, bssRun, operands_withPeers] at h ⊢
    refine runCommand_withPeers h ?_
    simp only [packValues, unpackValues, sourceElems, deliver_withPeers, operands_withPeers, mem_withPeers,
      engine_withPeers]
  | bwInit | bwPutBit | bwPut n | bwPut64 n | bwFlush | brInit | brGetBit | brGet n | brGet64 n | rleDecInit w
  | deflateBound | lz4Bound | snappyBound =>
    dsimp only [exec, execBwInit, execBwPutBit, execBwPut, execBwPut64, putBits, execBwFlush, execBrInit, execBrGetBit,
      execBrGet, execBrGet64, execRleDecInit, execDeflateBound, execLz4Bound, execSnappyBound, boundRun] at h
    exact runCommand_withPeers h rfl
  | rleDecGet | rleDecSkip =>
    dsimp only [exec, execRleDecGet, execRleDecSkip] at h
    exact runCommand_withPeers h (withRleValues_withPeers _ _ _ fun _ _ => rfl)
  | rleDecBatch =>
    dsimp only [exec, execRleDecBatch] at h
    exact runCommand_withPeers h (withRleValues_withPeers _ _ _ fun _ _ => deliver_withPeers _ _ _ _)
  | rleDecLevels16 w =>
    dsimp only [exec, execRleDecLevels16] at h
    refine runCommand_withPeers h ?_
    simp only [bytesOf_withPeers]
    rcases nextValues w.toNat (s.bytesOf s.operands.src) s.operands.count.toNat ⟨0, .none, false⟩ with ⟨e | vs, c⟩
    · rfl
    · exact deliver_withPeers _ _ _ (recover c.recovered s)
  | deltaDecI32 | deltaDecI64 => exact deltaDec_withPeers h
  | deflateCompress l | lz4Compress l | snappyCompress l =>
    dsimp only [exec, execDeflateCompress, execLz4Compress, execSnappyCompress] at h
    exact compressRun_withPeers h
  | deflateDecompress | lz4Decompress | snappyDecompress => exact decompressRun_withPeers h

end

/-- Settles O22: the engine's turn and each action but `select` keep the other engines, a command does the same beside
any (`exec_withPeers`), and `select` exchanges the addressed engine with the one at its place. -/
theorem enginesShareOnlyMemory : Obligations.EnginesShareOnlyMemory := by
  refine ⟨fun s t ev rest hin hselect hstep => ?_, fun i s t others hi => exec_withPeers hi, fun s k rest hin => ?_⟩
  · by_cases hev : ev = .engineTurn
    · subst hev
      rw [step_engineTurn hin] at hstep
      obtain ⟨⟨hpeers, -⟩, -⟩ := engineTurn_keeps hstep
      exact hpeers
    · rw [step_hostAction hin hev] at hstep
      exact hostAction_peers (s := { s with inbox := rest }) hstep hselect
  · have hstep : step s = selectEngine k { s with inbox := rest } := step_hostAction hin nofun
    rw [hstep, selectEngine]
    refine ⟨fun hnone => ?_, fun e he => ?_⟩
    · rw [List.getElem?_eq_none hnone]
    · rw [he]
      exact ⟨_, rfl, rfl, rfl, rfl, rfl⟩

end Sys2Proof.Machine
end

section
/-! ## Reset and hazards

The statements of 70_reset_and_hazards.md: what the reset input leaves of the engine and of memory, what the host reads
while a command runs, and that a machine left alone completes every command it has started. -/

namespace Sys2Proof.Machine

/-! ### Reads while BUSY -/

/-- The offsets of 70_reset_and_hazards.md R711 whose reads are free while BUSY = 1. -/
theorem openWhileBusy_regAt (off : Nat) :
    (regAt off).openWhileBusy = decide (off ∈ [0x2C, 0x30, 0x34, 0x38, 0x3C, 0x44, 0x48, 0x4C]) := by
  unfold regAt
  split
  case h_21 => simp_all [Reg.openWhileBusy]
  all_goals rfl

theorem regAt_of_ge {off : Nat} (h : 0x50 ≤ off) : regAt off = .reserved := by
  unfold regAt
  split
  case h_21 => rfl
  all_goals omega

theorem readReg_free {r : Reg} {s : State} (hb : s.engine.status.busy = true) (hr : r.openWhileBusy = true) :
    readReg r s = { s with hostData := some (Config.freeWord s.draws), draws := s.draws + 1 } :=
  if_pos (by rw [hb, hr]; rfl)

/-- STATUS of a command that runs, DONE and ERR cleared by its START (10_state.md R54). -/
theorem status_word_of_running {t : Status} (hb : t.busy = true) (hd : t.done = false) (he : t.err = false) :
    t.word = BitVec.ofNat 32 (1 + 8 * t.recovered.toNat + 16 * t.ignored.toNat) := by
  have hsum : wordOfFlags [t.busy, t.done, t.err, t.recovered, t.ignored] =
      1 + 8 * t.recovered.toNat + 16 * t.ignored.toNat := by
    simp only [wordOfFlags, hb, hd, he, Bool.toNat_false, Bool.toNat_true]
    ring
  rw [Status.word, hsum]

/-- The captured registers of a sound engine are its registers: no write reaches them while BUSY (60_exceptions.md
R611). -/
theorem Engine.Sound.operands_eq {e : Engine} (h : e.Sound) : e.operands = e.regs := by
  unfold Engine.operands
  cases hl : e.latched with
  | none => rfl
  | some p => exact h.captured p hl

/-- Settles O17: the access reaches the register at the offset; one of R711 reads as the next free word, any other as
its value, which START fixed for STATUS and ERROR. -/
theorem readsWhileBusy : Obligations.ReadsWhileBusy := by
  intro s rest off hs halign hle hin hb
  obtain ⟨hdone, herr, herror, -⟩ := hs.engine.quiet hb
  have hopen : off ∈ [0x2C, 0x30, 0x34, 0x38, 0x3C, 0x44, 0x48, 0x4C] →
      (readReg (regAt off) { s with inbox := rest }).hostData = some (Config.freeWord s.draws) := fun hoff => by
    have hr : (regAt off).openWhileBusy = true := by rw [openWhileBusy_regAt, decide_eq_true hoff]
    rw [readReg_free (s := { s with inbox := rest }) hb hr]
  have hvalue {r : Reg} (hr : r.openWhileBusy = false) (hoff : regAt off = r) :
      (readReg (regAt off) { s with inbox := rest }).hostData = some (s.engine.regValue r) := by
    rw [hoff, readReg_value (.inr hr)]
  have hat (n : Nat) (hn : (regAt n).openWhileBusy = false) (hoff : off = n) :
      (readReg (regAt off) { s with inbox := rest }).hostData = some (s.engine.regValue (regAt n)) :=
    hvalue hn (congrArg regAt hoff)
  have hmem : (readReg (regAt off) { s with inbox := rest }).mem = s.mem := by
    obtain ⟨v, d, -, heq⟩ := readReg_eq (regAt off) { s with inbox := rest }
    rw [heq]
  obtain ⟨hpeers, hengine⟩ := readReg_keeps (regAt off) { s with inbox := rest }
  simp only [State.operands, hs.engine.operands_eq, ← status_word_of_running hb hdone herr]
  exact ⟨_, step_regRead hin (regOf_block s.platform halign hle), hengine, hmem, hpeers, hopen, hat 0x00 rfl,
    hat 0x04 rfl, hat 0x08 rfl, hat 0x0C rfl, hat 0x10 rfl, hat 0x14 rfl, hat 0x18 rfl, hat 0x1C rfl, hat 0x20 rfl,
    hat 0x24 rfl, hat 0x28 rfl, fun hoff => (hat 0x40 rfl hoff).trans (congrArg some herror),
    fun hoff => hvalue rfl (regAt_of_ge hoff)⟩

/-! ### The reset input -/

theorem running_of_idle {e : Engine} (hb : e.status.busy = false) : e.running = none :=
  if_neg (by rw [hb]; decide)

theorem running_of_bad_word {e : Engine} {c : DecodeError} (hc : decode e.operands.cmd = .error c) :
    e.running = none := by
  simp only [Engine.running, hc, ite_self]

theorem running_of_command {e : Engine} {i : Instr} (hb : e.status.busy = true) (hi : decode e.operands.cmd = .ok i) :
    e.running = some i := by
  simp only [Engine.running, hb, hi, if_true]

/-- An extent is cut where the address space ends (20_memory.md R100, log entry 16). -/
theorem clip_contains_iff (x : Extent) (a : Nat) : x.clip.contains a = true ↔ x.contains a = true ∧ a < 2 ^ 32 := by
  simp only [contains_iff, Extent.clip, Config.addrSpace]
  omega

/-- A reset with nothing to cut leaves buffer memory alone (70_reset_and_hazards.md R700). -/
theorem applyReset_sameMemory {s : State} (h : s.engine.running.bind (cutExtent s.engine) = none) :
    SameMemory s (applyReset s) := fun a => by
  simp only [applyReset, h]

/-- A reset while a command runs makes the bytes it cuts free, up to `2^32`, and no other (70_reset_and_hazards.md
R701, log entry 16). -/
theorem applyReset_read_of_cut {s : State} {x : Extent} (h : s.engine.running.bind (cutExtent s.engine) = some x)
    (a : Nat) : (applyReset s).mem.read a =
      if x.contains a = true ∧ a < 2 ^ 32 then Config.freeByte s.draws a else s.mem.read a := by
  simp only [applyReset, h, read_scramble, ← contains_iff, clip_contains_iff]

/-- Settles O12: without a running command nothing is cut, and a running one loses exactly its `cutExtent`. -/
theorem resetInput : Obligations.ResetInput := by
  intro s rest hin
  have hnone (h : s.engine.running = none) : SameMemory s (applyReset { s with inbox := rest }) :=
    applyReset_sameMemory (s := { s with inbox := rest }) (by rw [h]; rfl)
  refine ⟨_, step_hostAction hin nofun, applyReset_engine _, ?_, applyReset_peers _, applyReset_inbox _,
    fun hb => hnone (running_of_idle hb), fun e he => hnone (running_of_bad_word he), fun i hb hi => ?_⟩
  · rw [applyReset_engine]
    rfl
  · intro cut
    have hcut : s.engine.running.bind (cutExtent s.engine) = cut := by
      rw [running_of_command hb hi]
      cases i <;> rfl
    refine ⟨fun a hout => ?_, fun a x hx hinside hlt => ?_⟩
    · cases hc : cut with
      | none => exact applyReset_sameMemory (s := { s with inbox := rest }) (hcut.trans hc) a
      | some x =>
        rw [applyReset_read_of_cut (s := { s with inbox := rest }) (hcut.trans hc), hout x hc]
        exact if_neg fun ⟨hinside, _⟩ => Bool.false_ne_true hinside
    · exact (applyReset_read_of_cut (s := { s with inbox := rest }) (hcut.trans hx) a).trans (if_pos ⟨hinside, hlt⟩)

/-! ### A machine left alone -/

theorem stepsFrom_succ_of_step {s t : State} (h : step s = .next t) (n : Nat) : stepsFrom (n + 1) s = stepsFrom n t := by
  rw [stepsFrom, h]

/-- The turn of an engine that runs a command completes it, whatever its word (60_exceptions.md R610, R612). -/
theorem step_completes {s : State} (hin : s.inbox = []) (hb : s.engine.status.busy = true) :
    ∃ t, step s = .next t ∧ t.engine.status.busy = false ∧ t.peers = s.peers ∧ t.inbox = [] := by
  rw [step_of_busy hb hin]
  cases hw : decode s.operands.cmd with
  | ok i =>
    obtain ⟨t, hi, hidle, -, -, -, -, -, -, hpeers, -, hinbox, -⟩ := everyCommandCompletes i s
    exact ⟨t, (engineTurn_of_command hb hw).trans hi, hidle, hpeers, hinbox.trans hin⟩
  | error e => exact ⟨_, engineTurn_of_bad_word hb hw, rfl, rfl, hin⟩

/-- While the addressed engine is idle, the turn goes to another engine that runs a command (log entry 5). -/
theorem step_turns_to_busy {s : State} (hin : s.inbox = []) (hidle : s.engine.status.busy = false)
    (hpeer : ∃ e ∈ s.peers, e.status.busy = true) :
    ∃ (k : Nat) (hk : k < s.peers.length), s.peers[k].status.busy = true ∧
      step s = .next { s with engine := s.peers[k], peers := s.peers.set k s.engine } := by
  cases hfind : s.peers.findIdx? fun e => e.status.busy with
  | none =>
    obtain ⟨e, he, hbusy⟩ := hpeer
    exact absurd hbusy (by rw [List.findIdx?_eq_none_iff.1 hfind e he]; decide)
  | some k =>
    obtain ⟨hk, hbusy, -⟩ := List.findIdx?_eq_some_iff_getElem.1 hfind
    have hnext : s.nextBusy = some k := by
      rw [State.nextBusy, hidle]
      exact hfind
    refine ⟨k, hk, hbusy, ?_⟩
    simp only [step, hin, hnext, selectEngine, List.getElem?_eq_getElem hk]

/-- Each of the other engines that runs a command takes two steps: the turn to it, and its own. -/
theorem others_complete (n : Nat) {s : State} (hin : s.inbox = []) (hidle : s.engine.status.busy = false)
    (hcount : s.peers.countP (fun e => e.status.busy) = n) :
    ∃ t, stepsFrom (2 * n) s = some t ∧ ∀ e ∈ t.engines, e.status.busy = false := by
  induction n generalizing s with
  | zero =>
    have hpeers : ∀ e ∈ s.peers, e.status.busy = false := fun e he =>
      Bool.eq_false_of_not_eq_true (List.countP_eq_zero.1 hcount e he)
    exact ⟨s, rfl, List.forall_mem_cons.2 ⟨hidle, hpeers⟩⟩
  | succ n ih =>
    obtain ⟨k, hk, hbusy, hturn⟩ :=
      step_turns_to_busy hin hidle (List.countP_pos_iff.1 (hcount ▸ Nat.succ_pos n))
    obtain ⟨t, hrun, htidle, htpeers, htin⟩ := step_completes (s := { s with
      engine := s.peers[k], peers := s.peers.set k s.engine }) hin hbusy
    have hless : t.peers.countP (fun e => e.status.busy) = n := by
      rw [htpeers, List.countP_set hk, hcount, hbusy, hidle]
      rfl
    obtain ⟨u, hsteps, hall⟩ := ih htin htidle hless
    exact ⟨u, by rw [Nat.mul_succ, stepsFrom_succ_of_step hturn, stepsFrom_succ_of_step hrun, hsteps], hall⟩

/-- Settles O23: one step for the addressed engine where it runs a command, then two for each of the others that
does. -/
theorem everyStartedCommandCompletes : Obligations.EveryStartedCommandCompletes := by
  intro s hin
  have hcount : s.peers.countP (fun e => e.status.busy) ≤ s.peers.length := List.countP_le_length
  have hlength : s.engines.length = s.peers.length + 1 := rfl
  cases hb : s.engine.status.busy with
  | false =>
    obtain ⟨t, hsteps, hall⟩ := others_complete _ hin hb rfl
    exact ⟨_, t, by omega, hsteps, hall⟩
  | true =>
    obtain ⟨u, hstep, hidle, hpeers, huin⟩ := step_completes hin hb
    obtain ⟨t, hsteps, hall⟩ := others_complete _ huin hidle (congrArg _ hpeers)
    exact ⟨_, t, by omega, (stepsFrom_succ_of_step hstep _).trans hsteps, hall⟩

end Sys2Proof.Machine
end
